-- ==== Sys2Proof/Word.lean ====
section
/-! DEFINITION. The word types of QRCORE and the types of its register numbers
(spec/10_state.md R21, R24; spec/30_encoding.md R80). -/

namespace Sys2Proof

/-- A 32-bit word: a command word (R80) or the contents of a written scalar register (R21). -/
abbrev Word := BitVec 32

/-- A byte of `M` (R61), which is also a GF(256) element (R120). -/
abbrev Byte := BitVec 8

/-- The number of a scalar register `x0` to `x7` (R21, R85). -/
abbrev XReg := Fin 8

/-- The number of a polynomial register `p0` to `p3` (R24, R85). -/
abbrev PReg := Fin 4

end Sys2Proof
end

