-- ==== Sys2Proof/Syntax.lean ====
section
/-! DEFINITION. The 33 commands of QRCORE as data, one constructor per row of
spec/opcode_table.json (spec/30_encoding.md R86), and their assembly text (R90). -/

namespace Sys2Proof

/-- A command. `rd`, `ra`, `rb` are the register fields of R82, each of the kind (scalar or
polynomial) that R86 gives it; an immediate is the number that R84 assembles: `imm20` signed,
`imm12` unsigned. The ranges of the immediates are checked in WellFormed.lean. -/
inductive Instr where
  /-- `NOP` (R101) -/
  | nop
  /-- `RST` (R102) -/
  | rst
  /-- `CLR` (R103) -/
  | clr
  /-- `LI xd, imm` (R104) -/
  | li (rd : XReg) (imm : Int)
  /-- `LB xd, xa` (R105) -/
  | lb (rd ra : XReg)
  /-- `SB xd, xa` (R106): `rd` is the source of the byte -/
  | sb (rd ra : XReg)
  /-- `CSRR xd, csr` (R107) -/
  | csrr (rd : XReg) (csr : Nat)
  /-- `CSRW csr, xa` (R108) -/
  | csrw (csr : Nat) (ra : XReg)
  /-- `GEXP xd, xa` (R128) -/
  | gexp (rd ra : XReg)
  /-- `GLOG xd, xa` (R129) -/
  | glog (rd ra : XReg)
  /-- `GFMUL xd, xa, xb` (R130) -/
  | gfmul (rd ra rb : XReg)
  /-- `GFADD xd, xa, xb` (R131) -/
  | gfadd (rd ra rb : XReg)
  /-- `PLD pd, xa, xb` (R147) -/
  | pld (rd : PReg) (ra rb : XReg)
  /-- `PST pd, xa, xb` (R148): `rd` is the polynomial stored -/
  | pst (rd : PReg) (ra rb : XReg)
  /-- `PLEN xd, pa` (R149) -/
  | plen (rd : XReg) (ra : PReg)
  /-- `PGET xd, pa, xb` (R150) -/
  | pget (rd : XReg) (ra : PReg) (rb : XReg)
  /-- `PMUL pd, pa, pb` (R151) -/
  | pmul (rd ra rb : PReg)
  /-- `PMOD pd, pa, pb` (R152) -/
  | pmod (rd ra rb : PReg)
  /-- `PSHIFT pd, pa, xb` (R153) -/
  | pshift (rd ra : PReg) (rb : XReg)
  /-- `PGEN pd, xa` (R212) -/
  | pgen (rd : PReg) (ra : XReg)
  /-- `RSGEN` (R213) -/
  | rsgen
  /-- `ILV` (R214) -/
  | ilv
  /-- `BCHFMT xd, xa, xb` (R172) -/
  | bchfmt (rd ra rb : XReg)
  /-- `BCHVER xd, xa` (R173) -/
  | bchver (rd ra : XReg)
  /-- `MINIT` (R241) -/
  | minit
  /-- `MPLACE` (R242) -/
  | mplace
  /-- `MRD xd, xa, xb` (R243) -/
  | mrd (rd ra rb : XReg)
  /-- `MMETA` (R244) -/
  | mmeta
  /-- `MSKBIT xd, xa, xb, k` (R191) -/
  | mskbit (rd ra rb : XReg) (k : Nat)
  /-- `MAPPLY k` (R192) -/
  | mapply (k : Nat)
  /-- `MSCORE xd, s` (R193) -/
  | mscore (rd : XReg) (sel : Nat)
  /-- `MMASK` (R194) -/
  | mmask
  /-- `ENCODE` (R257) -/
  | encode
  deriving DecidableEq, Repr

/-- The mnemonic of a command (R86). -/
def Instr.mnemonic : Instr → String
  | .nop => "NOP"
  | .rst => "RST"
  | .clr => "CLR"
  | .li _ _ => "LI"
  | .lb _ _ => "LB"
  | .sb _ _ => "SB"
  | .csrr _ _ => "CSRR"
  | .csrw _ _ => "CSRW"
  | .gexp _ _ => "GEXP"
  | .glog _ _ => "GLOG"
  | .gfmul _ _ _ => "GFMUL"
  | .gfadd _ _ _ => "GFADD"
  | .pld _ _ _ => "PLD"
  | .pst _ _ _ => "PST"
  | .plen _ _ => "PLEN"
  | .pget _ _ _ => "PGET"
  | .pmul _ _ _ => "PMUL"
  | .pmod _ _ _ => "PMOD"
  | .pshift _ _ _ => "PSHIFT"
  | .pgen _ _ => "PGEN"
  | .rsgen => "RSGEN"
  | .ilv => "ILV"
  | .bchfmt _ _ _ => "BCHFMT"
  | .bchver _ _ => "BCHVER"
  | .minit => "MINIT"
  | .mplace => "MPLACE"
  | .mrd _ _ _ => "MRD"
  | .mmeta => "MMETA"
  | .mskbit _ _ _ _ => "MSKBIT"
  | .mapply _ => "MAPPLY"
  | .mscore _ _ => "MSCORE"
  | .mmask => "MMASK"
  | .encode => "ENCODE"

/-- A scalar register in assembly (R90). -/
def XReg.asm (r : XReg) : String := "x" ++ toString r.val

/-- A polynomial register in assembly (R90). -/
def PReg.asm (r : PReg) : String := "p" ++ toString r.val

/-- The names of CSRs 0 to 13 (R29). -/
def csrNames : List String :=
  ["STATUS", "ECMD", "CFG", "DADDR", "DLEN", "BADDR", "NBLK", "EADDR", "FADDR", "FLEN", "ELEN",
    "RESMASK", "SCORE", "NSIDE"]

/-- A CSR operand in assembly: its name where it has one, else its number (R90). -/
def csrAsm (n : Nat) : String := csrNames.getD n (toString n)

/-- A command's line of assembly (R90): the mnemonic in capitals, then the operands in the order of
R86's Assembly column. Every command is exactly one line (R91). -/
def Instr.assembly : Instr → String
  | .nop => "NOP"
  | .rst => "RST"
  | .clr => "CLR"
  | .li rd imm => "LI " ++ XReg.asm rd ++ ", " ++ toString imm
  | .lb rd ra => "LB " ++ XReg.asm rd ++ ", " ++ XReg.asm ra
  | .sb rd ra => "SB " ++ XReg.asm rd ++ ", " ++ XReg.asm ra
  | .csrr rd csr => "CSRR " ++ XReg.asm rd ++ ", " ++ csrAsm csr
  | .csrw csr ra => "CSRW " ++ csrAsm csr ++ ", " ++ XReg.asm ra
  | .gexp rd ra => "GEXP " ++ XReg.asm rd ++ ", " ++ XReg.asm ra
  | .glog rd ra => "GLOG " ++ XReg.asm rd ++ ", " ++ XReg.asm ra
  | .gfmul rd ra rb => "GFMUL " ++ XReg.asm rd ++ ", " ++ XReg.asm ra ++ ", " ++ XReg.asm rb
  | .gfadd rd ra rb => "GFADD " ++ XReg.asm rd ++ ", " ++ XReg.asm ra ++ ", " ++ XReg.asm rb
  | .pld rd ra rb => "PLD " ++ PReg.asm rd ++ ", " ++ XReg.asm ra ++ ", " ++ XReg.asm rb
  | .pst rd ra rb => "PST " ++ PReg.asm rd ++ ", " ++ XReg.asm ra ++ ", " ++ XReg.asm rb
  | .plen rd ra => "PLEN " ++ XReg.asm rd ++ ", " ++ PReg.asm ra
  | .pget rd ra rb => "PGET " ++ XReg.asm rd ++ ", " ++ PReg.asm ra ++ ", " ++ XReg.asm rb
  | .pmul rd ra rb => "PMUL " ++ PReg.asm rd ++ ", " ++ PReg.asm ra ++ ", " ++ PReg.asm rb
  | .pmod rd ra rb => "PMOD " ++ PReg.asm rd ++ ", " ++ PReg.asm ra ++ ", " ++ PReg.asm rb
  | .pshift rd ra rb => "PSHIFT " ++ PReg.asm rd ++ ", " ++ PReg.asm ra ++ ", " ++ XReg.asm rb
  | .pgen rd ra => "PGEN " ++ PReg.asm rd ++ ", " ++ XReg.asm ra
  | .rsgen => "RSGEN"
  | .ilv => "ILV"
  | .bchfmt rd ra rb => "BCHFMT " ++ XReg.asm rd ++ ", " ++ XReg.asm ra ++ ", " ++ XReg.asm rb
  | .bchver rd ra => "BCHVER " ++ XReg.asm rd ++ ", " ++ XReg.asm ra
  | .minit => "MINIT"
  | .mplace => "MPLACE"
  | .mrd rd ra rb => "MRD " ++ XReg.asm rd ++ ", " ++ XReg.asm ra ++ ", " ++ XReg.asm rb
  | .mmeta => "MMETA"
  | .mskbit rd ra rb k =>
    "MSKBIT " ++ XReg.asm rd ++ ", " ++ XReg.asm ra ++ ", " ++ XReg.asm rb ++ ", " ++ toString k
  | .mapply k => "MAPPLY " ++ toString k
  | .mscore rd sel => "MSCORE " ++ XReg.asm rd ++ ", " ++ toString sel
  | .mmask => "MMASK"
  | .encode => "ENCODE"

end Sys2Proof
end

