-- ==== Sys2Proof/WellFormed.lean ====
section
/-! DEFINITION. Which terms of `Instr` a command word can hold (spec/30_encoding.md R84, R88): the
register numbers are in range by their types, the immediates are checked here. -/

namespace Sys2Proof

/-- R84: `imm20` is signed, range -524288 to 524287. -/
def wfImm20 (imm : Int) : Bool := decide (-524288 ≤ imm ∧ imm ≤ 524287)

/-- R82, R84: `imm12` is an unsigned integer 0 to 4095; R88: whatever its value, it is legal. -/
def wfImm12 (imm : Nat) : Bool := decide (imm ≤ 4095)

/-- The command fits in a command word. -/
def WellFormed : Instr → Bool
  | .nop => true
  | .rst => true
  | .clr => true
  | .li _ imm => wfImm20 imm
  | .lb _ _ => true
  | .sb _ _ => true
  | .csrr _ csr => wfImm12 csr
  | .csrw csr _ => wfImm12 csr
  | .gexp _ _ => true
  | .glog _ _ => true
  | .gfmul _ _ _ => true
  | .gfadd _ _ _ => true
  | .pld _ _ _ => true
  | .pst _ _ _ => true
  | .plen _ _ => true
  | .pget _ _ _ => true
  | .pmul _ _ _ => true
  | .pmod _ _ _ => true
  | .pshift _ _ _ => true
  | .pgen _ _ => true
  | .rsgen => true
  | .ilv => true
  | .bchfmt _ _ _ => true
  | .bchver _ _ => true
  | .minit => true
  | .mplace => true
  | .mrd _ _ _ => true
  | .mmeta => true
  | .mskbit _ _ _ k => wfImm12 k
  | .mapply k => wfImm12 k
  | .mscore _ sel => wfImm12 sel
  | .mmask => true
  | .encode => true

end Sys2Proof
end

