-- ==== Sys2Proof/Decode.lean ====
section
/-! DEFINITION. The decoder and the encoder of command words, from spec/30_encoding.md R80 to R89 and
R93. The decoder is total on 32-bit words and rejects an illegal word by the check of R87 that it
fails first. -/

namespace Sys2Proof

/-! ### The fields of a word (R81 to R83) -/

/-- `w[31:24]` (R80). -/
def opField (w : Word) : BitVec 8 := w.extractLsb' 24 8

/-- `w[23:20]` (R82, R83). -/
def rdField (w : Word) : BitVec 4 := w.extractLsb' 20 4

/-- `w[19:16]` (R82). -/
def raField (w : Word) : BitVec 4 := w.extractLsb' 16 4

/-- `w[15:12]` (R82). -/
def rbField (w : Word) : BitVec 4 := w.extractLsb' 12 4

/-- `w[11:0]` (R82). -/
def imm12Field (w : Word) : BitVec 12 := w.extractLsb' 0 12

/-- `w[19:0]` (R83). -/
def imm20Field (w : Word) : BitVec 20 := w.extractLsb' 0 20

/-- `w[23:0]`, the must-be-zero bits of format N (R81). -/
def low24Field (w : Word) : BitVec 24 := w.extractLsb' 0 24

/-! ### The checks of R87 -/

/-- Why a word is illegal: the first check of R87 that it fails. -/
inductive Illegal where
  /-- (1) the opcode is not one of the 33 -/
  | unassignedOpcode
  /-- (2) format N with `w[23:0]` nonzero -/
  | nonzeroLowBits
  /-- (3), (4) the `rd` field: unused and nonzero, or a register number out of range -/
  | badRd
  /-- (4) the `ra` field -/
  | badRa
  /-- (4) the `rb` field -/
  | badRb
  /-- (5) `imm12` unused and nonzero -/
  | nonzeroImm
  deriving DecidableEq, Repr

/-- A scalar field: 0 to 7 name `x0` to `x7`, above is illegal (R85). -/
def xField (f : BitVec 4) (why : Illegal) : Except Illegal XReg :=
  if h : f.toNat < 8 then .ok ⟨f.toNat, h⟩ else .error why

/-- A polynomial field: 0 to 3 name `p0` to `p3`, above is illegal (R85). -/
def pField (f : BitVec 4) (why : Illegal) : Except Illegal PReg :=
  if h : f.toNat < 4 then .ok ⟨f.toNat, h⟩ else .error why

/-- An unused register field must be 0 (R85). -/
def noField (f : BitVec 4) (why : Illegal) : Except Illegal Unit :=
  if f = 0#4 then .ok () else .error why

/-- An unused `imm12` must be 0 (R86). -/
def noImm (w : Word) : Except Illegal Unit :=
  if imm12Field w = 0#12 then .ok () else .error .nonzeroImm

def xRd (w : Word) : Except Illegal XReg := xField (rdField w) .badRd
def xRa (w : Word) : Except Illegal XReg := xField (raField w) .badRa
def xRb (w : Word) : Except Illegal XReg := xField (rbField w) .badRb
def pRd (w : Word) : Except Illegal PReg := pField (rdField w) .badRd
def pRa (w : Word) : Except Illegal PReg := pField (raField w) .badRa
def pRb (w : Word) : Except Illegal PReg := pField (rbField w) .badRb
def noRd (w : Word) : Except Illegal Unit := noField (rdField w) .badRd
def noRa (w : Word) : Except Illegal Unit := noField (raField w) .badRa
def noRb (w : Word) : Except Illegal Unit := noField (rbField w) .badRb

/-- The number in a used `imm12` (R84). -/
def imm12 (w : Word) : Nat := (imm12Field w).toNat

/-! ### The formats, by the kinds of their fields (R86); the checks stand in R87's order -/

/-- Format N (R81). -/
def fmtN (i : Instr) (w : Word) : Except Illegal Instr :=
  if low24Field w = 0#24 then .ok i else .error .nonzeroLowBits

/-- Format I (R83): `imm20` is sign-extended (R84). -/
def fmtI (mk : XReg → Int → Instr) (w : Word) : Except Illegal Instr := do
  let rd ← xRd w
  .ok (mk rd (imm20Field w).toInt)

/-- Format R, `rd` and `ra` scalar. -/
def fmtXX (mk : XReg → XReg → Instr) (w : Word) : Except Illegal Instr := do
  let rd ← xRd w
  let ra ← xRa w
  noRb w
  noImm w
  .ok (mk rd ra)

/-- Format R, `rd`, `ra` and `rb` scalar. -/
def fmtXXX (mk : XReg → XReg → XReg → Instr) (w : Word) : Except Illegal Instr := do
  let rd ← xRd w
  let ra ← xRa w
  let rb ← xRb w
  noImm w
  .ok (mk rd ra rb)

/-- Format R, `rd`, `ra` and `rb` scalar, `imm12` used. -/
def fmtXXXI (mk : XReg → XReg → XReg → Nat → Instr) (w : Word) : Except Illegal Instr := do
  let rd ← xRd w
  let ra ← xRa w
  let rb ← xRb w
  .ok (mk rd ra rb (imm12 w))

/-- Format R, `rd` scalar, `imm12` used. -/
def fmtXI (mk : XReg → Nat → Instr) (w : Word) : Except Illegal Instr := do
  let rd ← xRd w
  noRa w
  noRb w
  .ok (mk rd (imm12 w))

/-- Format R, `ra` scalar, `imm12` used. -/
def fmtAI (mk : Nat → XReg → Instr) (w : Word) : Except Illegal Instr := do
  noRd w
  let ra ← xRa w
  noRb w
  .ok (mk (imm12 w) ra)

/-- Format R, only `imm12` used. -/
def fmtImm (mk : Nat → Instr) (w : Word) : Except Illegal Instr := do
  noRd w
  noRa w
  noRb w
  .ok (mk (imm12 w))

/-- Format R, `rd` polynomial, `ra` and `rb` scalar. -/
def fmtPXX (mk : PReg → XReg → XReg → Instr) (w : Word) : Except Illegal Instr := do
  let rd ← pRd w
  let ra ← xRa w
  let rb ← xRb w
  noImm w
  .ok (mk rd ra rb)

/-- Format R, `rd` scalar, `ra` polynomial. -/
def fmtXP (mk : XReg → PReg → Instr) (w : Word) : Except Illegal Instr := do
  let rd ← xRd w
  let ra ← pRa w
  noRb w
  noImm w
  .ok (mk rd ra)

/-- Format R, `rd` scalar, `ra` polynomial, `rb` scalar. -/
def fmtXPX (mk : XReg → PReg → XReg → Instr) (w : Word) : Except Illegal Instr := do
  let rd ← xRd w
  let ra ← pRa w
  let rb ← xRb w
  noImm w
  .ok (mk rd ra rb)

/-- Format R, `rd`, `ra` and `rb` polynomial. -/
def fmtPPP (mk : PReg → PReg → PReg → Instr) (w : Word) : Except Illegal Instr := do
  let rd ← pRd w
  let ra ← pRa w
  let rb ← pRb w
  noImm w
  .ok (mk rd ra rb)

/-- Format R, `rd` and `ra` polynomial, `rb` scalar. -/
def fmtPPX (mk : PReg → PReg → XReg → Instr) (w : Word) : Except Illegal Instr := do
  let rd ← pRd w
  let ra ← pRa w
  let rb ← xRb w
  noImm w
  .ok (mk rd ra rb)

/-- Format R, `rd` polynomial, `ra` scalar. -/
def fmtPX (mk : PReg → XReg → Instr) (w : Word) : Except Illegal Instr := do
  let rd ← pRd w
  let ra ← xRa w
  noRb w
  noImm w
  .ok (mk rd ra)

/-! ### The opcode map (R86) -/

/-- The decoder: the opcode alone selects the format (R80). -/
def decode (w : Word) : Except Illegal Instr :=
  match (opField w).toNat with
  | 0x00 => fmtN .nop w
  | 0x01 => fmtN .rst w
  | 0x02 => fmtN .clr w
  | 0x08 => fmtI .li w
  | 0x09 => fmtXX .lb w
  | 0x0A => fmtXX .sb w
  | 0x0B => fmtXI .csrr w
  | 0x0C => fmtAI .csrw w
  | 0x10 => fmtXX .gexp w
  | 0x11 => fmtXX .glog w
  | 0x12 => fmtXXX .gfmul w
  | 0x13 => fmtXXX .gfadd w
  | 0x20 => fmtPXX .pld w
  | 0x21 => fmtPXX .pst w
  | 0x22 => fmtXP .plen w
  | 0x23 => fmtXPX .pget w
  | 0x24 => fmtPPP .pmul w
  | 0x25 => fmtPPP .pmod w
  | 0x26 => fmtPPX .pshift w
  | 0x27 => fmtPX .pgen w
  | 0x30 => fmtN .rsgen w
  | 0x31 => fmtN .ilv w
  | 0x38 => fmtXXX .bchfmt w
  | 0x39 => fmtXX .bchver w
  | 0x40 => fmtN .minit w
  | 0x41 => fmtN .mplace w
  | 0x42 => fmtXXX .mrd w
  | 0x43 => fmtN .mmeta w
  | 0x48 => fmtXXXI .mskbit w
  | 0x49 => fmtImm .mapply w
  | 0x4A => fmtXI .mscore w
  | 0x4B => fmtN .mmask w
  | 0x60 => fmtN .encode w
  | _ => .error .unassignedOpcode

/-- The decoder on a row of spec/opcode_table.json: `w`'s lowest `nbits` bits, the bits above them 0.
A command is one 32-bit word given to the command port as one integer (R64, R80), so there is no byte
order to lay it out in. -/
def decodeTableWord (nbits w : Nat) : Option Instr :=
  (decode (BitVec.ofNat 32 (w % 2 ^ nbits))).toOption

/-! ### The encoder -/

/-- A word of format N (R81). -/
def packN (op : BitVec 8) : Word := op ++ 0#24

/-- A word of format R (R82). -/
def packR (op : BitVec 8) (rd ra rb : BitVec 4) (imm : BitVec 12) : Word :=
  op ++ rd ++ ra ++ rb ++ imm

/-- A word of format I (R83). -/
def packI (op : BitVec 8) (rd : BitVec 4) (imm : BitVec 20) : Word := op ++ rd ++ imm

/-- A scalar register's field (R85). -/
def xBits (r : XReg) : BitVec 4 := BitVec.ofNat 4 r.val

/-- A polynomial register's field (R85). -/
def pBits (r : PReg) : BitVec 4 := BitVec.ofNat 4 r.val

/-- An `imm12` field (R84). -/
def immBits (n : Nat) : BitVec 12 := BitVec.ofNat 12 n

/-- The command word of a well-formed command (R86). -/
def encode : Instr → Word
  | .nop => packN 0x00
  | .rst => packN 0x01
  | .clr => packN 0x02
  | .li rd imm => packI 0x08 (xBits rd) (BitVec.ofInt 20 imm)
  | .lb rd ra => packR 0x09 (xBits rd) (xBits ra) 0 0
  | .sb rd ra => packR 0x0A (xBits rd) (xBits ra) 0 0
  | .csrr rd csr => packR 0x0B (xBits rd) 0 0 (immBits csr)
  | .csrw csr ra => packR 0x0C 0 (xBits ra) 0 (immBits csr)
  | .gexp rd ra => packR 0x10 (xBits rd) (xBits ra) 0 0
  | .glog rd ra => packR 0x11 (xBits rd) (xBits ra) 0 0
  | .gfmul rd ra rb => packR 0x12 (xBits rd) (xBits ra) (xBits rb) 0
  | .gfadd rd ra rb => packR 0x13 (xBits rd) (xBits ra) (xBits rb) 0
  | .pld rd ra rb => packR 0x20 (pBits rd) (xBits ra) (xBits rb) 0
  | .pst rd ra rb => packR 0x21 (pBits rd) (xBits ra) (xBits rb) 0
  | .plen rd ra => packR 0x22 (xBits rd) (pBits ra) 0 0
  | .pget rd ra rb => packR 0x23 (xBits rd) (pBits ra) (xBits rb) 0
  | .pmul rd ra rb => packR 0x24 (pBits rd) (pBits ra) (pBits rb) 0
  | .pmod rd ra rb => packR 0x25 (pBits rd) (pBits ra) (pBits rb) 0
  | .pshift rd ra rb => packR 0x26 (pBits rd) (pBits ra) (xBits rb) 0
  | .pgen rd ra => packR 0x27 (pBits rd) (xBits ra) 0 0
  | .rsgen => packN 0x30
  | .ilv => packN 0x31
  | .bchfmt rd ra rb => packR 0x38 (xBits rd) (xBits ra) (xBits rb) 0
  | .bchver rd ra => packR 0x39 (xBits rd) (xBits ra) 0 0
  | .minit => packN 0x40
  | .mplace => packN 0x41
  | .mrd rd ra rb => packR 0x42 (xBits rd) (xBits ra) (xBits rb) 0
  | .mmeta => packN 0x43
  | .mskbit rd ra rb k => packR 0x48 (xBits rd) (xBits ra) (xBits rb) (immBits k)
  | .mapply k => packR 0x49 0 0 0 (immBits k)
  | .mscore rd sel => packR 0x4A (xBits rd) 0 0 (immBits sel)
  | .mmask => packN 0x4B
  | .encode => packN 0x60

/-! ### The opcode table as one test per command (R93) -/

/-- `match` of a command's row of spec/opcode_table.json (R93). -/
def rowMatch : Instr → Word
  | .nop => 0x00000000
  | .rst => 0x01000000
  | .clr => 0x02000000
  | .li _ _ => 0x08000000
  | .lb _ _ => 0x09000000
  | .sb _ _ => 0x0A000000
  | .csrr _ _ => 0x0B000000
  | .csrw _ _ => 0x0C000000
  | .gexp _ _ => 0x10000000
  | .glog _ _ => 0x11000000
  | .gfmul _ _ _ => 0x12000000
  | .gfadd _ _ _ => 0x13000000
  | .pld _ _ _ => 0x20000000
  | .pst _ _ _ => 0x21000000
  | .plen _ _ => 0x22000000
  | .pget _ _ _ => 0x23000000
  | .pmul _ _ _ => 0x24000000
  | .pmod _ _ _ => 0x25000000
  | .pshift _ _ _ => 0x26000000
  | .pgen _ _ => 0x27000000
  | .rsgen => 0x30000000
  | .ilv => 0x31000000
  | .bchfmt _ _ _ => 0x38000000
  | .bchver _ _ => 0x39000000
  | .minit => 0x40000000
  | .mplace => 0x41000000
  | .mrd _ _ _ => 0x42000000
  | .mmeta => 0x43000000
  | .mskbit _ _ _ _ => 0x48000000
  | .mapply _ => 0x49000000
  | .mscore _ _ => 0x4A000000
  | .mmask => 0x4B000000
  | .encode => 0x60000000

/-- `mask` of a command's row of spec/opcode_table.json (R93). -/
def rowMask : Instr → Word
  | .nop => 0xFFFFFFFF
  | .rst => 0xFFFFFFFF
  | .clr => 0xFFFFFFFF
  | .li _ _ => 0xFF800000
  | .lb _ _ => 0xFF88FFFF
  | .sb _ _ => 0xFF88FFFF
  | .csrr _ _ => 0xFF8FF000
  | .csrw _ _ => 0xFFF8F000
  | .gexp _ _ => 0xFF88FFFF
  | .glog _ _ => 0xFF88FFFF
  | .gfmul _ _ _ => 0xFF888FFF
  | .gfadd _ _ _ => 0xFF888FFF
  | .pld _ _ _ => 0xFFC88FFF
  | .pst _ _ _ => 0xFFC88FFF
  | .plen _ _ => 0xFF8CFFFF
  | .pget _ _ _ => 0xFF8C8FFF
  | .pmul _ _ _ => 0xFFCCCFFF
  | .pmod _ _ _ => 0xFFCCCFFF
  | .pshift _ _ _ => 0xFFCC8FFF
  | .pgen _ _ => 0xFFC8FFFF
  | .rsgen => 0xFFFFFFFF
  | .ilv => 0xFFFFFFFF
  | .bchfmt _ _ _ => 0xFF888FFF
  | .bchver _ _ => 0xFF88FFFF
  | .minit => 0xFFFFFFFF
  | .mplace => 0xFFFFFFFF
  | .mrd _ _ _ => 0xFF888FFF
  | .mmeta => 0xFFFFFFFF
  | .mskbit _ _ _ _ => 0xFF888000
  | .mapply _ => 0xFFFFF000
  | .mscore _ _ => 0xFF8FF000
  | .mmask => 0xFFFFFFFF
  | .encode => 0xFFFFFFFF

end Sys2Proof
end

