-- ==== Sys2Proof/Config.lean ====
section
/-! DEFINITION. The sizes that the spec fixes for this hardware (spec/00_scope.md R6) and the kinds
of its open parameters. The parameter tables themselves (`ALIGN_POS`, `FMT_CELLS`, `VER_CELLS`,
`DARK_CELL`, `MASKFN`, the value of `PEN_C_MODE`) stand in Machine/Params.lean. The spec leaves no
value of this block free (93_implementation_defined.md: no behaviour is 'any value'), so there is no
opaque constant here. -/

namespace Sys2Proof.Config

/-- `MSIZE`: bytes of codeword memory (R6, R61). -/
abbrev msize : Nat := 8192

/-- `PMAX`: most coefficients a polynomial register holds (R6, R24). -/
abbrev pmax : Nat := 256

/-- `VMIN`: the least type number (R6). -/
abbrev vmin : Nat := 1

/-- `VMAX`: the greatest type number (R6). -/
abbrev vmax : Nat := 40

/-- The number of CSRs: they are numbered 0 to 13 (R29). -/
abbrev ncsr : Nat := 14

/-- The readings of penalty rule (c) that the parameter `PEN_C_MODE` names; the spec gives one
(R187, 92_eei_decisions.md D29). -/
inductive PenCMode where
  /-- two 11-cell windows lying wholly inside the grid, no margin outside it -/
  | window11
  deriving DecidableEq, Repr

end Sys2Proof.Config
end

