-- ==== Sys2Proof/Machine/State.lean ====
section
/-! DEFINITION. The state of one QRCORE instance as plain data (spec/10_state.md R20 to R49) and its
value after reset (R48). The field tables `EXP` and `LOG` of R20 are constants that nothing writes
(R23), so they are definitions (Machine/Gf.lean), not fields; `NSIDE` is a function of `mat` (R44). -/

namespace Sys2Proof.Machine

/-- A polynomial: GF(256) coefficients, highest degree first (R24, R140). -/
abbrev Poly := List Byte

/-- The codeword memory `M`: the written cells as (address, byte) pairs, addresses strictly rising.
An address not listed is *unwritten*, the spec's own state of a cell that nothing has written since
reset (R46, R61, R296). -/
abbrev Memory := List Host.Cell

/-- The values of `ERR` (R31, R266). -/
inductive ErrKind where
  /-- 0: no fault latched -/
  | noError
  /-- 1: never latched by the block -/
  | invalidCharacter
  /-- 2: never latched by the block -/
  | dataTooLong
  /-- 3: every fault of the block -/
  | invalidArgument
  deriving DecidableEq, Repr

/-- The numbers of `ERR` (R266). -/
def ErrKind.code : ErrKind → Nat
  | .noError => 0
  | .invalidCharacter => 1
  | .dataTooLong => 2
  | .invalidArgument => 3

/-- The sub-causes of `InvalidArgument` (R267). -/
inductive SubCause where
  | illegalCmd
  | unwritten
  | glogDomain
  | elemRange
  | addrRange
  | range
  | badCsr
  | badConfig
  | badBlocks
  | badStage
  | capacity
  deriving DecidableEq, Repr

/-- The numbers of `INFO` (R267). -/
def SubCause.code : SubCause → Nat
  | .illegalCmd => 1
  | .unwritten => 2
  | .glogDomain => 3
  | .elemRange => 4
  | .addrRange => 5
  | .range => 6
  | .badCsr => 7
  | .badConfig => 8
  | .badBlocks => 9
  | .badStage => 10
  | .capacity => 11

/-- The values of `STAGE` (R32). -/
inductive Stage where
  | idle
  | ecDone
  | ilvDone
  | layout
  | placed
  | masked
  | done
  deriving DecidableEq, Repr

/-- The numbers of `STAGE` (R32); 7 never occurs. -/
def Stage.code : Stage → Nat
  | .idle => 0
  | .ecDone => 1
  | .ilvDone => 2
  | .layout => 3
  | .placed => 4
  | .masked => 5
  | .done => 6

/-- The colour of a module: the tri-state of R45. -/
inductive CellVal where
  | light
  | dark
  | unset
  deriving DecidableEq, Repr

/-- The numbers of `val` where a register shows them (R45, R243). -/
def CellVal.code : CellVal → Nat
  | .light => 0
  | .dark => 1
  | .unset => 2

/-- A cell of the module matrix: its colour and the flag `fn`, true on function cells (R45, R226). -/
structure Cell where
  val : CellVal
  fn : Bool
  deriving DecidableEq, Repr

/-- The module matrix (R45): the type number `V` it was allocated for, and its rows of cells from the
top, each from the left (R225). The side `N` is `17 + 4*V` (`Mat.side`), not stored a second time. -/
structure Mat where
  v : Nat
  cells : List (List Cell)
  deriving DecidableEq, Repr

/-- `N`, the side of the matrix (R45, R225). -/
def Mat.side (m : Mat) : Nat := 17 + 4 * m.v

/-- What the host can do to the block (R72, R295): present a command word, write one byte of `M`, or
reset the block. The two read ports change nothing, so they are functions of the state
(Machine/HostPorts.lean) and no events. -/
inductive HostEvent where
  /-- the command port presents `w` -/
  | command (w : Word)
  /-- the memory write port: `M[a] <- b`, `a` in 0 to 8191 -/
  | memWrite (a : BitVec 13) (b : Byte)
  /-- hardware reset (R295) -/
  | hardReset
  deriving DecidableEq, Repr

/-- The state of the block (R20), and the host's actions that wait for it (`inbox`). -/
structure State where
  /-- `x[0..7]`: `none` is *unwritten*, else a two's-complement 32-bit integer (R21, R22) -/
  x : Vector (Option Word) 8
  /-- `p[0..3]`: `none` is *unwritten* (R24, R25) -/
  p : Vector (Option Poly) 4
  /-- `M` (R46) -/
  mem : Memory
  /-- `ERR` (R31) -/
  err : ErrKind
  /-- `INFO`: `none` is 0 (R31) -/
  info : Option SubCause
  /-- `ECMD` (R33) -/
  ecmd : Word
  /-- `STAGE` (R32) -/
  stage : Stage
  /-- `CFG` (R34) -/
  cfg : BitVec 12
  /-- `DADDR` (R38) -/
  daddr : BitVec 13
  /-- `DLEN` (R38) -/
  dlen : BitVec 14
  /-- `BADDR` (R39) -/
  baddr : BitVec 13
  /-- `NBLK` (R39) -/
  nblk : BitVec 8
  /-- `EADDR` (R40) -/
  eaddr : BitVec 13
  /-- `FADDR` (R40) -/
  faddr : BitVec 13
  /-- `FLEN` (R41) -/
  flen : BitVec 14
  /-- `ELEN` (R41) -/
  elen : BitVec 14
  /-- `RESMASK` (R42) -/
  resmask : BitVec 4
  /-- `SCORE` (R43) -/
  score : BitVec 31
  /-- `MAT`: `none` is *absent* (R45) -/
  mat : Option Mat
  /-- The model's own field, not the spec's: the host's next actions, first to come first. A run is a
  list of command words and host port actions (R305); a step takes the first of them.
  DESIGN CHOICE (log entry 2), safe. -/
  inbox : List HostEvent
  deriving DecidableEq, Repr

/-- The state right after reset (R48, R296): the value the spec gives for every piece of state; the
model's own `inbox` is empty (DESIGN CHOICE, log entry 2). -/
def State.reset : State where
  x := Vector.replicate 8 none
  p := Vector.replicate 4 none
  mem := []
  err := .noError
  info := none
  ecmd := 0
  stage := .idle
  cfg := 0
  daddr := 0
  dlen := 0
  baddr := 0
  nblk := 0
  eaddr := 0
  faddr := 0
  flen := 0
  elen := 0
  resmask := 0
  score := 0
  mat := none
  inbox := []

/-- The ways the model itself stops. A fault of the SPEC is none of these: it is a next state with the
fault latched (R270). -/
inductive Fault where
  /-- A command that needs the matrix runs at a `STAGE` where R45 says `MAT` is present, in a state
  whose `mat` is absent. Raised by MPLACE, MAPPLY, MSCORE, MMASK, MRD, MMETA. The spec gives such a
  state no behaviour and no run from reset reaches one (log entry 10). Safe. -/
  | matrixAbsent
  deriving DecidableEq, Repr

/-- An instruction to which the model gives no meaning. -/
inductive Refusal where
  /-- Raised by an arm of `exec` for an instruction not modelled yet, by its mnemonic; no arm does.
  Safe. -/
  | notModelled (mnemonic : String)
  deriving DecidableEq, Repr

end Sys2Proof.Machine
end

