-- ==== Sys2Proof/Machine/Ops.lean ====
section
/-! DEFINITION. The named operations over the state that every rule of the spec is written in
(spec/00_scope.md R11): reading and writing registers, `M` and matrix cells, `raise`, and the fault
transition (spec/60_exceptions.md R270) with the way out of it (R272). -/

namespace Sys2Proof.Machine

/-! ### `raise` (R11) and the fault transition (R270) -/

/-- Why a rule stops before its end. -/
inductive Stop where
  /-- `raise InvalidArgument(SUB)` -/
  | raised (c : SubCause)
  /-- the model stops (a state the spec gives no behaviour) -/
  | stuck (f : Fault)
  deriving DecidableEq, Repr

/-- A rule of the spec, or a part of one: a result, or the first check that failed (R12, R273). -/
abbrev Act (α : Type) := Except Stop α

/-- `raise InvalidArgument(c)`. -/
def raise {α : Type} (c : SubCause) : Act α := .error (.raised c)

/-- `if bad: raise InvalidArgument(c)`. -/
def raiseIf (bad : Prop) [Decidable bad] (c : SubCause) : Act Unit :=
  if bad then raise c else .ok ()

/-- Fault entry (R270): exactly three changes. The block only ever latches `InvalidArgument` (R31). -/
def State.latch (s : State) (c : SubCause) (w : Word) : State :=
  { s with err := .invalidArgument, info := some c, ecmd := w }

/-- The way out of the faulted state, and the effect of `RST` and of hardware reset: the full reset
state (R272, R295). The host's waiting actions are the host's and stay (log entry 5). -/
def State.afterReset (s : State) : State := { State.reset with inbox := s.inbox }

/-- The transition of the command word `w` whose rule gave `r` (R12, R92): the state after the rule,
or the fault transition and nothing else. -/
def finish (w : Word) (s : State) (r : Act State) : Host.Outcome State Fault Refusal :=
  match r with
  | .ok t => .next t
  | .error (.raised c) => .next (s.latch c w)
  | .error (.stuck f) => .fault f

/-! ### Scalar and polynomial registers (R21 to R25) -/

/-- `x[r]` as a signed integer; an unwritten register raises `UNWRITTEN` (R11, R22). -/
def State.readX (s : State) (r : XReg) : Act Int :=
  match s.x[r] with
  | none => raise .unwritten
  | some w => .ok w.toInt

/-- `x[r] <- v` (R11); `v` is within the signed 32-bit range wherever the spec writes it. -/
def State.setX (s : State) (r : XReg) (v : Int) : State :=
  { s with x := s.x.set r (some (BitVec.ofInt 32 v)) }

/-- `p[r]`; an unwritten register raises `UNWRITTEN` (R11, R25). -/
def State.readP (s : State) (r : PReg) : Act Poly :=
  match s.p[r] with
  | none => raise .unwritten
  | some q => .ok q

/-- `p[r] <- q` (R11): the whole value is replaced (R24). -/
def State.setP (s : State) (r : PReg) (q : Poly) : State := { s with p := s.p.set r (some q) }

/-! ### Codeword memory (R61 to R63) -/

/-- `M[a]`: the byte, or `none` where nothing has been written. -/
def Memory.byteAt : Memory → Nat → Option Byte
  | [], _ => none
  | (k, b) :: m, a => if a = k then some b else Memory.byteAt m a

/-- `M[a] <- b`, keeping the addresses strictly rising. -/
def Memory.put : Memory → Nat → Byte → Memory
  | [], a, b => [(a, b)]
  | (k, c) :: m, a, b =>
    if a < k then (a, b) :: (k, c) :: m
    else if a = k then (a, b) :: m
    else (k, c) :: Memory.put m a b

/-- `M[a + i] <- s[i]` for every index `i` of `s`. -/
def Memory.putBytes : Memory → Nat → List Byte → Memory
  | m, _, [] => m
  | m, a, b :: s => Memory.putBytes (Memory.put m a b) (a + 1) s

/-- The bytes `M[a], ..., M[a+n-1]`, or `none` if one of them is unwritten. -/
def Memory.bytes (m : Memory) : Nat → Nat → Option (List Byte)
  | _, 0 => some []
  | a, n + 1 =>
    match Memory.byteAt m a, Memory.bytes m (a + 1) n with
    | some b, some s => some (b :: s)
    | _, _ => none

/-- The canonical form of `M`: addresses strictly rising and below `MSIZE`. An unlisted address is
unwritten, so no entry says what an unlisted one does. -/
def Memory.wf : Memory → Bool
  | [] => true
  | (k, _) :: m => decide (k < Config.msize) && m.all (fun e => decide (k < e.1)) && Memory.wf m

/-- An access of `n` bytes at `a` lies outside `M` (R62, R63). -/
abbrev outsideM (a : Int) (n : Nat) : Prop := a < 0 ∨ a + (n : Int) > (Config.msize : Int)

/-- `MemRead(addr, n)` (R62): `ADDR_RANGE` before `UNWRITTEN`. -/
def State.memRead (s : State) (addr : Int) (n : Nat) : Act (List Byte) := do
  raiseIf (outsideM addr n) .addrRange
  match Memory.bytes s.mem addr.toNat n with
  | some bs => .ok bs
  | none => raise .unwritten

/-- `MemWrite(addr, n, s)` with `n = len(s)` (R63). -/
def State.memWrite (s : State) (addr : Int) (bs : List Byte) : Act State := do
  raiseIf (outsideM addr bs.length) .addrRange
  .ok { s with mem := Memory.putBytes s.mem addr.toNat bs }

/-! ### The module matrix (R45, R225) -/

/-- The cell a coordinate outside the stored rows reads as; no rule of the spec reads one (log entry
16). -/
def Cell.outside : Cell := ⟨.unset, true⟩

/-- The cell at `(r, c)`: row `r` from the top, column `c` from the left (R225). -/
def Mat.cell (m : Mat) (r c : Nat) : Cell := (m.cells.getD r []).getD c Cell.outside

/-- The matrix for type number `v` whose cell at `(r, c)` is `f r c`, for `r, c` in `0..N-1`. -/
def Mat.build (v : Nat) (f : Nat → Nat → Cell) : Mat :=
  { v := v
    cells := (List.range (17 + 4 * v)).map fun r => (List.range (17 + 4 * v)).map fun c => f r c }

/-- `val[r][c] <- x`; `fn` stays. -/
def Mat.setVal (m : Mat) (r c : Nat) (x : CellVal) : Mat :=
  { m with cells := m.cells.modify r fun row => row.modify c fun e => { e with val := x } }

/-- `MAT` of a rule that its `STAGE` check lets run only where R45 says it is present. -/
def State.readMat (s : State) : Act Mat :=
  match s.mat with
  | none => .error (.stuck .matrixAbsent)
  | some m => .ok m

/-- `MAT <- m`. -/
def State.setMat (s : State) (m : Mat) : State := { s with mat := some m }

/-- `STAGE <- g`. -/
def State.setStage (s : State) (g : Stage) : State := { s with stage := g }

end Sys2Proof.Machine
end

