-- ==== Sys2Proof/Machine/Flags.lean ====
section
/-! DEFINITION. The control and status registers (spec/10_state.md R29 to R44). QRCORE has no condition
codes and no command has a flag side effect (R27); the status it has is the `STATUS` register, composed
here, and the fields of `CFG`. -/

namespace Sys2Proof.Machine

/-- `CFG.TYPENUM`, bits 5:0 (R34, R35). -/
def State.typenum (s : State) : Nat := (s.cfg.extractLsb' 0 6).toNat

/-- `CFG.ECL`, bits 7:6 (R34, R36). -/
def State.ecl (s : State) : Nat := (s.cfg.extractLsb' 6 2).toNat

/-- `CFG.MASKSEL`, bits 11:8 (R34, R37). -/
def State.masksel (s : State) : Nat := (s.cfg.extractLsb' 8 4).toNat

/-- `RESMASK[2:0]`, the pattern applied (R42). -/
def State.resPattern (s : State) : Nat := (s.resmask.extractLsb' 0 3).toNat

/-- `INFO` as a number (R31). -/
def State.infoCode (s : State) : Nat :=
  match s.info with
  | none => 0
  | some c => c.code

/-- `STATUS` (R30): `ERR` in bits 1:0, `STAGE` in bits 6:4, `INFO` in bits 15:8, the other bits 0. -/
def State.status (s : State) : Nat := s.err.code + 16 * s.stage.code + 256 * s.infoCode

/-- `NSIDE` (R44): the side of the matrix, 0 when it is absent. -/
def State.nside (s : State) : Nat :=
  match s.mat with
  | none => 0
  | some m => m.side

/-- The value of CSR `n` (R29 to R44); there is none above 13. -/
def State.csr (s : State) (n : Nat) : Option Nat :=
  match n with
  | 0 => some s.status
  | 1 => some s.ecmd.toNat
  | 2 => some s.cfg.toNat
  | 3 => some s.daddr.toNat
  | 4 => some s.dlen.toNat
  | 5 => some s.baddr.toNat
  | 6 => some s.nblk.toNat
  | 7 => some s.eaddr.toNat
  | 8 => some s.faddr.toNat
  | 9 => some s.flen.toNat
  | 10 => some s.elen.toNat
  | 11 => some s.resmask.toNat
  | 12 => some s.score.toNat
  | 13 => some s.nside
  | _ => none

/-- `v` may be written to `CFG` (R34, R35, R37, R108). -/
def cfgLegal (v : Int) : Bool :=
  decide (0 ≤ v ∧ v ≤ 0xFFF) &&
    (let w := BitVec.ofInt 12 v
     decide ((w.extractLsb' 0 6).toNat ≤ 40 ∧ (w.extractLsb' 8 4).toNat ≤ 8))

/-- `v` is within `0..limit`. -/
def within (v : Int) (limit : Int) : Bool := decide (0 ≤ v ∧ v ≤ limit)

/-- What `CSRW` does to CSR `n` with the value `v` (R108): `none` where it raises `BAD_CSR` (an unknown
number, a read-only register, an illegal value). -/
def State.writeCsr (s : State) (n : Nat) (v : Int) : Option State :=
  match n with
  | 2 => if cfgLegal v then some { s with cfg := BitVec.ofInt 12 v } else none
  | 3 => if within v 8191 then some { s with daddr := BitVec.ofInt 13 v } else none
  | 4 => if within v 8192 then some { s with dlen := BitVec.ofInt 14 v } else none
  | 5 => if within v 8191 then some { s with baddr := BitVec.ofInt 13 v } else none
  | 6 => if within v 255 then some { s with nblk := BitVec.ofInt 8 v } else none
  | 7 => if within v 8191 then some { s with eaddr := BitVec.ofInt 13 v } else none
  | 8 => if within v 8191 then some { s with faddr := BitVec.ofInt 13 v } else none
  | _ => none

end Sys2Proof.Machine
end

