-- ==== Sys2Proof/Machine/Operands.lean ====
section
/-! DEFINITION. The operand forms of the commands: which registers a rule reads and in which order
(spec/40_system.md R100, spec/60_exceptions.md R273), and the ranges that make an operand a field
element, a level code, a coordinate (spec/41_gf_tables.md R130, spec/43_bch_metadata.md R172). -/

namespace Sys2Proof.Machine

/-- `a = x[ra]; b = x[rb]`: `ra` is read first (R273). -/
def State.readXX (s : State) (ra rb : XReg) : Act (Int × Int) := do
  let a ← s.readX ra
  let b ← s.readX rb
  .ok (a, b)

/-- Two field elements (R130, R131): both registers are read before either range is checked. -/
def State.readElems (s : State) (ra rb : XReg) : Act (Byte × Byte) := do
  let (a, b) ← s.readXX ra rb
  raiseIf (a < 0 ∨ a > 255 ∨ b < 0 ∨ b > 255) .elemRange
  .ok (BitVec.ofInt 8 a, BitVec.ofInt 8 b)

/-- `a = p[ra]; b = p[rb]`: `ra` is read first (R151, R152). -/
def State.readPP (s : State) (ra rb : PReg) : Act (Poly × Poly) := do
  let a ← s.readP ra
  let b ← s.readP rb
  .ok (a, b)

/-- `if STAGE != g: raise InvalidArgument(BAD_STAGE)` (R256). -/
def State.atStage (s : State) (g : Stage) : Act Unit := raiseIf (s.stage ≠ g) .badStage

/-- `if STAGE < g: raise InvalidArgument(BAD_STAGE)` (R193, R243). -/
def State.fromStage (s : State) (g : Stage) : Act Unit := raiseIf (s.stage.code < g.code) .badStage

end Sys2Proof.Machine
end

