-- ==== Sys2Proof/Machine/Bch.lean ====
section
/-! DEFINITION. The BCH metadata encoder and the commands `BCHFMT`, `BCHVER` (spec/43_bch_metadata.md). -/

namespace Sys2Proof.Machine

/-- `bitlen(v)` (R8). -/
def bitlen (v : Nat) : Nat := if v = 0 then 0 else Nat.log2 v + 1

/-- The loop of R165; each pass clears the top bit of `d`, so `bitlen(d)` passes are enough. -/
def bchLoop : Nat → Nat → Nat → Nat
  | 0, d, _ => d
  | fuel + 1, d, g =>
    if bitlen g ≤ bitlen d then bchLoop fuel (d ^^^ (g <<< (bitlen d - bitlen g))) g else d

/-- `bchreduce(d, g)` (R165). -/
def bchreduce (d g : Nat) : Nat := bchLoop (bitlen d) d g

/-- `bchfmt(ecl, k)` (R166), with `G15 = 0x537` and the mask `0x5412`. -/
def bchfmt (ecl k : Nat) : Nat :=
  let data := (ecl <<< 3) ||| k
  let synd := bchreduce (data <<< 10) 0x537
  ((data <<< 10) ||| synd) ^^^ 0x5412

/-- `bchver(v)` (R168), with `G18 = 0x1F25`. -/
def bchver (v : Nat) : Nat := (v <<< 12) ||| bchreduce (v <<< 12) 0x1F25

def bchfmtRule (rd ra rb : XReg) (s : State) : Act State := do
  let (e, k) ← s.readXX ra rb
  raiseIf (e < 0 ∨ e > 3 ∨ k < 0 ∨ k > 7) .badConfig
  .ok (s.setX rd (bchfmt e.toNat k.toNat))

def bchverRule (rd ra : XReg) (s : State) : Act State := do
  let v ← s.readX ra
  raiseIf (v < 7 ∨ v > 40) .badConfig
  .ok (s.setX rd (bchver v.toNat))

/-- `BCHFMT xd, xa, xb` (R172). -/
def execBchfmt (rd ra rb : XReg) (s : State) : Host.Outcome State Fault Refusal :=
  finish (encode (.bchfmt rd ra rb)) s (bchfmtRule rd ra rb s)

/-- `BCHVER xd, xa` (R173). -/
def execBchver (rd ra : XReg) (s : State) : Host.Outcome State Fault Refusal :=
  finish (encode (.bchver rd ra)) s (bchverRule rd ra s)

end Sys2Proof.Machine
end

