-- ==== Sys2Proof/Machine/Params.lean ====
section
/-! DEFINITION. The open parameters of the spec at their values for this hardware (spec/00_scope.md R6,
92_eei_decisions.md section 8). D0 names these things and does not give them; the spec supplies the
values from general knowledge, so a claim that uses one holds for that value (log entries 11 to 14,
UNVERIFIED, unsafe). -/

namespace Sys2Proof.Machine

/-- `MASKFN`: `maskfn(k, r, c)`, the eight mask functions of row `r` and column `c` (R181). There is no
pattern above 7. -/
def maskfn (k r c : Nat) : Bool :=
  match k with
  | 0 => (r + c) % 2 == 0
  | 1 => r % 2 == 0
  | 2 => c % 3 == 0
  | 3 => (r + c) % 3 == 0
  | 4 => (r / 2 + c / 3) % 2 == 0
  | 5 => (r * c) % 2 + (r * c) % 3 == 0
  | 6 => ((r * c) % 2 + (r * c) % 3) % 2 == 0
  | 7 => ((r * c) % 3 + (r + c) % 2) % 2 == 0
  | _ => false

/-- `PEN_C_MODE` (R6, R187). -/
def penCMode : Config.PenCMode := .window11

/-- The rows of `ALIGN_POS` for type numbers 1 to 40 (R232). -/
def alignTable : List (List Nat) :=
  [
    [],
    [6, 18],
    [6, 22],
    [6, 26],
    [6, 30],
    [6, 34],
    [6, 22, 38],
    [6, 24, 42],
    [6, 26, 46],
    [6, 28, 50]] ++ [
    [6, 30, 54],
    [6, 32, 58],
    [6, 34, 62],
    [6, 26, 46, 66],
    [6, 26, 48, 70],
    [6, 26, 50, 74],
    [6, 30, 54, 78],
    [6, 30, 56, 82],
    [6, 30, 58, 86],
    [6, 34, 62, 90]] ++ [
    [6, 28, 50, 72, 94],
    [6, 26, 50, 74, 98],
    [6, 30, 54, 78, 102],
    [6, 28, 54, 80, 106],
    [6, 32, 58, 84, 110],
    [6, 30, 58, 86, 114],
    [6, 34, 62, 90, 118],
    [6, 26, 50, 74, 98, 122],
    [6, 30, 54, 78, 102, 126],
    [6, 26, 52, 78, 104, 130]] ++ [
    [6, 30, 56, 82, 108, 134],
    [6, 34, 60, 86, 112, 138],
    [6, 30, 58, 86, 114, 142],
    [6, 34, 62, 90, 118, 146],
    [6, 30, 54, 78, 102, 126, 150],
    [6, 24, 50, 76, 102, 128, 154],
    [6, 28, 54, 80, 106, 132, 158],
    [6, 32, 58, 84, 110, 136, 162],
    [6, 26, 54, 82, 110, 138, 166],
    [6, 30, 58, 86, 114, 142, 170]]

/-- `ALIGN_POS[v]` (R232). -/
def alignPos (v : Nat) : List Nat := alignTable.getD (v - 1) []

/-- Copy A of `FMT_CELLS`: the cell of bit `i` of the format information in a matrix of side `n`
(R234). -/
def fmtCellA (n i : Nat) : Nat × Nat :=
  if i ≤ 5 then (i, 8) else if i ≤ 7 then (i + 1, 8) else (n - 15 + i, 8)

/-- Copy B of `FMT_CELLS` (R234). -/
def fmtCellB (n i : Nat) : Nat × Nat :=
  if i ≤ 7 then (8, n - 1 - i) else if i = 8 then (8, 7) else (8, 14 - i)

/-- `DARK_CELL` (R234). -/
def darkCell (n : Nat) : Nat × Nat := (n - 8, 8)

/-- Copy A of `VER_CELLS`: the cell of bit `i` of the version information (R235). -/
def verCellA (n i : Nat) : Nat × Nat := (i / 3, i % 3 + n - 11)

/-- Copy B of `VER_CELLS` (R235). -/
def verCellB (n i : Nat) : Nat × Nat := (i % 3 + n - 11, i / 3)

end Sys2Proof.Machine
end

