-- ==== Sys2Proof/Machine/Layout.lean ====
section
/-! DEFINITION. The pure functions of the module-matrix assembler: layout, placement order, data
placement, metadata write (spec/46_matrix.md R225 to R240, R246). -/

namespace Sys2Proof.Machine

/-! ### Function patterns (R228 to R231) -/

/-- The colour of a finder pattern or its separator at the offset `(dr, dc)` from its top-left cell
(R228). -/
def finderVal (dr dc : Int) : CellVal :=
  if (0 ≤ dr ∧ dr ≤ 6 ∧ (dc = 0 ∨ dc = 6)) ∨ (0 ≤ dc ∧ dc ≤ 6 ∧ (dr = 0 ∨ dr = 6)) ∨
      (2 ≤ dr ∧ dr ≤ 4 ∧ 2 ≤ dc ∧ dc ≤ 4) then .dark else .light

/-- What the finder pattern with top-left cell `(r0, c0)` and its separator draw at `(r, c)`. -/
def finderAt (r0 c0 r c : Nat) : Option CellVal :=
  let dr : Int := (r : Int) - (r0 : Int)
  let dc : Int := (c : Int) - (c0 : Int)
  if -1 ≤ dr ∧ dr ≤ 7 ∧ -1 ≤ dc ∧ dc ≤ 7 then some (finderVal dr dc) else none

/-- The three finder patterns of a matrix of side `n` (R228). -/
def finderCell (n r c : Nat) : Option CellVal :=
  (finderAt 0 0 r c).or ((finderAt (n - 7) 0 r c).or (finderAt 0 (n - 7) r c))

/-- The timing patterns (R229): row 6 and column 6, positions `8 .. N-9`, dark at even positions. -/
def timingCell (n r c : Nat) : Option CellVal :=
  let at' (i : Nat) : Option CellVal :=
    if 8 ≤ i ∧ i + 9 ≤ n then some (if i % 2 = 0 then .dark else .light) else none
  (if r = 6 then at' c else none).or (if c = 6 then at' r else none)

/-- The alignment pattern centred at `(r0, c0)` is skipped: its centre lies in a finder square (R231). -/
def alignSkipped (n r0 c0 : Nat) : Bool :=
  decide ((r0 ≤ 6 ∧ c0 ≤ 6) ∨ (r0 ≤ 6 ∧ c0 ≥ n - 7) ∨ (r0 ≥ n - 7 ∧ c0 ≤ 6))

/-- What the alignment pattern centred at `(r0, c0)` draws at `(r, c)` (R230). -/
def alignAt (r0 c0 r c : Nat) : Option CellVal :=
  let dr : Int := (r : Int) - (r0 : Int)
  let dc : Int := (c : Int) - (c0 : Int)
  if dr.natAbs ≤ 2 ∧ dc.natAbs ≤ 2 then
    some (if dr.natAbs = 2 ∨ dc.natAbs = 2 ∨ (dr = 0 ∧ dc = 0) then .dark else .light)
  else none

/-- The alignment patterns of type number `v` (R230, R231). -/
def alignCell (v r c : Nat) : Option CellVal :=
  (alignPos v).findSome? fun r0 => (alignPos v).findSome? fun c0 =>
    if alignSkipped (17 + 4 * v) r0 c0 then none else alignAt r0 c0 r c

/-! ### Reservations (R233 to R235) -/

/-- `(r, c)` is a cell of `FMT_CELLS` or `DARK_CELL`, or with `v >= 7` a cell of `VER_CELLS` (R233). -/
def reserved (v r c : Nat) : Bool :=
  let n := 17 + 4 * v
  (List.range 15).any (fun i => fmtCellA n i == (r, c) || fmtCellB n i == (r, c)) ||
    darkCell n == (r, c) ||
    (decide (7 ≤ v) &&
      (List.range 18).any fun i => verCellA n i == (r, c) || verCellB n i == (r, c))

/-! ### Layout (R227, R236, R246) -/

/-- The colour that the patterns give the cell `(r, c)`, `none` where none of them draws; a pattern
drawn later in R236's order stands before an earlier one. -/
def patternVal (v r c : Nat) : Option CellVal :=
  (alignCell v r c).or ((timingCell (17 + 4 * v) r c).or (finderCell (17 + 4 * v) r c))

/-- The cell `(r, c)` of `layout(v)` (R236). A reserved cell keeps the colour it has (R233). -/
def layoutCell (v r c : Nat) : Cell :=
  match patternVal v r c with
  | some x => ⟨x, true⟩
  | none => ⟨.unset, reserved v r c⟩

/-- `layout(v)` (R236). -/
def layout (v : Nat) : Mat := Mat.build v (layoutCell v)

/-- The number of data cells of `m`. -/
def Mat.dataCells (m : Mat) : Nat := (m.cells.map fun row => row.countP fun e => !e.fn).sum

/-- `freecells(v)` (R246). -/
def freecells (v : Nat) : Nat := (layout v).dataCells

/-! ### Data placement (R238, R239) -/

/-- The right columns of the pairs that R238 walks, from `col` leftward; `fuel` bounds the loop, which
stops when `col` is not above 0. -/
def pairCols : Nat → Nat → List Nat
  | 0, _ => []
  | fuel + 1, col =>
    if col = 0 then []
    else
      let col' := if col = 6 then col - 1 else col
      col' :: pairCols fuel (col' - 2)

/-- The rows of one pair, in the order they are walked. -/
def pairRows (n : Nat) (up : Bool) : List Nat :=
  if up then (List.range n).reverse else List.range n

/-- The cells of the pairs with right columns `cols`, the first pair walked upward if `up`: within a row
the right cell comes first. -/
def zigzag (n : Nat) : List Nat → Bool → List (Nat × Nat)
  | [], _ => []
  | col :: cols, up =>
    (pairRows n up).flatMap (fun r => [(r, col), (r, col - 1)]) ++ zigzag n cols (!up)

/-- `placeorder(MAT)` (R238): the data cells in the order of the walk. -/
def placeorder (m : Mat) : List (Nat × Nat) :=
  (zigzag m.side (pairCols m.side (m.side - 1)) true).filter fun rc => !(m.cell rc.1 rc.2).fn

/-- Bit `k` of the stream `f` (R64), most significant bit of a byte first; false when the stream is
exhausted. -/
def streamBit (f : List Byte) (k : Nat) : Bool := (f.getD (k / 8) 0).getLsbD (7 - k % 8)

/-- Dark for a 1 bit, light for a 0 bit (R239, R240). -/
def CellVal.ofBit (b : Bool) : CellVal := if b then .dark else .light

/-- Sets `val` of the listed cells, first to last. -/
def Mat.setVals : Mat → List ((Nat × Nat) × CellVal) → Mat
  | m, [] => m
  | m, ((r, c), x) :: l => Mat.setVals (m.setVal r c x) l

/-- `place(MAT, F)` (R239). -/
def place (m : Mat) (f : List Byte) : Mat :=
  m.setVals ((placeorder m).zipIdx.map fun e => (e.1, CellVal.ofBit (streamBit f e.2)))

/-! ### Metadata write (R240) -/

/-- The cells `copyA i` and `copyB i` with the colour of bit `i` of `w`, for `i` below `n`. -/
def bitCells (n w : Nat) (copyA copyB : Nat → Nat × Nat) : List ((Nat × Nat) × CellVal) :=
  (List.range n).flatMap fun i =>
    [(copyA i, CellVal.ofBit (w.testBit i)), (copyB i, CellVal.ofBit (w.testBit i))]

/-- `writemeta(MAT, ecl, k)` (R240). -/
def writemeta (m : Mat) (ecl k : Nat) : Mat :=
  m.setVals (bitCells 15 (bchfmt ecl k) (fmtCellA m.side) (fmtCellB m.side) ++
    [(darkCell m.side, .dark)] ++
    (if 7 ≤ m.v then bitCells 18 (bchver m.v) (verCellA m.side) (verCellB m.side) else []))

/-- The finished symbol (R245): true means dark. -/
def Mat.grid (m : Mat) : List (List Bool) := m.cells.map fun row => row.map fun e => e.val == .dark

end Sys2Proof.Machine
end

