-- ==== Sys2Proof/Machine/Mask.lean ====
section
/-! DEFINITION. The mask evaluator and applier and the commands `MSKBIT`, `MAPPLY`, `MSCORE`, `MMASK`
(spec/44_mask.md). -/

namespace Sys2Proof.Machine

/-! ### Applying a mask (R182) -/

/-- Dark becomes light, light becomes dark; an unset cell is outside R182's domain and stays (log
entry 16). -/
def CellVal.flip : CellVal → CellVal
  | .light => .dark
  | .dark => .light
  | .unset => .unset

/-- `applymask(MAT, k)` (R182). -/
def applymask (m : Mat) (k : Nat) : Mat :=
  Mat.build m.v fun r c =>
    let e := m.cell r c
    if !e.fn && maskfn k r c then { e with val := e.val.flip } else e

/-! ### Penalties (R184 to R189), on a grid of booleans of any side -/

/-- The columns of a square grid, from the left. -/
def columns (g : List (List Bool)) : List (List Bool) :=
  (List.range g.length).map fun c => g.map fun row => row.getD c false

/-- The rows and the columns of a grid. -/
def gridLines (g : List (List Bool)) : List (List Bool) := g ++ columns g

/-- What a run of length `n` adds (R185). -/
def runScore (n : Nat) : Nat := if 5 ≤ n then n - 2 else 0

/-- The score of the runs of a line whose current run has colour `cur` and length `n` so far. -/
def runsFrom (cur : Bool) (n : Nat) : List Bool → Nat
  | [] => runScore n
  | b :: l => if b = cur then runsFrom cur (n + 1) l else runScore n + runsFrom b 1 l

/-- The score of the maximal runs of one row or column (R185). -/
def lineRuns : List Bool → Nat
  | [] => 0
  | b :: l => runsFrom b 1 l

/-- `pen_a(g)` (R185). -/
def penA (g : List (List Bool)) : Nat := ((gridLines g).map lineRuns).sum

/-- The overlapping 2x2 blocks of one colour in two adjacent rows. -/
def blocksIn : List Bool → List Bool → Nat
  | a :: b :: up, c :: d :: down =>
    (if a = b ∧ a = c ∧ a = d then 1 else 0) + blocksIn (b :: up) (d :: down)
  | _, _ => 0

/-- The 2x2 blocks of one colour in a grid. -/
def blockCount : List (List Bool) → Nat
  | up :: down :: g => blocksIn up down + blockCount (down :: g)
  | _ => 0

/-- `pen_b(g)` (R186). -/
def penB (g : List (List Bool)) : Nat := 3 * blockCount g

/-- `P1` of R187: 1:1:3:1:1, then four light. -/
def finderLight : List Bool :=
  [true, false, true, true, true, false, true, false, false, false, false]

/-- `P2` of R187: four light, then 1:1:3:1:1. -/
def lightFinder : List Bool :=
  [false, false, false, false, true, false, true, true, true, false, true]

/-- The starts in a line at which the window equals `pat`; a window lies wholly inside the line. -/
def windowsOf (pat : List Bool) : List Bool → Nat
  | [] => 0
  | b :: l => (if pat.isPrefixOf (b :: l) then 1 else 0) + windowsOf pat l

/-- `pen_c(g)` under a reading of rule (c) (R187). -/
def penCWith (mode : Config.PenCMode) (g : List (List Bool)) : Nat :=
  match mode with
  | .window11 => 40 * ((gridLines g).map fun l => windowsOf finderLight l + windowsOf lightFinder l).sum

/-- `pen_c(g)` (R187) under the value of `PEN_C_MODE` for this hardware. -/
def penC (g : List (List Bool)) : Nat := penCWith penCMode g

/-- The number of dark cells of a grid (R188). -/
def darkCount (g : List (List Bool)) : Nat := (g.map fun row => row.countP id).sum

/-- `pen_d(g)` (R188), in integers. -/
def penD (g : List (List Bool)) : Nat :=
  let total : Int := (g.length : Int) * (g.length : Int)
  10 * ((20 * (darkCount g : Int) - 10 * total).natAbs / total.natAbs)

/-- The grid that scoring reads (R184): an unset cell counts as light. -/
def scoreGrid (m : Mat) : List (List Bool) := m.grid

/-- `pen_a + pen_b + pen_c + pen_d` (R189). -/
def penaltyGrid (g : List (List Bool)) : Nat := penA g + penB g + penC g + penD g

/-- `penalty(MAT)` (R189). -/
def penalty (m : Mat) : Nat := penaltyGrid (scoreGrid m)

/-! ### Automatic selection (R190) -/

/-- The least of the patterns `best`, then `ks` in order, with the least score; a tie keeps the earlier. -/
def leastScore (score : Nat → Nat) (best : Nat) : List Nat → Nat
  | [] => best
  | k :: ks => leastScore score (if score k < score best then k else best) ks

/-- `choosemask(MAT)` (R190). -/
def choosemask (m : Mat) : Nat :=
  leastScore (fun k => penalty (applymask m k)) 0 [1, 2, 3, 4, 5, 6, 7]

/-! ### The commands (R191 to R194) -/

def mskbitRule (rd ra rb : XReg) (k : Nat) (s : State) : Act State := do
  let (r, c) ← s.readXX ra rb
  raiseIf (k > 7) .badConfig
  raiseIf (r < 0 ∨ r > 176 ∨ c < 0 ∨ c > 176) .range
  .ok (s.setX rd (if maskfn k r.toNat c.toNat then 1 else 0))

def mapplyRule (k : Nat) (s : State) : Act State := do
  s.atStage .placed
  raiseIf (k > 7) .badConfig
  let m ← s.readMat
  .ok (s.setMat (applymask m k))

/-- The value that selector `sel` of `MSCORE` reads (R193). -/
def scoreBy (sel : Nat) (m : Mat) : Nat :=
  match sel with
  | 0 => penalty m
  | 1 => penA (scoreGrid m)
  | 2 => penB (scoreGrid m)
  | 3 => penC (scoreGrid m)
  | _ => penD (scoreGrid m)

def mscoreRule (rd : XReg) (sel : Nat) (s : State) : Act State := do
  s.fromStage .placed
  raiseIf (sel > 4) .badConfig
  let m ← s.readMat
  .ok (s.setX rd (scoreBy sel m))

/-- The pattern `MMASK` applies (R194): `MASKSEL`, or the automatic choice when it is 8. -/
def maskChoice (s : State) (m : Mat) : Nat := if s.masksel = 8 then choosemask m else s.masksel

def mmaskRule (s : State) : Act State := do
  s.atStage .placed
  let m ← s.readMat
  let k := maskChoice s m
  let m' := applymask m k
  .ok { s with
    mat := some m'
    resmask := BitVec.ofNat 4 (8 ||| k)
    score := BitVec.ofNat 31 (penalty m')
    stage := .masked }

/-- `MSKBIT xd, xa, xb, k` (R191). -/
def execMskbit (rd ra rb : XReg) (k : Nat) (s : State) : Host.Outcome State Fault Refusal :=
  finish (encode (.mskbit rd ra rb k)) s (mskbitRule rd ra rb k s)

/-- `MAPPLY k` (R192). -/
def execMapply (k : Nat) (s : State) : Host.Outcome State Fault Refusal :=
  finish (encode (.mapply k)) s (mapplyRule k s)

/-- `MSCORE xd, s` (R193). -/
def execMscore (rd : XReg) (sel : Nat) (s : State) : Host.Outcome State Fault Refusal :=
  finish (encode (.mscore rd sel)) s (mscoreRule rd sel s)

/-- `MMASK` (R194). -/
def execMmask (s : State) : Host.Outcome State Fault Refusal :=
  finish (encode .mmask) s (mmaskRule s)

end Sys2Proof.Machine
end

