-- ==== Sys2Proof/Machine/Matrix.lean ====
section
/-! DEFINITION. The commands of the module-matrix assembler, `MINIT`, `MPLACE`, `MRD`, `MMETA`
(spec/46_matrix.md R241 to R244). -/

namespace Sys2Proof.Machine

def minitRule (s : State) : Act State := do
  s.atStage .ilvDone
  raiseIf (s.typenum < 1 ∨ s.typenum > 40) .badConfig
  .ok ((s.setMat (layout s.typenum)).setStage .layout)

def mplaceRule (s : State) : Act State := do
  s.atStage .layout
  let f ← s.memRead s.faddr.toNat s.flen.toNat
  let m ← s.readMat
  raiseIf (8 * s.flen.toNat > freecells m.v) .capacity
  .ok ((s.setMat (place m f)).setStage .placed)

/-- `code(val) | (fn << 2)` (R243). -/
def Cell.code (e : Cell) : Nat := e.val.code + if e.fn then 4 else 0

def mrdRule (rd ra rb : XReg) (s : State) : Act State := do
  let (r, c) ← s.readXX ra rb
  s.fromStage .layout
  let m ← s.readMat
  raiseIf (r < 0 ∨ r ≥ (m.side : Int) ∨ c < 0 ∨ c ≥ (m.side : Int)) .range
  .ok (s.setX rd (m.cell r.toNat c.toNat).code)

def mmetaRule (s : State) : Act State := do
  s.atStage .masked
  let m ← s.readMat
  .ok ((s.setMat (writemeta m s.ecl s.resPattern)).setStage .done)

/-- `MINIT` (R241). -/
def execMinit (s : State) : Host.Outcome State Fault Refusal :=
  finish (encode .minit) s (minitRule s)

/-- `MPLACE` (R242). -/
def execMplace (s : State) : Host.Outcome State Fault Refusal :=
  finish (encode .mplace) s (mplaceRule s)

/-- `MRD xd, xa, xb` (R243). -/
def execMrd (rd ra rb : XReg) (s : State) : Host.Outcome State Fault Refusal :=
  finish (encode (.mrd rd ra rb)) s (mrdRule rd ra rb s)

/-- `MMETA` (R244). -/
def execMmeta (s : State) : Host.Outcome State Fault Refusal :=
  finish (encode .mmeta) s (mmetaRule s)

end Sys2Proof.Machine
end

