-- ==== Sys2Proof/Machine/Polynomial.lean ====
section
/-! DEFINITION. Polynomial arithmetic and the commands `PLD`, `PST`, `PLEN`, `PGET`, `PMUL`, `PMOD`,
`PSHIFT` (spec/42_polynomial.md). -/

namespace Sys2Proof.Machine

/-! ### The functions (R141 to R146, R154) -/

/-- `zeros(n)` (R10). -/
def zeros (n : Nat) : List Byte := List.replicate n 0

/-- `trim(s)` (R141): leading zeros removed while the length is above 1. -/
def trim : List Byte → Poly
  | [] => []
  | [a] => [a]
  | a :: b :: s => if a = 0 then trim (b :: s) else a :: b :: s

/-- `s` is trimmed (R141): it is `[0]`, or its first element is not 0. -/
def trimmed (s : Poly) : Bool :=
  match s with
  | [] => false
  | [_] => true
  | a :: _ :: _ => decide (a ≠ 0)

/-- What a polynomial register may hold (R24, R26): trimmed, of length 1 to `PMAX`. -/
def Poly.wf (s : Poly) : Bool := trimmed s && decide (s.length ≤ Config.pmax)

/-- `padleft(s, n)` for `len(s) <= n` (R154). -/
def padleft (s : List Byte) (n : Nat) : List Byte := zeros (n - s.length) ++ s

/-- `r` with `b` added into its first elements, field addition element by element. -/
def addInto : List Byte → List Byte → List Byte
  | [], _ => []
  | r, [] => r
  | a :: r, c :: b => gfadd a c :: addInto r b

/-- The array `out` of R143 before the trim: the row `gfmul(a[i], b[j])` of each coefficient `a[i]` is
added in at offset `i`. -/
def convolve : List Byte → List Byte → List Byte
  | [], b => zeros (b.length - 1)
  | a :: s, b => addInto (b.map (gfmul a) ++ zeros s.length) (0 :: convolve s b)

/-- `pmul(a, b)` (R143). -/
def pmul (a b : Poly) : Poly := trim (convolve a b)

/-- `pshift(a, n)` (R144). -/
def pshift (a : Poly) (n : Nat) : Poly := trim (a ++ zeros n)

/-- `gexp(glog(b[i]) + ratio)`, or 0 where `b[i] = 0`, which R145 skips. -/
def scaleByLog (ratio : Int) (c : Byte) : Byte := if c = 0 then 0 else gexp ((logOf c : Int) + ratio)

/-- The loop of R145; `fuel` bounds its passes, each of which shortens `r` or leaves it `[0]`. -/
def pmodLoop : Nat → Poly → Poly → Act Poly
  | 0, r, _ => .ok r
  | fuel + 1, r, b =>
    if b.length ≤ r.length ∧ r ≠ [0] then do
      let lr ← glog ((r.headD 0).toNat : Int)
      let lb ← glog ((b.headD 0).toNat : Int)
      pmodLoop fuel (trim (addInto r (b.map (scaleByLog ((lr : Int) - (lb : Int)))))) b
    else .ok r

/-- `pmod(a, b)` (R145): `GLOG_DOMAIN` when the loop is entered with `b = [0]`. -/
def pmod (a b : Poly) : Act Poly := pmodLoop (a.length + 1) a b

/-! ### The commands (R147 to R153) -/

def pldRule (rd : PReg) (ra rb : XReg) (s : State) : Act State := do
  let (a, n) ← s.readXX ra rb
  raiseIf (n < 1 ∨ n > 256) .range
  let bs ← s.memRead a n.toNat
  .ok (s.setP rd (trim bs))

def pstRule (rd : PReg) (ra rb : XReg) (s : State) : Act State := do
  let q ← s.readP rd
  let (a, n) ← s.readXX ra rb
  raiseIf (n < (q.length : Int) ∨ n > 256) .range
  s.memWrite a (padleft q n.toNat)

def plenRule (rd : XReg) (ra : PReg) (s : State) : Act State := do
  let q ← s.readP ra
  .ok (s.setX rd q.length)

def pgetRule (rd : XReg) (ra : PReg) (rb : XReg) (s : State) : Act State := do
  let q ← s.readP ra
  let i ← s.readX rb
  raiseIf (i < 0 ∨ i ≥ (q.length : Int)) .range
  .ok (s.setX rd (q.getD i.toNat 0).toNat)

def pmulRule (rd ra rb : PReg) (s : State) : Act State := do
  let (a, b) ← s.readPP ra rb
  raiseIf (a.length + b.length - 1 > 256) .range
  .ok (s.setP rd (pmul a b))

def pmodRule (rd ra rb : PReg) (s : State) : Act State := do
  let (a, b) ← s.readPP ra rb
  let r ← pmod a b
  .ok (s.setP rd r)

def pshiftRule (rd ra : PReg) (rb : XReg) (s : State) : Act State := do
  let a ← s.readP ra
  let n ← s.readX rb
  raiseIf (n < 0 ∨ (a.length : Int) + n > 256) .range
  .ok (s.setP rd (pshift a n.toNat))

/-- `PLD pd, xa, xb` (R147). -/
def execPld (rd : PReg) (ra rb : XReg) (s : State) : Host.Outcome State Fault Refusal :=
  finish (encode (.pld rd ra rb)) s (pldRule rd ra rb s)

/-- `PST pd, xa, xb` (R148). -/
def execPst (rd : PReg) (ra rb : XReg) (s : State) : Host.Outcome State Fault Refusal :=
  finish (encode (.pst rd ra rb)) s (pstRule rd ra rb s)

/-- `PLEN xd, pa` (R149). -/
def execPlen (rd : XReg) (ra : PReg) (s : State) : Host.Outcome State Fault Refusal :=
  finish (encode (.plen rd ra)) s (plenRule rd ra s)

/-- `PGET xd, pa, xb` (R150). -/
def execPget (rd : XReg) (ra : PReg) (rb : XReg) (s : State) : Host.Outcome State Fault Refusal :=
  finish (encode (.pget rd ra rb)) s (pgetRule rd ra rb s)

/-- `PMUL pd, pa, pb` (R151). -/
def execPmul (rd ra rb : PReg) (s : State) : Host.Outcome State Fault Refusal :=
  finish (encode (.pmul rd ra rb)) s (pmulRule rd ra rb s)

/-- `PMOD pd, pa, pb` (R152). -/
def execPmod (rd ra rb : PReg) (s : State) : Host.Outcome State Fault Refusal :=
  finish (encode (.pmod rd ra rb)) s (pmodRule rd ra rb s)

/-- `PSHIFT pd, pa, xb` (R153). -/
def execPshift (rd ra : PReg) (rb : XReg) (s : State) : Host.Outcome State Fault Refusal :=
  finish (encode (.pshift rd ra rb)) s (pshiftRule rd ra rb s)

end Sys2Proof.Machine
end

