-- ==== Sys2Proof/Machine/ReedSolomon.lean ====
section
/-! DEFINITION. The Reed-Solomon block generator, the interleaver and the commands `PGEN`, `RSGEN`,
`ILV` (spec/45_rs_interleave.md). -/

namespace Sys2Proof.Machine

/-! ### The EC codewords of one block (R205, R207) -/

/-- `genpoly(n)` (R205): the product of `[1, gexp(i)]` for `i = 0 .. n-1`. -/
def genpoly : Nat → Poly
  | 0 => [1]
  | n + 1 => pmul (genpoly n) [1, gexp n]

/-- `rsec(data, n)` (R207). -/
def rsec (data : List Byte) (n : Nat) : Act (List Byte) := do
  let r ← pmod (pshift (trim data) n) (genpoly n)
  .ok (padleft r n)

/-! ### The block list (R208 to R210) -/

/-- A block: `totalCount` and `dataCount` (R208). -/
structure Block where
  total : Nat
  data : Nat
  deriving DecidableEq, Repr

/-- `ecCount_b` (R208). -/
def Block.ec (b : Block) : Nat := b.total - b.data

/-- The descriptors in memory: `totalCount` then `dataCount`, a byte each (R208). -/
def parseBlocks : List Byte → List Block
  | t :: d :: raw => ⟨t.toNat, d.toNat⟩ :: parseBlocks raw
  | _ => []

/-- A descriptor is malformed (R209). -/
def Block.bad (b : Block) : Bool := decide (b.data < 1 ∨ b.data ≥ b.total)

/-- The sum of `dataCount` (R209). -/
def dataTotal (bl : List Block) : Nat := (bl.map Block.data).sum

/-- The sum of `ecCount` (R213). -/
def ecTotal (bl : List Block) : Nat := (bl.map Block.ec).sum

/-- `blocks()` (R209). -/
def State.blocks (s : State) : Act (List Block) := do
  raiseIf (s.nblk.toNat < 1) .badBlocks
  let raw ← s.memRead s.baddr.toNat (2 * s.nblk.toNat)
  let bl := parseBlocks raw
  raiseIf (bl.any Block.bad = true) .badBlocks
  raiseIf (dataTotal bl ≠ s.dlen.toNat) .badBlocks
  .ok bl

/-- `seq` cut into pieces of the given lengths, in order (R210). -/
def cut : List Nat → List Byte → List (List Byte)
  | [], _ => []
  | n :: ns, seq => seq.take n :: cut ns (seq.drop n)

/-- The EC codewords of every block, back to back in block order (R210). -/
def rsecAll : List Block → List Byte → Act (List Byte)
  | [], _ => .ok []
  | b :: bl, d => do
    let e ← rsec (d.take b.data) b.ec
    let rest ← rsecAll bl (d.drop b.data)
    .ok (e ++ rest)

/-! ### Interleaving (R211) -/

/-- The greatest length of the sequences. -/
def maxLen (ls : List (List Byte)) : Nat := (ls.map List.length).foldl max 0

/-- Index by index, the element of every sequence that has one, in order. -/
def roundRobin (ls : List (List Byte)) : List Byte :=
  (List.range (maxLen ls)).flatMap fun i => ls.filterMap fun l => l[i]?

/-- `interleave(datas, ecs)` (R211). -/
def interleave (datas ecs : List (List Byte)) : List Byte := roundRobin datas ++ roundRobin ecs

/-! ### The commands (R212 to R214) -/

def pgenRule (rd : PReg) (ra : XReg) (s : State) : Act State := do
  let n ← s.readX ra
  raiseIf (n < 0 ∨ n > 255) .range
  .ok (s.setP rd (genpoly n.toNat))

/-- R213. The EC areas of the blocks lie back to back from `EADDR`, so they are written as one
sequence; all reads are of the pre-state. -/
def rsgenRule (s : State) : Act State := do
  s.atStage .idle
  let bl ← s.blocks
  let d ← s.memRead s.daddr.toNat s.dlen.toNat
  raiseIf (s.eaddr.toNat + ecTotal bl > Config.msize) .addrRange
  let e ← rsecAll bl d
  let t ← s.memWrite s.eaddr.toNat e
  .ok { t with elen := BitVec.ofNat 14 (ecTotal bl), stage := .ecDone }

/-- R214. -/
def ilvRule (s : State) : Act State := do
  s.atStage .ecDone
  let bl ← s.blocks
  raiseIf (ecTotal bl ≠ s.elen.toNat) .badBlocks
  let d ← s.memRead s.daddr.toNat s.dlen.toNat
  let c ← s.memRead s.eaddr.toNat (ecTotal bl)
  raiseIf (s.faddr.toNat + (s.dlen.toNat + ecTotal bl) > Config.msize) .addrRange
  let t ← s.memWrite s.faddr.toNat
    (interleave (cut (bl.map Block.data) d) (cut (bl.map Block.ec) c))
  .ok { t with flen := BitVec.ofNat 14 (s.dlen.toNat + ecTotal bl), stage := .ilvDone }

/-- `PGEN pd, xa` (R212). -/
def execPgen (rd : PReg) (ra : XReg) (s : State) : Host.Outcome State Fault Refusal :=
  finish (encode (.pgen rd ra)) s (pgenRule rd ra s)

/-- `RSGEN` (R213). -/
def execRsgen (s : State) : Host.Outcome State Fault Refusal :=
  finish (encode .rsgen) s (rsgenRule s)

/-- `ILV` (R214). -/
def execIlv (s : State) : Host.Outcome State Fault Refusal :=
  finish (encode .ilv) s (ilvRule s)

end Sys2Proof.Machine
end

