-- ==== Sys2Proof/Machine/Sequencer.lean ====
section
/-! DEFINITION. The command `ENCODE`: the six stage commands as one (spec/47_encode.md R257). -/

namespace Sys2Proof.Machine

/-- R257: each inner stage reads the state the one before it left; the first that raises decides the
sub-cause, and `finish` then keeps nothing of the earlier ones. -/
def encodeRule (s : State) : Act State := do
  let s1 ← rsgenRule s
  let s2 ← ilvRule s1
  let s3 ← minitRule s2
  let s4 ← mplaceRule s3
  let s5 ← mmaskRule s4
  mmetaRule s5

/-- `ENCODE` (R257). -/
def execEncode (s : State) : Host.Outcome State Fault Refusal :=
  finish (encode .encode) s (encodeRule s)

end Sys2Proof.Machine
end

