-- ==== Sys2Proof/Machine/System.lean ====
section
/-! DEFINITION. The system and data-movement commands `NOP`, `RST`, `CLR`, `LI`, `LB`, `SB`, `CSRR`,
`CSRW` (spec/40_system.md R101 to R108). -/

namespace Sys2Proof.Machine

def nopRule (s : State) : Act State := .ok s

/-- R102: the reset state; it raises nothing. -/
def rstRule (s : State) : Act State := .ok s.afterReset

/-- R103: exactly the per-encode state of R49 returns to its reset value. -/
def clrRule (s : State) : Act State :=
  .ok { s with stage := .idle, flen := 0, elen := 0, resmask := 0, score := 0, mat := none }

def liRule (rd : XReg) (imm : Int) (s : State) : Act State := .ok (s.setX rd imm)

def lbRule (rd ra : XReg) (s : State) : Act State := do
  let a ← s.readX ra
  let bs ← s.memRead a 1
  .ok (s.setX rd (bs.headD 0).toNat)

/-- R106: `rd` is a source and is read first; the value is not truncated. -/
def sbRule (rd ra : XReg) (s : State) : Act State := do
  let v ← s.readX rd
  let a ← s.readX ra
  raiseIf (v < 0 ∨ v > 255) .elemRange
  s.memWrite a [BitVec.ofInt 8 v]

def csrrRule (rd : XReg) (n : Nat) (s : State) : Act State :=
  match s.csr n with
  | none => raise .badCsr
  | some v => .ok (s.setX rd v)

def csrwRule (n : Nat) (ra : XReg) (s : State) : Act State := do
  let v ← s.readX ra
  match s.writeCsr n v with
  | none => raise .badCsr
  | some t => .ok t

/-- `NOP` (R101). -/
def execNop (s : State) : Host.Outcome State Fault Refusal :=
  finish (encode .nop) s (nopRule s)

/-- `RST` (R102). -/
def execRst (s : State) : Host.Outcome State Fault Refusal :=
  finish (encode .rst) s (rstRule s)

/-- `CLR` (R103). -/
def execClr (s : State) : Host.Outcome State Fault Refusal :=
  finish (encode .clr) s (clrRule s)

/-- `LI xd, imm` (R104). -/
def execLi (rd : XReg) (imm : Int) (s : State) : Host.Outcome State Fault Refusal :=
  finish (encode (.li rd imm)) s (liRule rd imm s)

/-- `LB xd, xa` (R105). -/
def execLb (rd ra : XReg) (s : State) : Host.Outcome State Fault Refusal :=
  finish (encode (.lb rd ra)) s (lbRule rd ra s)

/-- `SB xd, xa` (R106). -/
def execSb (rd ra : XReg) (s : State) : Host.Outcome State Fault Refusal :=
  finish (encode (.sb rd ra)) s (sbRule rd ra s)

/-- `CSRR xd, csr` (R107). -/
def execCsrr (rd : XReg) (csr : Nat) (s : State) : Host.Outcome State Fault Refusal :=
  finish (encode (.csrr rd csr)) s (csrrRule rd csr s)

/-- `CSRW csr, xa` (R108). -/
def execCsrw (csr : Nat) (ra : XReg) (s : State) : Host.Outcome State Fault Refusal :=
  finish (encode (.csrw csr ra)) s (csrwRule csr ra s)

end Sys2Proof.Machine
end

