-- ==== Sys2Proof/Machine/Dispatch.lean ====
section
/-! DEFINITION. The meaning of each command, one arm per constructor of `Instr`. It performs the rule
of R86's row on a block that is not faulted; the faulted case and illegal words come before it
(spec/30_encoding.md R92, Machine/HostPorts.lean). -/

namespace Sys2Proof.Machine

def exec (i : Instr) (s : State) : Host.Outcome State Fault Refusal :=
  match i with
  | .nop => Sys2Proof.Machine.execNop s
  | .rst => Sys2Proof.Machine.execRst s
  | .clr => Sys2Proof.Machine.execClr s
  | .li rd imm => Sys2Proof.Machine.execLi rd imm s
  | .lb rd ra => Sys2Proof.Machine.execLb rd ra s
  | .sb rd ra => Sys2Proof.Machine.execSb rd ra s
  | .csrr rd csr => Sys2Proof.Machine.execCsrr rd csr s
  | .csrw csr ra => Sys2Proof.Machine.execCsrw csr ra s
  | .gexp rd ra => Sys2Proof.Machine.execGexp rd ra s
  | .glog rd ra => Sys2Proof.Machine.execGlog rd ra s
  | .gfmul rd ra rb => Sys2Proof.Machine.execGfmul rd ra rb s
  | .gfadd rd ra rb => Sys2Proof.Machine.execGfadd rd ra rb s
  | .pld rd ra rb => Sys2Proof.Machine.execPld rd ra rb s
  | .pst rd ra rb => Sys2Proof.Machine.execPst rd ra rb s
  | .plen rd ra => Sys2Proof.Machine.execPlen rd ra s
  | .pget rd ra rb => Sys2Proof.Machine.execPget rd ra rb s
  | .pmul rd ra rb => Sys2Proof.Machine.execPmul rd ra rb s
  | .pmod rd ra rb => Sys2Proof.Machine.execPmod rd ra rb s
  | .pshift rd ra rb => Sys2Proof.Machine.execPshift rd ra rb s
  | .pgen rd ra => Sys2Proof.Machine.execPgen rd ra s
  | .rsgen => Sys2Proof.Machine.execRsgen s
  | .ilv => Sys2Proof.Machine.execIlv s
  | .bchfmt rd ra rb => Sys2Proof.Machine.execBchfmt rd ra rb s
  | .bchver rd ra => Sys2Proof.Machine.execBchver rd ra s
  | .minit => Sys2Proof.Machine.execMinit s
  | .mplace => Sys2Proof.Machine.execMplace s
  | .mrd rd ra rb => Sys2Proof.Machine.execMrd rd ra rb s
  | .mmeta => Sys2Proof.Machine.execMmeta s
  | .mskbit rd ra rb k => Sys2Proof.Machine.execMskbit rd ra rb k s
  | .mapply k => Sys2Proof.Machine.execMapply k s
  | .mscore rd sel => Sys2Proof.Machine.execMscore rd sel s
  | .mmask => Sys2Proof.Machine.execMmask s
  | .encode => Sys2Proof.Machine.execEncode s

end Sys2Proof.Machine
end

