-- ==== Sys2Proof/Machine/HostPorts.lean ====
section
/-! DEFINITION. The host's ports (spec/20_memory.md R72): the command port with the transition of
spec/30_encoding.md R92, the memory write port, hardware reset (spec/70_reset_and_hazards.md R295), and
the two read ports, which are functions of the state. -/

namespace Sys2Proof.Machine

/-- `ERR != 0` (R271). -/
def State.faulted (s : State) : Bool := decide (s.err ≠ .noError)

/-- The one word a faulted block performs: `RST` (R92, R271). -/
abbrev rstWord : Word := 0x01000000

/-- The transition of a word presented at the command port (R92): faulted, illegal, or the rule of its
command. -/
def commandPort (w : Word) (s : State) : Host.Outcome State Fault Refusal :=
  if s.faulted then
    if w = rstWord then .next s.afterReset else .next s
  else
    match decode w with
    | .error _ => .next (s.latch .illegalCmd w)
    | .ok i => exec i s

/-- The memory write port (R72): `M[a] <- b`, not performed while the block is faulted (R271). -/
def memWritePort (a : BitVec 13) (b : Byte) (s : State) : State :=
  if s.faulted then s else { s with mem := Memory.put s.mem a.toNat b }

/-- What one action of the host does. -/
def hostAction (e : HostEvent) (s : State) : Host.Outcome State Fault Refusal :=
  match e with
  | .command w => commandPort w s
  | .memWrite a b => .next (memWritePort a b s)
  | .hardReset => .next s.afterReset

/-- The next action of the host, taken off the front of `inbox`. With none waiting, the block stays in
its state (R296, R305). -/
def takeAction (s : State) : Host.Outcome State Fault Refusal :=
  match s.inbox with
  | [] => .next s
  | e :: rest => hostAction e { s with inbox := rest }

/-- `s` with the word `w` presented next at the command port. -/
def presentWord (s : State) (w : Word) : State := { s with inbox := .command w :: s.inbox }

/-! ### The read ports (R72): they change nothing and work while faulted (R271) -/

/-- The memory read port: `M[a]`, or `none` for "unwritten". -/
def memReadPort (s : State) (a : BitVec 13) : Option Byte := Memory.byteAt s.mem a.toNat

/-- What the state read port can be asked for (R72). -/
inductive ReadRequest where
  | scalar (r : XReg)
  | polynomial (r : PReg)
  /-- any CSR, `STATUS` with its `ERR` and `INFO` and `ECMD` among them -/
  | csr (n : Nat)
  /-- a cell of `MAT` -/
  | matrixCell (r c : Nat)
  deriving DecidableEq, Repr

/-- What the state read port answers. -/
inductive ReadAnswer where
  | scalar (v : Int)
  | polynomial (q : Poly)
  | csr (v : Nat)
  | matrixCell (e : Cell)
  /-- the register is unwritten -/
  | unwritten
  /-- the matrix is absent (R72); also what the model answers for a CSR number above 13 or a cell outside
  the matrix, of which R72 says nothing: DESIGN CHOICE (log entry 24), unsafe -/
  | absent
  deriving DecidableEq, Repr

/-- The state read port (R72). For a CSR number above 13 and for a cell outside the matrix it answers
`absent`: DESIGN CHOICE (log entry 24), unsafe. -/
def stateReadPort (s : State) : ReadRequest → ReadAnswer
  | .scalar r =>
    match s.x[r] with
    | none => .unwritten
    | some w => .scalar w.toInt
  | .polynomial r =>
    match s.p[r] with
    | none => .unwritten
    | some q => .polynomial q
  | .csr n =>
    match s.csr n with
    | none => .absent
    | some v => .csr v
  | .matrixCell r c =>
    match s.mat with
    | none => .absent
    | some m => if r < m.side ∧ c < m.side then .matrixCell (m.cell r c) else .absent

end Sys2Proof.Machine
end

