-- ==== Sys2Proof/Machine/Step.lean ====
section
/-! DEFINITION. One step of the machine. QRCORE has no program counter and fetches nothing
(spec/10_state.md R28): a step is the next action of the host (spec/70_reset_and_hazards.md R305). -/

namespace Sys2Proof.Machine

/-- One step: the host's next waiting action, or no change when none waits. -/
def step (s : State) : Host.Outcome State Fault Refusal := takeAction s

/-- `s` with the command word made of the lowest `nbits` bits of `w` presented next at the command port,
where `step` takes it from (log entry 4). -/
def State.withFetchWord (s : State) (nbits w : Nat) : State :=
  presentWord s (BitVec.ofNat 32 (w % 2 ^ nbits))

end Sys2Proof.Machine
end

