-- ==== Sys2Proof/Safety.lean ====
section
/-! DEFINITION. What the statements about QRCORE are phrased in: which command writes which state, which
`STAGE` a command needs, the invariants of a run, and the polynomial notions (sum, value at a point) in
which spec/42_polynomial.md and spec/45_rs_interleave.md state their properties. -/

namespace Sys2Proof.Machine

/-! ### Outcomes -/

/-- The command `i` faults with `InvalidArgument(c)`: its transition is the fault transition of R270. -/
def Raises (i : Instr) (c : SubCause) (s : State) : Prop := exec i s = .next (s.latch c (encode i))

/-! ### Which command writes which state -/

/-- The scalar register a command may write (R22), none for a command that writes no scalar register. -/
def scalarDest : Instr → Option XReg
  | .li rd _ | .lb rd _ | .csrr rd _ | .gexp rd _ | .glog rd _ | .gfmul rd _ _ | .gfadd rd _ _
  | .plen rd _ | .pget rd _ _ | .bchfmt rd _ _ | .bchver rd _ | .mrd rd _ _ | .mskbit rd _ _ _
  | .mscore rd _ => some rd
  | .nop | .rst | .clr | .sb _ _ | .csrw _ _ | .pld _ _ _ | .pst _ _ _ | .pmul _ _ _ | .pmod _ _ _
  | .pshift _ _ _ | .pgen _ _ | .rsgen | .ilv | .minit | .mplace | .mmeta | .mapply _ | .mmask
  | .encode => none

/-- The polynomial register a command may write (R25). -/
def polyDest : Instr → Option PReg
  | .pld rd _ _ | .pmul rd _ _ | .pmod rd _ _ | .pshift rd _ _ | .pgen rd _ => some rd
  | .nop | .rst | .clr | .li _ _ | .lb _ _ | .sb _ _ | .csrr _ _ | .csrw _ _ | .gexp _ _ | .glog _ _
  | .gfmul _ _ _ | .gfadd _ _ _ | .pst _ _ _ | .plen _ _ | .pget _ _ _ | .rsgen | .ilv
  | .bchfmt _ _ _ | .bchver _ _ | .minit | .mplace | .mrd _ _ _ | .mmeta | .mskbit _ _ _ _
  | .mapply _ | .mscore _ _ | .mmask | .encode => none

/-- The address `a` lies in the `n` bytes from `base`. -/
def inArea (a base n : Nat) : Prop := base ≤ a ∧ a < base + n

/-- The bytes of `M` a command of the block may store to (R46): those of `SB` and `PST` from their
address register, the EC area of `RSGEN`, the final stream of `ILV`, both of them for `ENCODE`. -/
def storesTo (i : Instr) (s : State) (a : Nat) : Prop :=
  match i with
  | .sb _ ra => ∃ v, s.readX ra = .ok v ∧ inArea a v.toNat 1
  | .pst _ ra rb => ∃ v n, s.readX ra = .ok v ∧ s.readX rb = .ok n ∧ inArea a v.toNat n.toNat
  | .rsgen => ∃ bl, s.blocks = .ok bl ∧ inArea a s.eaddr.toNat (ecTotal bl)
  | .ilv => ∃ bl, s.blocks = .ok bl ∧ inArea a s.faddr.toNat (s.dlen.toNat + ecTotal bl)
  | .encode =>
    ∃ bl, s.blocks = .ok bl ∧
      (inArea a s.eaddr.toNat (ecTotal bl) ∨ inArea a s.faddr.toNat (s.dlen.toNat + ecTotal bl))
  | _ => False

/-! ### Which command raises what (R268) -/

/-- The sub-causes of `blocks()` (R209). -/
def blockCauses : List SubCause := [.badBlocks, .addrRange, .unwritten]

/-- The sub-causes that R268 gives a command. -/
def causes : Instr → List SubCause
  | .nop | .rst | .clr | .li _ _ => []
  | .lb _ _ => [.unwritten, .addrRange]
  | .sb _ _ => [.unwritten, .elemRange, .addrRange]
  | .csrr _ _ => [.badCsr]
  | .csrw _ _ => [.unwritten, .badCsr]
  | .gexp _ _ => [.unwritten]
  | .glog _ _ => [.unwritten, .glogDomain]
  | .gfmul _ _ _ | .gfadd _ _ _ => [.unwritten, .elemRange]
  | .pld _ _ _ | .pst _ _ _ => [.unwritten, .range, .addrRange]
  | .plen _ _ => [.unwritten]
  | .pget _ _ _ | .pmul _ _ _ | .pshift _ _ _ | .pgen _ _ => [.unwritten, .range]
  | .pmod _ _ _ => [.unwritten, .glogDomain]
  | .bchfmt _ _ _ | .bchver _ _ => [.unwritten, .badConfig]
  | .rsgen | .ilv => .badStage :: blockCauses
  | .minit => [.badStage, .badConfig]
  | .mplace => [.badStage, .addrRange, .unwritten, .capacity]
  | .mrd _ _ _ => [.unwritten, .badStage, .range]
  | .mmeta | .mmask => [.badStage]
  | .mskbit _ _ _ _ => [.unwritten, .badConfig, .range]
  | .mapply _ | .mscore _ _ => [.badStage, .badConfig]
  | .encode => .badStage :: (blockCauses ++ [.badConfig, .capacity])

/-! ### The stage discipline (R256) -/

/-- The `STAGE` values at which R256 allows a command. -/
def allowedAt (i : Instr) (g : Stage) : Bool :=
  match i with
  | .rsgen => decide (g = .idle)
  | .ilv => decide (g = .ecDone)
  | .minit => decide (g = .ilvDone)
  | .mplace => decide (g = .layout)
  | .mapply _ => decide (g = .placed)
  | .mmask => decide (g = .placed)
  | .mmeta => decide (g = .masked)
  | .encode => decide (g = .idle)
  | .mrd _ _ _ => decide (3 ≤ g.code)
  | .mscore _ _ => decide (4 ≤ g.code)
  | _ => true

/-- `STAGE` after a command that did not fault (R256). -/
def stageAfter (i : Instr) (g : Stage) : Stage :=
  match i with
  | .rsgen => .ecDone
  | .ilv => .ilvDone
  | .minit => .layout
  | .mplace => .placed
  | .mapply _ => .placed
  | .mmask => .masked
  | .mmeta => .done
  | .encode => .done
  | .clr => .idle
  | .rst => .idle
  | _ => g

/-- The six stage commands in the order `ENCODE` runs them (R257). -/
def encodeStages : List Instr := [.rsgen, .ilv, .minit, .mplace, .mmask, .mmeta]

/-- The commands `is` issued one after another from `s`, all or nothing: the first that leaves the block
faulted makes it the fault transition of `w` on the state before all of them (R257). -/
def allOrNothing (w : Word) (s0 : State) : List Instr → State → Host.Outcome State Fault Refusal
  | [], s => .next s
  | i :: is, s =>
    match exec i s with
    | .next t =>
      match t.err, t.info with
      | .noError, _ => allOrNothing w s0 is t
      | _, some c => .next (s0.latch c w)
      | _, none => .next t
    | .fault f => .fault f
    | .refused r => .refused r

/-- The EC area of the block list `bl` lies apart from the data codewords and from the block list, so
that what `RSGEN` writes changes nothing that `ILV` reads beside it (R68, R302). -/
def EcAreaApart (s : State) (bl : List Block) : Prop :=
  (s.eaddr.toNat + ecTotal bl ≤ s.daddr.toNat ∨ s.daddr.toNat + s.dlen.toNat ≤ s.eaddr.toNat) ∧
    (s.eaddr.toNat + ecTotal bl ≤ s.baddr.toNat ∨ s.baddr.toNat + 2 * s.nblk.toNat ≤ s.eaddr.toNat)

/-- The place of the cell `(r, c)` in the walk of R238 over a matrix of side `n` all of whose cells were
data cells: pair by pair from the right, column 6 in no pair, the even pairs upward and the odd ones
downward, two cells a row, the right one first. -/
def walkIndex (n : Nat) (rc : Nat × Nat) : Nat :=
  let d := n - 1 - (if 6 < rc.2 then rc.2 else rc.2 + 1)
  let row := if d / 2 % 2 = 0 then n - 1 - rc.1 else rc.1
  (d / 2 * n + row) * 2 + d % 2

/-! ### Invariants -/

/-- Codeword memory has its canonical form. -/
def MemOk (s : State) : Prop := Memory.wf s.mem = true

/-- R24, R26: every written polynomial register holds a trimmed polynomial of 1 to 256 coefficients. -/
def PolyOk (s : State) : Prop := ∀ (r : PReg) (q : Poly), s.p[r] = some q → Poly.wf q = true

/-- R31, R33: either no fault is latched and `ERR`, `INFO`, `ECMD` are 0, or `ERR` is 3 and `INFO` is a
sub-cause; the block never latches `ERR` 1 or 2 (93_implementation_defined.md A11). -/
def FaultOk (s : State) : Prop :=
  (s.err = .noError ∧ s.info = none ∧ s.ecmd = 0) ∨ (s.err = .invalidArgument ∧ s.info ≠ none)

/-- R35, R37, R38: the fields of `CFG` and `DLEN` hold legal values. -/
def CsrOk (s : State) : Prop := s.typenum ≤ 40 ∧ s.masksel ≤ 8 ∧ s.dlen.toNat ≤ 8192

/-- R41 to R43: each result register is 0 before the stage that writes it, `FLEN` and `ELEN` are lengths
inside `M`, and `RESMASK[3]` (`VALID`) is 1 once a mask has been applied. -/
def ResultOk (s : State) : Prop :=
  (s.stage = .idle → s.elen = 0) ∧ (s.stage.code < 2 → s.flen = 0) ∧
    (s.stage.code < 5 → s.resmask = 0 ∧ s.score = 0) ∧ (5 ≤ s.stage.code → s.resmask.getLsbD 3 = true) ∧
    s.elen.toNat ≤ 8192 ∧ s.flen.toNat ≤ 8192

/-- R45: the matrix was allocated for a type number 1 to 40 and is an `N` by `N` square. -/
def Mat.shaped (m : Mat) : Prop :=
  Config.vmin ≤ m.v ∧ m.v ≤ Config.vmax ∧ m.cells.length = m.side ∧
    ∀ row ∈ m.cells, row.length = m.side

/-- What every cell of a matrix holds at the stage `g`: `fn` is `layout`'s for ever (R182, R239, R240); a
cell drawn by the patterns of R228 to R230 keeps its colour (R260); a reserved cell is unset before
`MMETA` (R226); a data cell is unset before `MPLACE` and never after it (R239); in the finished symbol no
cell is unset (R245). -/
def Mat.cellsOk (g : Stage) (m : Mat) : Prop :=
  ∀ r c, r < m.side → c < m.side →
    (m.cell r c).fn = (layoutCell m.v r c).fn ∧
      (∀ x, patternVal m.v r c = some x → (m.cell r c).val = x) ∧
      (patternVal m.v r c = none → (m.cell r c).fn = true →
        ((m.cell r c).val = .unset ↔ g ≠ .done)) ∧
      ((m.cell r c).fn = false → ((m.cell r c).val = .unset ↔ g = .layout))

/-- R45: `MAT` is absent at `STAGE` 0 to 2 and present, well made, at `STAGE` 3 to 6. -/
def MatOk (s : State) : Prop :=
  match s.mat with
  | none => s.stage.code < 3
  | some m => 3 ≤ s.stage.code ∧ m.shaped ∧ m.cellsOk s.stage

/-! ### Polynomials as the spec's properties see them -/

/-- The sum of two polynomials, coefficients aligned at the low end (R146). -/
def polyAdd (a b : Poly) : Poly :=
  let n := max a.length b.length
  trim (addInto (padleft a n) (padleft b n))

/-- The value of a polynomial at the element `x`, highest-degree coefficient first (R207). -/
def polyEval (s : List Byte) (x : Byte) : Byte := s.foldl (fun acc c => gfadd (gfmul acc x) c) 0

/-- The product of two polynomials over GF(2), bit `i` the coefficient of `x^i` (R165). -/
def clmul (q g : Nat) : Nat :=
  (List.range (bitlen q)).foldl (fun acc i => if q.testBit i then acc ^^^ (g <<< i) else acc) 0

end Sys2Proof.Machine
end

