-- ==== Sys2Proof/Certificates/Slice0/Obligations.lean ====
section
/-! DEFINITION. The statements about QRCORE, each a rule or a section of the spec. `exec` is the rule of a
command on a block that is not faulted (R12); the host's ports and the faulted block come before it (R92)
and have statements of their own. A command that cannot go on faults: `Raises i c s` says that the whole
transition is the fault transition of R270 with the sub-cause `c`. Registers are read in the statements as
they are stored: `none` is *unwritten*. -/

open Sys2Proof Sys2Proof.Machine

/-! ### Encoding (spec/30_encoding.md) -/

/-- Every well-formed command survives encoding and decoding, at every value of every operand (R82 to
R86). -/
def Obligations.DecodeEncodeRoundTrip : Prop :=
  ∀ i : Instr, WellFormed i = true → decode (encode i) = .ok i

/-- A legal word is the word of exactly the command it decodes to, and that command is well formed: one
meaning a word, no ignored bits (R89). -/
def Obligations.EncodeDecodeRoundTrip : Prop :=
  ∀ (w : Word) (i : Instr), decode w = .ok i → encode i = w ∧ WellFormed i = true

/-- R93, which the spec derives from R85 to R87: a word passes the test of a command's row of spec/opcode_table.json exactly when it is that command
in legal form; no word passes the tests of two rows; a word that passes none is illegal. -/
def Obligations.LegalWordsAreTableRows : Prop :=
  (∀ (w : Word) (i : Instr), w &&& rowMask i = rowMatch i ↔
      ∃ j, decode w = .ok j ∧ j.mnemonic = i.mnemonic) ∧
    (∀ (w : Word) (i j : Instr), w &&& rowMask i = rowMatch i → w &&& rowMask j = rowMatch j →
      i.mnemonic = j.mnemonic) ∧
    ∀ w : Word, (∀ i, w &&& rowMask i ≠ rowMatch i) ↔ ∃ e, decode w = .error e

/-- The worked encodings of R86, and one illegal word for each check of R87. -/
def Obligations.SpecWordsDecode : Prop :=
  decode 0x08100010 = .ok (.li 1 16) ∧ decode 0x082FFFFF = .ok (.li 2 (-1)) ∧
    decode 0x12312000 = .ok (.gfmul 3 1 2) ∧ decode 0x25312000 = .ok (.pmod 3 1 2) ∧
    decode 0x0C040002 = .ok (.csrw 2 4) ∧ decode 0x48012005 = .ok (.mskbit 0 1 2 5) ∧
    decode 0x60000000 = .ok .encode ∧ decode 0x61000000 = .error .unassignedOpcode ∧
    decode 0x30000001 = .error .nonzeroLowBits ∧ decode 0x08800000 = .error .badRd ∧
    decode 0x22080000 = .error .badRa ∧ decode 0x24004000 = .error .badRb ∧
    decode 0x12312001 = .error .nonzeroImm

/-! ### The step and the host's ports (R72, R92, R295, R305) -/

/-- A step performs the host's next action: a command word decodes and runs its command, an illegal word
faults with `ILLEGAL_CMD`, a faulted block takes only `RST`; the write port writes one byte unless the block
is faulted; hardware reset gives the reset state; with no action waiting nothing changes. The action leaves
`inbox`, the model's own field (log entry 2). -/
def Obligations.StepPerformsHostAction : Prop :=
  ∀ (s : State) (rest : List HostEvent),
    let s' : State := { s with inbox := rest }
    (s.inbox = [] → step s = .next s) ∧
      (∀ w : Word, s.inbox = .command w :: rest →
        (s.err = .noError → ∀ i, decode w = .ok i → step s = exec i s') ∧
          (s.err = .noError → ∀ e, decode w = .error e → step s = .next (s'.latch .illegalCmd w)) ∧
          (s.err ≠ .noError → w = 0x01000000 → step s = .next { State.reset with inbox := rest }) ∧
          (s.err ≠ .noError → w ≠ 0x01000000 → step s = .next s')) ∧
      (∀ (a : BitVec 13) (b : Byte), s.inbox = .memWrite a b :: rest →
        (s.err = .noError → ∃ m, step s = .next { s' with mem := m } ∧ Memory.byteAt m a.toNat = some b ∧
          ∀ k, k ≠ a.toNat → Memory.byteAt m k = Memory.byteAt s.mem k) ∧
          (s.err ≠ .noError → step s = .next s')) ∧
      (s.inbox = .hardReset :: rest → step s = .next { State.reset with inbox := rest }) ∧
      (s.err = .noError → ∀ i, WellFormed i = true →
        step (s.withFetchWord 32 (encode i).toNat) = exec i s)

/-- R271: while the block is faulted, no sequence of command words other than `RST` and of host writes, of
any length, changes anything but the model's own `inbox`. -/
def Obligations.FaultedBlockIsFrozen : Prop :=
  ∀ (s : State) (evs rest : List HostEvent), s.err ≠ .noError → s.inbox = evs ++ rest →
    (∀ e ∈ evs, e ≠ .hardReset ∧ e ≠ .command 0x01000000) →
      Host.Core.run Sys2Proof.core evs.length s = .next { s with inbox := rest }

/-- R272: only `RST` and hardware reset leave the faulted state, and from every state, faulted or not, both
give the full reset state. -/
def Obligations.ResetIsTheOnlyWayOut : Prop :=
  (∀ s t : State, s.err ≠ .noError → step s = .next t → t.err = .noError →
      ∃ rest, (s.inbox = .command 0x01000000 :: rest ∨ s.inbox = .hardReset :: rest) ∧
        t = { State.reset with inbox := rest }) ∧
    ∀ (s : State) (rest : List HostEvent),
      s.inbox = .command 0x01000000 :: rest ∨ s.inbox = .hardReset :: rest →
        step s = .next { State.reset with inbox := rest }

/-- R270: when a word presented to a block that is not faulted leaves it faulted, exactly `ERR`, `INFO` and
`ECMD` have changed; the sub-cause is `ILLEGAL_CMD` exactly when the word is illegal (R273). -/
def Obligations.FaultEntryChangesThree : Prop :=
  ∀ (w : Word) (s t : State), s.err = .noError → commandPort w s = .next t → t.err ≠ .noError →
    ∃ c : SubCause, t = { s with err := .invalidArgument, info := some c, ecmd := w } ∧
      (c = .illegalCmd ↔ ∃ e, decode w = .error e)

/-- R268: a command raises no sub-cause but those its row of the table lists. -/
def Obligations.CommandsRaiseTheirCauses : Prop :=
  ∀ (i : Instr) (s : State) (c : SubCause), s.err = .noError → Raises i c s → c ∈ causes i

/-! ### Reset (R48) -/

/-- The reset state, as the table of R48 has it: the registers, `M` and the matrix hold nothing, every CSR
reads 0. R102: `RST` gives it from every state; the command queue `inbox`, the model's own field, stays (log
entry 5). -/
def Obligations.ResetState : Prop :=
  decode 0x01000000 = .ok .rst ∧
    (∀ s : State, exec .rst s = .next { State.reset with inbox := s.inbox }) ∧
    (∀ r : XReg, State.reset.x[r] = none) ∧ (∀ r : PReg, State.reset.p[r] = none) ∧
    (∀ a : Nat, Memory.byteAt State.reset.mem a = none) ∧ State.reset.err = .noError ∧
    State.reset.info = none ∧ State.reset.stage = .idle ∧ State.reset.mat = none ∧
    ∀ n : Nat, n < 14 → State.reset.csr n = some 0

/-! ### Which command writes which state -/

/-- R22, R25: a command writes no scalar register but its scalar destination and no polynomial register but
its polynomial destination; a written register stays written except by reset. -/
def Obligations.RegisterWriters : Prop :=
  ∀ (i : Instr) (s t : State), i ≠ .rst → exec i s = .next t →
    (∀ r : XReg, scalarDest i ≠ some r → t.x[r] = s.x[r]) ∧
      (∀ r : PReg, polyDest i ≠ some r → t.p[r] = s.p[r]) ∧
      (∀ r : XReg, s.x[r] ≠ none → t.x[r] ≠ none) ∧
      ∀ r : PReg, s.p[r] ≠ none → t.p[r] ≠ none

/-- Every byte of `M` outside the bytes a command stores to reads as before: all of `M` for every command but
`SB`, `PST`, `RSGEN`, `ILV` and `ENCODE` (R46); a written byte stays written (R63). `RST` is not among these
commands. -/
def Obligations.MemoryWriters : Prop :=
  ∀ (i : Instr) (s t : State), i ≠ .rst → exec i s = .next t →
    (∀ a : Nat, ¬ storesTo i s a → Memory.byteAt t.mem a = Memory.byteAt s.mem a) ∧
      ∀ a : Nat, Memory.byteAt s.mem a ≠ none → Memory.byteAt t.mem a ≠ none

/-- Which command writes which control register and the matrix (R31 to R45); only `RST`, which resets all of
them, is left out. A command changes the fault registers only by faulting. -/
def Obligations.ControlAndMatrixWriters : Prop :=
  ∀ (i : Instr) (s t : State), i ≠ .rst → exec i s = .next t →
    ((∀ n ra, i ≠ .csrw n ra) → t.cfg = s.cfg ∧ t.daddr = s.daddr ∧ t.dlen = s.dlen ∧ t.baddr = s.baddr ∧
        t.nblk = s.nblk ∧ t.eaddr = s.eaddr ∧ t.faddr = s.faddr) ∧
      (i ≠ .rsgen → i ≠ .encode → i ≠ .clr → t.elen = s.elen) ∧
      (i ≠ .ilv → i ≠ .encode → i ≠ .clr → t.flen = s.flen) ∧
      (i ≠ .mmask → i ≠ .encode → i ≠ .clr → t.resmask = s.resmask ∧ t.score = s.score) ∧
      ((∀ k, i ≠ .mapply k) → i ≠ .minit → i ≠ .mplace → i ≠ .mmask → i ≠ .mmeta → i ≠ .encode →
        i ≠ .clr → t.mat = s.mat) ∧
      (t.stage = s.stage ∨ t.stage = stageAfter i s.stage) ∧
      ((t.err = s.err ∧ t.info = s.info ∧ t.ecmd = s.ecmd) ∨ ∃ c, t = s.latch c (encode i)) ∧
      t.inbox = s.inbox

/-- R256: a command at a `STAGE` that its row does not allow raises `BAD_STAGE` (for `MRD`, whose registers
are read first, when they are written); a command that does not fault was allowed and leaves the `STAGE` of
its row. -/
def Obligations.StageDiscipline : Prop :=
  ∀ (i : Instr) (s : State), s.err = .noError →
    (allowedAt i s.stage = false →
      (∀ rd ra rb, i = .mrd rd ra rb → s.x[ra] ≠ none ∧ s.x[rb] ≠ none) → Raises i .badStage s) ∧
      ∀ t, exec i s = .next t → t.err = .noError →
        allowedAt i s.stage = true ∧ t.stage = stageAfter i s.stage

/-! ### Invariants of every step -/

/-- The reset state meets every invariant. -/
def Obligations.ResetMeetsInvariants : Prop :=
  MemOk State.reset ∧ PolyOk State.reset ∧ FaultOk State.reset ∧ CsrOk State.reset ∧
    ResultOk State.reset ∧ MatOk State.reset

/-- Memory keeps its canonical form, with every address below `MSIZE` (R61). -/
def Obligations.StepKeepsMemory : Prop :=
  ∀ s t : State, MemOk s → step s = .next t → MemOk t

/-- R26, which the spec derives: every written polynomial register holds a trimmed polynomial; with R24, of 1
to `PMAX` coefficients. -/
def Obligations.StepKeepsPolynomials : Prop :=
  ∀ s t : State, PolyOk s → step s = .next t → PolyOk t

/-- R31, R33: `INFO` and `ECMD` are 0 while `ERR` is 0, and `ERR` is never 1 or 2. R35, R37, R38: `TYPENUM`
stays 0 to 40, `MASKSEL` 0 to 8, `DLEN` 0 to 8192. Each is kept by itself. -/
def Obligations.StepKeepsControlRegisters : Prop :=
  (∀ s t : State, FaultOk s → step s = .next t → FaultOk t) ∧
    ∀ s t : State, CsrOk s → step s = .next t → CsrOk t

/-- R41 to R43: the result registers are 0 before the stage that writes them. -/
def Obligations.StepKeepsResultRegisters : Prop :=
  ∀ s t : State, ResultOk s → step s = .next t → ResultOk t

/-- R45, R226, R239, R245, R260: the matrix is absent or well made for the `STAGE`: a square of side
`17 + 4*V`, its function cells those of `layout`, the patterns of R228 to R230 never overwritten, the data
cells filled from `MPLACE` on, no cell unset in the finished symbol. Rests on the parameters `ALIGN_POS`,
`FMT_CELLS`, `VER_CELLS`, `DARK_CELL` (log entries 12, 13). -/
def Obligations.StepKeepsMatrix : Prop :=
  ∀ s t : State, MatOk s → step s = .next t → MatOk t

/-- From every state whose matrix is well made for its `STAGE` a step answers a next state: the model never
stops where the spec goes on. -/
def Obligations.StepAlwaysAnswers : Prop :=
  ∀ s : State, MatOk s → ∃ t, step s = .next t

/-! ### GF(256) (spec/41_gf_tables.md) -/

/-- R122: the tables are those the construction loop builds, which is back at 1 after 255 turns. R125 to R127:
`gexp`, `glog` and `gfmul` by the tables, at every integer or pair of elements. -/
def Obligations.GfTables : Prop :=
  expTable.length = 255 ∧ logTable.length = 255 ∧ expByLoop 255 = 1 ∧
    (∀ e, e < 255 → expTable[e]? = some (expByLoop e) ∧ logTable[expByLoop e - 1]? = some e) ∧
    (∀ x, 1 ≤ x → x < 256 → ∃ e, e < 255 ∧ expByLoop e = x) ∧
    (∀ e : Int, expTable[(e % 255).toNat]? = some (gexp e).toNat ∧ gexp e ≠ 0) ∧
    (∀ x : Int, (x < 1 ∨ x > 255 → glog x = raise .glogDomain) ∧
      (1 ≤ x → x ≤ 255 → ∃ l, logTable[x.toNat - 1]? = some l ∧ l < 255 ∧ glog x = .ok l)) ∧
    ∀ a b : Byte, (a = 0 ∨ b = 0 → gfmul a b = 0) ∧
      ∀ l k : Nat, glog a.toNat = .ok l → glog b.toNat = .ok k → gfmul a b = gexp ((l : Int) + (k : Int))

/-- R132, which the spec derives: the laws of the field. -/
def Obligations.GfFieldLaws : Prop :=
  ∀ a b c : Byte,
    gfmul a b = gfmul b a ∧ gfmul (gfmul a b) c = gfmul a (gfmul b c) ∧ gfmul a 1 = a ∧
      (gfmul a b = 0 ↔ a = 0 ∨ b = 0) ∧ gfmul a (b ^^^ c) = gfmul a b ^^^ gfmul a c ∧
      (gfmul a 2).toNat = (if a.toNat < 128 then 2 * a.toNat else (2 * a.toNat) ^^^ 0x11D) ∧
      (a ≠ 0 → ∃ l : Nat, glog a.toNat = .ok l ∧ gfmul a (gexp (255 - (l : Int))) = 1)

/-! ### Codeword memory (spec/20_memory.md) -/

/-- R62, R63: what `MemWrite` and `MemRead` do, at every address and length. -/
def Obligations.MemoryReadWrite : Prop :=
  ∀ (s : State) (addr : Int),
    (∀ bs : List Byte, (addr < 0 ∨ addr + (bs.length : Int) > 8192 →
        s.memWrite addr bs = raise .addrRange) ∧
      (0 ≤ addr → addr + (bs.length : Int) ≤ 8192 → ∃ m,
        s.memWrite addr bs = .ok { s with mem := m } ∧
          ∀ a : Nat, Memory.byteAt m a =
            if addr.toNat ≤ a ∧ a < addr.toNat + bs.length then bs[a - addr.toNat]?
            else Memory.byteAt s.mem a)) ∧
      ∀ n : Nat, (addr < 0 ∨ addr + (n : Int) > 8192 → s.memRead addr n = raise .addrRange) ∧
        (0 ≤ addr → addr + (n : Int) ≤ 8192 →
          ((∃ i, i < n ∧ Memory.byteAt s.mem (addr.toNat + i) = none) →
            s.memRead addr n = raise .unwritten) ∧
          ∀ bs : List Byte, bs.length = n →
            (∀ i, i < n → Memory.byteAt s.mem (addr.toNat + i) = bs[i]?) → s.memRead addr n = .ok bs)

/-! ### Polynomials (spec/42_polynomial.md) -/

/-- R143: coefficient `k` of the product before the trim is the sum of the term-products `a[i] * b[k-i]`;
the product of two nonzero polynomials has length `len(a) + len(b) - 1`, any other is `[0]`. -/
def Obligations.PmulConvolves : Prop :=
  ∀ a b : Poly, trimmed a = true → trimmed b = true →
    pmul a b = trim ((List.range (a.length + b.length - 1)).map fun k =>
      (List.range a.length).foldl (fun acc i =>
        if i ≤ k ∧ k - i < b.length then gfadd acc (gfmul (a.getD i 0) (b.getD (k - i) 0)) else acc) 0) ∧
      (a ≠ [0] → b ≠ [0] → (pmul a b).length = a.length + b.length - 1) ∧
      (a = [0] ∨ b = [0] → pmul a b = [0])

/-- R146: the remainder is trimmed, shorter than a nonzero divisor or `[0]`, and differs from the dividend by
a multiple of the divisor; a short dividend is its own remainder; a constant divides everything; the zero
divisor faults exactly on a nonzero dividend. -/
def Obligations.PmodDivides : Prop :=
  ∀ a b : Poly, trimmed a = true → trimmed b = true →
    (b ≠ [0] → ∃ r, pmod a b = .ok r ∧ trimmed r = true ∧ (r = [0] ∨ r.length < b.length) ∧
      (∃ q, trimmed q = true ∧ polyAdd a r = pmul q b) ∧ (a.length < b.length → r = a) ∧
      (b.length = 1 → r = [0])) ∧
      (b = [0] → a = [0] → pmod a b = .ok [0]) ∧ (b = [0] → a ≠ [0] → pmod a b = raise .glogDomain)

/-! ### Reed-Solomon and interleaving (spec/45_rs_interleave.md) -/

/-- R205, R207: `genpoly(n)` has length `n + 1` and leading coefficient 1; `rsec(data, n)` never fails, has
exactly `n` bytes, and the codeword polynomial `data ++ rsec(data, n)` is 0 at `gexp(0), ..., gexp(n-1)`. -/
def Obligations.RsCodewordRoots : Prop :=
  ∀ (data : List Byte) (n : Nat), data ≠ [] → 1 ≤ n →
    (genpoly n).length = n + 1 ∧ (genpoly n).head? = some 1 ∧
      ∃ e, rsec data n = .ok e ∧ e.length = n ∧
        ∀ i : Nat, i < n → polyEval (data ++ e) (gexp i) = 0

/-- R209: the block list: `NBLK` descriptors of two bytes from `BADDR`, refused when there is none, when a
block has no data or no EC codeword, or when the data counts do not add up to `DLEN`, in this order of
checks. -/
def Obligations.BlocksValidated : Prop :=
  ∀ s : State,
    (s.nblk = 0 → s.blocks = raise .badBlocks) ∧
      (s.nblk ≠ 0 → s.baddr.toNat + 2 * s.nblk.toNat > 8192 → s.blocks = raise .addrRange) ∧
      (s.nblk ≠ 0 → s.baddr.toNat + 2 * s.nblk.toNat ≤ 8192 →
        (Memory.bytes s.mem s.baddr.toNat (2 * s.nblk.toNat) = none → s.blocks = raise .unwritten) ∧
        ∀ raw : List Byte, Memory.bytes s.mem s.baddr.toNat (2 * s.nblk.toNat) = some raw →
          let bl : List Block := (List.range s.nblk.toNat).map fun b =>
            ⟨(raw.getD (2 * b) 0).toNat, (raw.getD (2 * b + 1) 0).toNat⟩
          s.blocks =
            if (∃ b ∈ bl, b.data < 1 ∨ b.data ≥ b.total) ∨ (bl.map Block.data).sum ≠ s.dlen.toNat then
              raise .badBlocks
            else .ok bl)

/-- R211: where each byte goes in the final stream: element `i` of block `b`'s data stands after the elements
of every block below index `i` and the elements `i` of the blocks before `b`; the EC bytes follow the data
bytes in the same order; the length is the sum of the lengths. -/
def Obligations.InterleaveOrder : Prop :=
  ∀ datas ecs : List (List Byte),
    (interleave datas ecs).length = (datas.map List.length).sum + (ecs.map List.length).sum ∧
      (∀ (b i : Nat) (l : List Byte) (x : Byte), datas[b]? = some l → l[i]? = some x →
        (interleave datas ecs)[(datas.map fun d => min d.length i).sum +
          (datas.take b).countP fun d => decide (i < d.length)]? = some x) ∧
      ∀ (b i : Nat) (l : List Byte) (x : Byte), ecs[b]? = some l → l[i]? = some x →
        (interleave datas ecs)[(datas.map List.length).sum + ((ecs.map fun d => min d.length i).sum +
          (ecs.take b).countP fun d => decide (i < d.length))]? = some x

/-! ### BCH (spec/43_bch_metadata.md) -/

/-- R165: `bchreduce(d, g)` is the remainder of `d` divided by `g` as polynomials over GF(2). R174, which the
spec derives: the metadata words pass the BCH check and hold their payload. -/
def Obligations.BchReduceIsRemainder : Prop :=
  (∀ d g : Nat, 0 < g → bitlen (bchreduce d g) < bitlen g ∧ ∃ q, d ^^^ bchreduce d g = clmul q g) ∧
    (∀ ecl k : Nat, ecl ≤ 3 → k ≤ 7 → bchreduce (bchfmt ecl k ^^^ 0x5412) 0x537 = 0 ∧
      (bchfmt ecl k ^^^ 0x5412) >>> 10 = (ecl <<< 3) ||| k) ∧
    ∀ v : Nat, v ≤ 63 → bchreduce (bchver v) 0x1F25 = 0 ∧ bchver v >>> 12 = v

/-! ### Masks and penalties (spec/44_mask.md) -/

/-- R182: `applymask` flips exactly the data cells where the pattern is true and changes no `fn`. R183, which
the spec derives: it is its own inverse. R182 is about a matrix whose data cells are dark or light; that a
data cell still unset stays unset, which the statement covers too, is the model's choice (log entry 16). -/
def Obligations.ApplymaskTwice : Prop :=
  ∀ (m : Mat) (k : Nat), m.shaped → k ≤ 7 →
    applymask (applymask m k) k = m ∧ (applymask m k).v = m.v ∧
      ∀ r c, r < m.side → c < m.side →
        (applymask m k).cell r c =
          if (m.cell r c).fn = false ∧ maskfn k r c = true then ⟨(m.cell r c).val.flip, false⟩
          else m.cell r c

/-- R190: `choosemask` is the least pattern of the least penalty. -/
def Obligations.ChoosemaskLeast : Prop :=
  ∀ m : Mat, choosemask m ≤ 7 ∧
    (∀ j, j ≤ 7 → penalty (applymask m (choosemask m)) ≤ penalty (applymask m j)) ∧
    ∀ j, j < choosemask m → penalty (applymask m (choosemask m)) < penalty (applymask m j)

/-- R185 to R188 on a square grid, each rule by counting: the runs of a line from their starts, the 2x2
blocks from their corners, the 11-cell windows from their starts, the dark cells against the half. Rule (c)
is the reading `window11` of `PEN_C_MODE` (log entry 14). -/
def Obligations.PenaltyRules : Prop :=
  ∀ g : List (List Bool), (∀ row ∈ g, row.length = g.length) →
    let n := g.length
    let at' (r c : Nat) : Bool := (g.getD r []).getD c false
    let lines : List (List Bool) :=
      g ++ (List.range n).map fun c => (List.range n).map fun r => at' r c
    penA g = (lines.map fun l => ((List.range n).map fun i =>
        if i = 0 ∨ l[i - 1]? ≠ l[i]? then
          let len := ((l.drop i).takeWhile fun b => some b = l[i]?).length
          if 5 ≤ len then 3 + (len - 5) else 0
        else 0).sum).sum ∧
      penB g = ((List.range (n - 1)).map fun r => ((List.range (n - 1)).map fun c =>
        if at' r c = at' r (c + 1) ∧ at' r c = at' (r + 1) c ∧ at' r c = at' (r + 1) (c + 1) then 3
        else 0).sum).sum ∧
      penC g = (lines.map fun l => ((List.range (n - 10)).map fun i =>
        (if (l.drop i).take 11 =
            [true, false, true, true, true, false, true, false, false, false, false] then 40 else 0) +
          if (l.drop i).take 11 =
            [false, false, false, false, true, false, true, true, true, false, true] then 40 else 0).sum).sum ∧
      (0 < n → (penD g : Int) = 10 * ⌊|(100 * (darkCount g : ℚ)) / ((n : ℚ) * n) - 50| / 5⌋) ∧
      darkCount g = ((List.range n).map fun r => ((List.range n).map fun c =>
        if at' r c then 1 else 0).sum).sum

/-- R184: the grid that is scored has 1 exactly where a cell is dark, so an unset cell counts as light. R189,
which the spec derives: the bounds of the four penalties and of their sum; that of rule (c), and so that of
the sum, rests on the reading `window11` of `PEN_C_MODE` (log entry 14). -/
def Obligations.PenaltyBounds : Prop :=
  ∀ m : Mat, m.shaped →
    (scoreGrid m).length = m.side ∧
      (∀ r c : Nat, r < m.side → c < m.side → ∃ row : List Bool, (scoreGrid m)[r]? = some row ∧
        row.length = m.side ∧ row[c]? = some (decide ((m.cell r c).val = .dark))) ∧
      penA (scoreGrid m) ≤ 62658 ∧ penB (scoreGrid m) ≤ 92928 ∧ penC (scoreGrid m) ≤ 2364720 ∧
      penD (scoreGrid m) ≤ 100 ∧ penalty m < 2 ^ 22 ∧
      penalty m = penA (scoreGrid m) + penB (scoreGrid m) + penC (scoreGrid m) + penD (scoreGrid m)

/-! ### The matrix (spec/46_matrix.md) -/

/-- R236 with R227 to R235: every cell of `layout(v)`: the finder patterns and separators, the timing
patterns, the alignment patterns that are not skipped, the reserved cells (unset, `fn` 1), and every cell
outside all of these areas a data cell, unset. Rests on the parameters `ALIGN_POS`, `FMT_CELLS`, `VER_CELLS`,
`DARK_CELL` and on pattern shapes that the spec takes from general knowledge (log entries 12, 13, 19). -/
def Obligations.LayoutDrawsPatterns : Prop :=
  ∀ v : Nat, 1 ≤ v → v ≤ 40 →
    let n := 17 + 4 * v
    let corners : List (Nat × Nat) := [(0, 0), (n - 7, 0), (0, n - 7)]
    let inFinder (r0 c0 r c : Nat) : Prop := r0 ≤ r + 1 ∧ r ≤ r0 + 7 ∧ c0 ≤ c + 1 ∧ c ≤ c0 + 7
    let drawn (r0 c0 : Nat) : Prop :=
      r0 ∈ alignPos v ∧ c0 ∈ alignPos v ∧
        ¬((r0 ≤ 6 ∧ c0 ≤ 6) ∨ (r0 ≤ 6 ∧ n - 7 ≤ c0) ∨ (n - 7 ≤ r0 ∧ c0 ≤ 6))
    (layout v).v = v ∧ (layout v).shaped ∧
      (∀ r0 c0 r c : Nat, (r0, c0) ∈ corners → r < n → c < n → inFinder r0 c0 r c →
        let dr : Int := (r : Int) - (r0 : Int)
        let dc : Int := (c : Int) - (c0 : Int)
        (layout v).cell r c =
          ⟨if (0 ≤ dr ∧ dr ≤ 6 ∧ (dc = 0 ∨ dc = 6)) ∨ (0 ≤ dc ∧ dc ≤ 6 ∧ (dr = 0 ∨ dr = 6)) ∨
            (2 ≤ dr ∧ dr ≤ 4 ∧ 2 ≤ dc ∧ dc ≤ 4) then .dark else .light, true⟩) ∧
      (∀ i : Nat, 8 ≤ i → i + 9 ≤ n →
        let x := if i % 2 = 0 then CellVal.dark else CellVal.light
        (layout v).cell 6 i = ⟨x, true⟩ ∧ (layout v).cell i 6 = ⟨x, true⟩) ∧
      (∀ r0 c0 dr dc : Nat, drawn r0 c0 → dr ≤ 4 → dc ≤ 4 →
        (layout v).cell (r0 + dr - 2) (c0 + dc - 2) =
          ⟨if dr = 0 ∨ dr = 4 ∨ dc = 0 ∨ dc = 4 ∨ (dr = 2 ∧ dc = 2) then .dark else .light, true⟩) ∧
      (∀ r c : Nat, r < n → c < n → (reserved v r c = true ↔
        (c = 8 ∧ ((r ≤ 8 ∧ r ≠ 6) ∨ n - 8 ≤ r)) ∨ (r = 8 ∧ ((c ≤ 7 ∧ c ≠ 6) ∨ n - 8 ≤ c)) ∨
          (7 ≤ v ∧ ((r ≤ 5 ∧ n - 11 ≤ c ∧ c ≤ n - 9) ∨ (c ≤ 5 ∧ n - 11 ≤ r ∧ r ≤ n - 9))))) ∧
      (∀ r c : Nat, reserved v r c = true → (layout v).cell r c = ⟨.unset, true⟩) ∧
      ∀ r c : Nat, r < n → c < n → (∀ r0 c0 : Nat, (r0, c0) ∈ corners → ¬inFinder r0 c0 r c) →
        ¬(r = 6 ∧ 8 ≤ c ∧ c + 9 ≤ n) → ¬(c = 6 ∧ 8 ≤ r ∧ r + 9 ≤ n) →
        (∀ r0 c0 : Nat, drawn r0 c0 → ¬(r0 ≤ r + 2 ∧ r ≤ r0 + 2 ∧ c0 ≤ c + 2 ∧ c ≤ c0 + 2)) →
        reserved v r c = false → (layout v).cell r c = ⟨.unset, false⟩

/-- R238: the walk visits every data cell (column 6 has none in a matrix of `layout`), each once, in the
order of the walk, and `freecells(V)` of them. Right before left within a pair is from general knowledge (log
entry 19). -/
def Obligations.PlaceorderWalks : Prop :=
  ∀ m : Mat, m.shaped →
    (∀ r c, (r, c) ∈ placeorder m ↔ r < m.side ∧ c < m.side ∧ c ≠ 6 ∧ (m.cell r c).fn = false) ∧
      (placeorder m).Pairwise (fun a b => walkIndex m.side a < walkIndex m.side b) ∧
      ((∀ r c, r < m.side → c < m.side → (m.cell r c).fn = (layoutCell m.v r c).fn) →
        (placeorder m).length = freecells m.v)

/-- R239: the `k`-th cell of the walk gets bit `k` of the stream, dark for 1, light for 0 and past the end of
the stream; `fn` and every other cell are unchanged. -/
def Obligations.PlaceWritesStream : Prop :=
  ∀ (m : Mat) (f : List Byte), m.shaped →
    (∀ (k : Nat) (rc : Nat × Nat), (placeorder m)[k]? = some rc →
      ((place m f).cell rc.1 rc.2).val =
        if k < 8 * f.length ∧ (f.getD (k / 8) 0).getLsbD (7 - k % 8) = true then .dark else .light) ∧
      (∀ r c, ((place m f).cell r c).fn = (m.cell r c).fn) ∧
      (∀ r c, (r, c) ∉ placeorder m → (place m f).cell r c = m.cell r c) ∧
      (place m f).v = m.v ∧ (place m f).shaped

/-- R240: the bits of the format and version information and the dark cell, in both copies; `fn` and every
other cell are unchanged. The cells and the colour of a 1 bit are from general knowledge (log entries 13,
19). -/
def Obligations.WritemetaWritesBits : Prop :=
  ∀ (m : Mat) (ecl k : Nat), m.shaped → ecl ≤ 3 → k ≤ 7 →
    let t := writemeta m ecl k
    let n := m.side
    let colour (b : Bool) : CellVal := if b then .dark else .light
    (∀ i, i < 15 → (t.cell (fmtCellA n i).1 (fmtCellA n i).2).val = colour ((bchfmt ecl k).testBit i) ∧
        (t.cell (fmtCellB n i).1 (fmtCellB n i).2).val = colour ((bchfmt ecl k).testBit i)) ∧
      (t.cell (darkCell n).1 (darkCell n).2).val = .dark ∧
      (7 ≤ m.v → ∀ i, i < 18 →
        (t.cell (verCellA n i).1 (verCellA n i).2).val = colour ((bchver m.v).testBit i) ∧
          (t.cell (verCellB n i).1 (verCellB n i).2).val = colour ((bchver m.v).testBit i)) ∧
      (∀ r c, (t.cell r c).fn = (m.cell r c).fn) ∧
      (∀ r c, reserved m.v r c = false → t.cell r c = m.cell r c) ∧ t.v = m.v ∧ t.shaped

/-! ### `ENCODE` (spec/47_encode.md) -/

/-- R257: `ENCODE` is the six stage commands in sequence, all or nothing: the first inner fault makes it the
fault transition with `ECMD = 0x60000000` on the state before all of them. -/
def Obligations.EncodeIsStagesInSequence : Prop :=
  encode .encode = 0x60000000 ∧
    ∀ s : State, s.err = .noError → exec .encode s = allOrNothing (encode .encode) s encodeStages s

/-- `ENCODE` completes on every state that is set up as R299 says: a good block list, the data codewords
written, the EC area and the final stream inside `M`, the EC area apart from the data and the block list, a
type number, and a stream that fits. The next state holds the EC codewords of every block, the interleaved
stream, and the finished symbol; everything else is as before. -/
def Obligations.EncodeCompletes : Prop :=
  ∀ (s : State) (bl : List Block) (d : List Byte), s.stage = .idle → s.blocks = .ok bl →
    s.daddr.toNat + s.dlen.toNat ≤ 8192 → Memory.bytes s.mem s.daddr.toNat s.dlen.toNat = some d →
    s.eaddr.toNat + ecTotal bl ≤ 8192 → s.faddr.toNat + (s.dlen.toNat + ecTotal bl) ≤ 8192 →
    EcAreaApart s bl → 1 ≤ s.typenum → s.typenum ≤ 40 → s.masksel ≤ 8 →
    8 * (s.dlen.toNat + ecTotal bl) ≤ freecells s.typenum →
      ∃ datas ecs : List (List Byte),
        (datas.length = bl.length ∧ ecs.length = bl.length ∧ ∀ (b : Nat) (x : Block), bl[b]? = some x →
          datas[b]? = some ((d.drop (dataTotal (bl.take b))).take x.data) ∧
          ∃ e, ecs[b]? = some e ∧ e.length = x.ec ∧
            rsec ((d.drop (dataTotal (bl.take b))).take x.data) x.ec = .ok e) ∧
        let f := interleave datas ecs
        let m := place (layout s.typenum) f
        let k := if s.masksel = 8 then choosemask m else s.masksel
        f.length = s.dlen.toNat + ecTotal bl ∧
          exec .encode s = .next { s with
            mem := Memory.putBytes (Memory.putBytes s.mem s.eaddr.toNat ecs.flatten) s.faddr.toNat f
            elen := BitVec.ofNat 14 (ecTotal bl)
            flen := BitVec.ofNat 14 (s.dlen.toNat + ecTotal bl)
            resmask := BitVec.ofNat 4 (8 ||| k)
            score := BitVec.ofNat 31 (penalty (applymask m k))
            mat := some (writemeta (applymask m k) s.ecl k)
            stage := .done }

/-- R260, which the spec derives: the symbol, `RESMASK`, `SCORE`, `FLEN`, `ELEN`, the EC area and the final stream depend on `CFG`,
the data codewords and the block list alone: two passes with the same of these, wherever they lie in `M` and
whatever else the two states hold, give the same of those; and every cell that R228 to R230 set still has the
value they give. -/
def Obligations.EncodeIsPure : Prop :=
  ∀ s1 s2 t1 t2 : State, s1.err = .noError → s2.err = .noError →
    exec .encode s1 = .next t1 → t1.err = .noError → exec .encode s2 = .next t2 → t2.err = .noError →
    s1.cfg = s2.cfg → s1.dlen = s2.dlen → s1.nblk = s2.nblk →
    (∀ i, i < s1.dlen.toNat →
      Memory.byteAt s1.mem (s1.daddr.toNat + i) = Memory.byteAt s2.mem (s2.daddr.toNat + i)) →
    (∀ i, i < 2 * s1.nblk.toNat →
      Memory.byteAt s1.mem (s1.baddr.toNat + i) = Memory.byteAt s2.mem (s2.baddr.toNat + i)) →
    (∀ bl, s1.blocks = .ok bl → EcAreaApart s1 bl ∧
      (s1.eaddr.toNat + ecTotal bl ≤ s1.faddr.toNat ∨
        s1.faddr.toNat + (s1.dlen.toNat + ecTotal bl) ≤ s1.eaddr.toNat)) →
    (∀ bl, s2.blocks = .ok bl → EcAreaApart s2 bl ∧
      (s2.eaddr.toNat + ecTotal bl ≤ s2.faddr.toNat ∨
        s2.faddr.toNat + (s2.dlen.toNat + ecTotal bl) ≤ s2.eaddr.toNat)) →
      t1.mat = t2.mat ∧ t1.resmask = t2.resmask ∧ t1.score = t2.score ∧ t1.flen = t2.flen ∧
        t1.elen = t2.elen ∧
        (∀ i, i < t1.flen.toNat →
          Memory.byteAt t1.mem (t1.faddr.toNat + i) = Memory.byteAt t2.mem (t2.faddr.toNat + i)) ∧
        (∀ i, i < t1.elen.toNat →
          Memory.byteAt t1.mem (t1.eaddr.toNat + i) = Memory.byteAt t2.mem (t2.eaddr.toNat + i)) ∧
        ∃ m, t1.mat = some m ∧ ∀ r c x, r < m.side → c < m.side → patternVal m.v r c = some x →
          m.cell r c = ⟨x, true⟩

/-! ### Commands: system and data movement (spec/40_system.md). Each statement gives, for every operand and
every state, the word's decoding, every fault in the order of its checks, and the whole next state, so what
it does not name is unchanged. -/

/-- R101, R103, R104. -/
def Obligations.NopClrLiResults : Prop :=
  ∀ s : State,
    decode 0x00000000 = .ok .nop ∧ exec .nop s = .next s ∧
      decode 0x02000000 = .ok .clr ∧
      exec .clr s = .next { s with
        stage := .idle, flen := 0, elen := 0, resmask := 0, score := 0, mat := none } ∧
      ∀ (rd : XReg) (imm : BitVec 20),
        decode (packI 0x08 (xBits rd) imm) = .ok (.li rd imm.toInt) ∧
          exec (.li rd imm.toInt) s = .next { s with x := s.x.set rd (some (imm.signExtend 32)) }

/-- R105, R106: `rd` of `SB` is a source, and is read first. -/
def Obligations.LbSbResults : Prop :=
  (∀ (rd ra : XReg) (s : State),
      decode (packR 0x09 (xBits rd) (xBits ra) 0 0) = .ok (.lb rd ra) ∧
        (s.x[ra] = none → Raises (.lb rd ra) .unwritten s) ∧
        ∀ a : Word, s.x[ra] = some a →
          (a.toInt < 0 ∨ a.toInt > 8191 → Raises (.lb rd ra) .addrRange s) ∧
            (0 ≤ a.toInt → a.toInt ≤ 8191 →
              (Memory.byteAt s.mem a.toNat = none → Raises (.lb rd ra) .unwritten s) ∧
              ∀ b : Byte, Memory.byteAt s.mem a.toNat = some b →
                exec (.lb rd ra) s = .next { s with x := s.x.set rd (some (b.setWidth 32)) })) ∧
  (∀ (rd ra : XReg) (s : State),
      decode (packR 0x0A (xBits rd) (xBits ra) 0 0) = .ok (.sb rd ra) ∧
        (s.x[rd] = none ∨ s.x[ra] = none → Raises (.sb rd ra) .unwritten s) ∧
        ∀ v a : Word, s.x[rd] = some v → s.x[ra] = some a →
          (v.toInt < 0 ∨ v.toInt > 255 → Raises (.sb rd ra) .elemRange s) ∧
            (0 ≤ v.toInt → v.toInt ≤ 255 →
              (a.toInt < 0 ∨ a.toInt > 8191 → Raises (.sb rd ra) .addrRange s) ∧
              (0 ≤ a.toInt → a.toInt ≤ 8191 → ∃ m : Memory,
                exec (.sb rd ra) s = .next { s with mem := m } ∧
                  Memory.byteAt m a.toNat = some (v.setWidth 8) ∧
                  ∀ k, k ≠ a.toNat → Memory.byteAt m k = Memory.byteAt s.mem k)))

/-- R107, with the values of R29 to R44; R30: the fields of `STATUS`, which reads `STAGE << 4` while no fault
is latched. -/
def Obligations.CsrrResult : Prop :=
  (∀ (rd : XReg) (n : BitVec 12) (s : State),
      decode (packR 0x0B (xBits rd) 0 0 n) = .ok (.csrr rd n.toNat) ∧
        (n.toNat > 13 → Raises (.csrr rd n.toNat) .badCsr s) ∧
        ∀ v : Nat,
          [s.status, s.ecmd.toNat, s.cfg.toNat, s.daddr.toNat, s.dlen.toNat, s.baddr.toNat, s.nblk.toNat,
            s.eaddr.toNat, s.faddr.toNat, s.flen.toNat, s.elen.toNat, s.resmask.toNat, s.score.toNat,
            (match s.mat with
              | none => 0
              | some m => 17 + 4 * m.v)][n.toNat]? = some v →
            exec (.csrr rd n.toNat) s = .next { s with x := s.x.set rd (some (BitVec.ofNat 32 v)) }) ∧
  (∀ s : State,
      let w : Word := BitVec.ofNat 32 s.status
      (w.extractLsb' 0 2).toNat = s.err.code ∧ w.extractLsb' 2 2 = 0 ∧
        (w.extractLsb' 4 3).toNat = s.stage.code ∧ w.extractLsb' 7 1 = 0 ∧
        (w.extractLsb' 8 8).toNat = s.infoCode ∧ w.extractLsb' 16 16 = 0 ∧
        (s.err = .noError → FaultOk s → s.status = 16 * s.stage.code))

/-- R108. -/
def Obligations.CsrwResult : Prop :=
  ∀ (n : BitVec 12) (ra : XReg) (s : State),
    decode (packR 0x0C 0 (xBits ra) 0 n) = .ok (.csrw n.toNat ra) ∧
      (s.x[ra] = none → Raises (.csrw n.toNat ra) .unwritten s) ∧
      ∀ v : Word, s.x[ra] = some v →
        (n.toNat < 2 ∨ n.toNat > 8 → Raises (.csrw n.toNat ra) .badCsr s) ∧
        (if v.toInt < 0 ∨ v.toInt > 0xFFF ∨ (v.extractLsb' 0 6).toNat > 40 ∨
            (v.extractLsb' 8 4).toNat > 8 then Raises (.csrw 2 ra) .badCsr s
          else exec (.csrw 2 ra) s = .next { s with cfg := v.setWidth 12 }) ∧
        (if v.toInt < 0 ∨ v.toInt > 8191 then
            Raises (.csrw 3 ra) .badCsr s ∧ Raises (.csrw 5 ra) .badCsr s ∧
              Raises (.csrw 7 ra) .badCsr s ∧ Raises (.csrw 8 ra) .badCsr s
          else
            exec (.csrw 3 ra) s = .next { s with daddr := v.setWidth 13 } ∧
              exec (.csrw 5 ra) s = .next { s with baddr := v.setWidth 13 } ∧
              exec (.csrw 7 ra) s = .next { s with eaddr := v.setWidth 13 } ∧
              exec (.csrw 8 ra) s = .next { s with faddr := v.setWidth 13 }) ∧
        (if v.toInt < 0 ∨ v.toInt > 8192 then Raises (.csrw 4 ra) .badCsr s
          else exec (.csrw 4 ra) s = .next { s with dlen := v.setWidth 14 }) ∧
        (if v.toInt < 0 ∨ v.toInt > 255 then Raises (.csrw 6 ra) .badCsr s
          else exec (.csrw 6 ra) s = .next { s with nblk := v.setWidth 8 })

/-! ### Commands: GF(256) (spec/41_gf_tables.md) -/

/-- R128: any exponent; the result is never 0. R129: the discrete logarithm: the exponent 0 to 254 whose power
is the element. -/
def Obligations.GexpGlogResults : Prop :=
  (∀ (rd ra : XReg) (s : State),
      decode (packR 0x10 (xBits rd) (xBits ra) 0 0) = .ok (.gexp rd ra) ∧
        (s.x[ra] = none → Raises (.gexp rd ra) .unwritten s) ∧
        ∀ a : Word, s.x[ra] = some a → gexp a.toInt ≠ 0 ∧
          exec (.gexp rd ra) s = .next { s with x := s.x.set rd (some ((gexp a.toInt).setWidth 32)) }) ∧
  (∀ (rd ra : XReg) (s : State),
      decode (packR 0x11 (xBits rd) (xBits ra) 0 0) = .ok (.glog rd ra) ∧
        (s.x[ra] = none → Raises (.glog rd ra) .unwritten s) ∧
        ∀ a : Word, s.x[ra] = some a →
          (a.toInt < 1 ∨ a.toInt > 255 → Raises (.glog rd ra) .glogDomain s) ∧
            (1 ≤ a.toInt → a.toInt ≤ 255 → ∃ l : Nat, l < 255 ∧ (gexp l).toNat = a.toNat ∧
              exec (.glog rd ra) s = .next { s with x := s.x.set rd (some (BitVec.ofNat 32 l)) }))

/-- R130, R131. -/
def Obligations.GfmulGfaddResults : Prop :=
  ∀ (rd ra rb : XReg) (s : State),
    decode (packR 0x12 (xBits rd) (xBits ra) (xBits rb) 0) = .ok (.gfmul rd ra rb) ∧
      decode (packR 0x13 (xBits rd) (xBits ra) (xBits rb) 0) = .ok (.gfadd rd ra rb) ∧
      (s.x[ra] = none ∨ s.x[rb] = none →
        Raises (.gfmul rd ra rb) .unwritten s ∧ Raises (.gfadd rd ra rb) .unwritten s) ∧
      ∀ a b : Word, s.x[ra] = some a → s.x[rb] = some b →
        (a.toInt < 0 ∨ a.toInt > 255 ∨ b.toInt < 0 ∨ b.toInt > 255 →
          Raises (.gfmul rd ra rb) .elemRange s ∧ Raises (.gfadd rd ra rb) .elemRange s) ∧
          (0 ≤ a.toInt → a.toInt ≤ 255 → 0 ≤ b.toInt → b.toInt ≤ 255 →
            exec (.gfmul rd ra rb) s = .next { s with
              x := s.x.set rd (some ((gfmul (a.setWidth 8) (b.setWidth 8)).setWidth 32)) } ∧
            exec (.gfadd rd ra rb) s = .next { s with x := s.x.set rd (some (a ^^^ b)) })

/-! ### Commands: polynomials (spec/42_polynomial.md) -/

/-- R147. -/
def Obligations.PldResult : Prop :=
  ∀ (rd : PReg) (ra rb : XReg) (s : State),
    decode (packR 0x20 (pBits rd) (xBits ra) (xBits rb) 0) = .ok (.pld rd ra rb) ∧
      (s.x[ra] = none ∨ s.x[rb] = none → Raises (.pld rd ra rb) .unwritten s) ∧
      ∀ a n : Word, s.x[ra] = some a → s.x[rb] = some n →
        (n.toInt < 1 ∨ n.toInt > 256 → Raises (.pld rd ra rb) .range s) ∧
          (1 ≤ n.toInt → n.toInt ≤ 256 →
            (a.toInt < 0 ∨ a.toInt + n.toInt > 8192 → Raises (.pld rd ra rb) .addrRange s) ∧
            (0 ≤ a.toInt → a.toInt + n.toInt ≤ 8192 →
              ((∃ i, i < n.toNat ∧ Memory.byteAt s.mem (a.toNat + i) = none) →
                Raises (.pld rd ra rb) .unwritten s) ∧
              ∀ bs : List Byte, bs.length = n.toNat →
                (∀ i, i < n.toNat → Memory.byteAt s.mem (a.toNat + i) = bs[i]?) →
                  exec (.pld rd ra rb) s = .next { s with p := s.p.set rd (some (trim bs)) }))

/-- R148: `rd` is a source; the coefficients are stored with leading zeros up to the length. -/
def Obligations.PstResult : Prop :=
  ∀ (rd : PReg) (ra rb : XReg) (s : State),
    decode (packR 0x21 (pBits rd) (xBits ra) (xBits rb) 0) = .ok (.pst rd ra rb) ∧
      (s.p[rd] = none ∨ s.x[ra] = none ∨ s.x[rb] = none → Raises (.pst rd ra rb) .unwritten s) ∧
      ∀ (q : Poly) (a n : Word), s.p[rd] = some q → s.x[ra] = some a → s.x[rb] = some n →
        (n.toInt < q.length ∨ n.toInt > 256 → Raises (.pst rd ra rb) .range s) ∧
          ((q.length : Int) ≤ n.toInt → n.toInt ≤ 256 →
            (a.toInt < 0 ∨ a.toInt + n.toInt > 8192 → Raises (.pst rd ra rb) .addrRange s) ∧
            (0 ≤ a.toInt → a.toInt + n.toInt ≤ 8192 → ∃ m : Memory,
              exec (.pst rd ra rb) s = .next { s with mem := m } ∧
                ∀ k, Memory.byteAt m k =
                  if a.toNat ≤ k ∧ k < a.toNat + n.toNat then
                    (List.replicate (n.toNat - q.length) (0 : Byte) ++ q)[k - a.toNat]?
                  else Memory.byteAt s.mem k))

/-- R149, R150. -/
def Obligations.PlenPgetResults : Prop :=
  ∀ (rd : XReg) (ra : PReg) (rb : XReg) (s : State),
    decode (packR 0x22 (xBits rd) (pBits ra) 0 0) = .ok (.plen rd ra) ∧
      decode (packR 0x23 (xBits rd) (pBits ra) (xBits rb) 0) = .ok (.pget rd ra rb) ∧
      (s.p[ra] = none → Raises (.plen rd ra) .unwritten s) ∧
      (s.p[ra] = none ∨ s.x[rb] = none → Raises (.pget rd ra rb) .unwritten s) ∧
      ∀ q : Poly, s.p[ra] = some q →
        exec (.plen rd ra) s = .next { s with x := s.x.set rd (some (BitVec.ofNat 32 q.length)) } ∧
          ∀ i : Word, s.x[rb] = some i →
            (i.toInt < 0 ∨ i.toInt ≥ q.length → Raises (.pget rd ra rb) .range s) ∧
              ∀ c : Byte, 0 ≤ i.toInt → q[i.toNat]? = some c →
                exec (.pget rd ra rb) s = .next { s with x := s.x.set rd (some (c.setWidth 32)) }

/-- R151, R153: the length checks are made on the untrimmed lengths. -/
def Obligations.PmulPshiftResults : Prop :=
  (∀ (rd ra rb : PReg) (s : State),
      decode (packR 0x24 (pBits rd) (pBits ra) (pBits rb) 0) = .ok (.pmul rd ra rb) ∧
        (s.p[ra] = none ∨ s.p[rb] = none → Raises (.pmul rd ra rb) .unwritten s) ∧
        ∀ a b : Poly, s.p[ra] = some a → s.p[rb] = some b →
          (a.length + b.length - 1 > 256 → Raises (.pmul rd ra rb) .range s) ∧
            (a.length + b.length - 1 ≤ 256 →
              exec (.pmul rd ra rb) s = .next { s with p := s.p.set rd (some (pmul a b)) })) ∧
  (∀ (rd ra : PReg) (rb : XReg) (s : State),
      decode (packR 0x26 (pBits rd) (pBits ra) (xBits rb) 0) = .ok (.pshift rd ra rb) ∧
        (s.p[ra] = none ∨ s.x[rb] = none → Raises (.pshift rd ra rb) .unwritten s) ∧
        ∀ (a : Poly) (n : Word), s.p[ra] = some a → s.x[rb] = some n →
          (n.toInt < 0 ∨ (a.length : Int) + n.toInt > 256 → Raises (.pshift rd ra rb) .range s) ∧
            (0 ≤ n.toInt → (a.length : Int) + n.toInt ≤ 256 →
              exec (.pshift rd ra rb) s = .next { s with
                p := s.p.set rd (some (trim (a ++ List.replicate n.toNat 0))) }))

/-- R152: a zero divisor faults unless the dividend is zero too. -/
def Obligations.PmodResult : Prop :=
  ∀ (rd ra rb : PReg) (s : State),
    decode (packR 0x25 (pBits rd) (pBits ra) (pBits rb) 0) = .ok (.pmod rd ra rb) ∧
      (s.p[ra] = none ∨ s.p[rb] = none → Raises (.pmod rd ra rb) .unwritten s) ∧
      ∀ a b : Poly, s.p[ra] = some a → s.p[rb] = some b → trimmed a = true → trimmed b = true →
        (b = [0] → a ≠ [0] → Raises (.pmod rd ra rb) .glogDomain s) ∧
          (b ≠ [0] ∨ a = [0] → ∃ r, pmod a b = .ok r ∧ r.length ≤ a.length ∧
            exec (.pmod rd ra rb) s = .next { s with p := s.p.set rd (some r) })

/-! ### Commands: Reed-Solomon and interleaving (spec/45_rs_interleave.md) -/

/-- R212: the length of the result is `n + 1`. -/
def Obligations.PgenResult : Prop :=
  ∀ (rd : PReg) (ra : XReg) (s : State),
    decode (packR 0x27 (pBits rd) (xBits ra) 0 0) = .ok (.pgen rd ra) ∧
      (s.x[ra] = none → Raises (.pgen rd ra) .unwritten s) ∧
      ∀ n : Word, s.x[ra] = some n →
        (n.toInt < 0 ∨ n.toInt > 255 → Raises (.pgen rd ra) .range s) ∧
          (0 ≤ n.toInt → n.toInt ≤ 255 → (genpoly n.toNat).length = n.toNat + 1 ∧
            exec (.pgen rd ra) s = .next { s with p := s.p.set rd (some (genpoly n.toNat)) })

/-- R213 with R210: each block's EC codewords are `rsec` of its slice of the data, stored back to back from
`EADDR` in block order. -/
def Obligations.RsgenResult : Prop :=
  ∀ s : State,
    decode 0x30000000 = .ok .rsgen ∧ (s.stage ≠ .idle → Raises .rsgen .badStage s) ∧
      (s.stage = .idle →
        (∀ c, s.blocks = raise c → Raises .rsgen c s) ∧
        ∀ bl, s.blocks = .ok bl →
          (s.daddr.toNat + s.dlen.toNat > 8192 → Raises .rsgen .addrRange s) ∧
          (s.daddr.toNat + s.dlen.toNat ≤ 8192 →
            (Memory.bytes s.mem s.daddr.toNat s.dlen.toNat = none → Raises .rsgen .unwritten s) ∧
            ∀ d : List Byte, Memory.bytes s.mem s.daddr.toNat s.dlen.toNat = some d →
              (s.eaddr.toNat + ecTotal bl > 8192 → Raises .rsgen .addrRange s) ∧
              (s.eaddr.toNat + ecTotal bl ≤ 8192 → ∃ ecs : List (List Byte),
                (ecs.length = bl.length ∧ ∀ (b : Nat) (x : Block), bl[b]? = some x →
                  ∃ e, ecs[b]? = some e ∧ e.length = x.ec ∧
                    rsec ((d.drop (dataTotal (bl.take b))).take x.data) x.ec = .ok e) ∧
                exec .rsgen s = .next { s with
                  mem := Memory.putBytes s.mem s.eaddr.toNat ecs.flatten
                  elen := BitVec.ofNat 14 (ecTotal bl)
                  stage := .ecDone })))

/-- R214 with the split of R210: the pieces interleaved are each block's slice of the data and its slice of
the EC area, in block order. -/
def Obligations.IlvResult : Prop :=
  ∀ s : State,
    decode 0x31000000 = .ok .ilv ∧ (s.stage ≠ .ecDone → Raises .ilv .badStage s) ∧
      (s.stage = .ecDone →
        (∀ c, s.blocks = raise c → Raises .ilv c s) ∧
        ∀ bl, s.blocks = .ok bl →
          (ecTotal bl ≠ s.elen.toNat → Raises .ilv .badBlocks s) ∧
          (ecTotal bl = s.elen.toNat →
            (s.daddr.toNat + s.dlen.toNat > 8192 → Raises .ilv .addrRange s) ∧
            (s.daddr.toNat + s.dlen.toNat ≤ 8192 →
              (Memory.bytes s.mem s.daddr.toNat s.dlen.toNat = none → Raises .ilv .unwritten s) ∧
              ∀ d : List Byte, Memory.bytes s.mem s.daddr.toNat s.dlen.toNat = some d →
                (s.eaddr.toNat + ecTotal bl > 8192 → Raises .ilv .addrRange s) ∧
                (s.eaddr.toNat + ecTotal bl ≤ 8192 →
                  (Memory.bytes s.mem s.eaddr.toNat (ecTotal bl) = none → Raises .ilv .unwritten s) ∧
                  ∀ c : List Byte, Memory.bytes s.mem s.eaddr.toNat (ecTotal bl) = some c →
                    (s.faddr.toNat + (s.dlen.toNat + ecTotal bl) > 8192 → Raises .ilv .addrRange s) ∧
                    (s.faddr.toNat + (s.dlen.toNat + ecTotal bl) ≤ 8192 → ∃ datas ecs : List (List Byte),
                      (datas.length = bl.length ∧ ecs.length = bl.length ∧
                        ∀ (b : Nat) (x : Block), bl[b]? = some x →
                          datas[b]? = some ((d.drop (dataTotal (bl.take b))).take x.data) ∧
                            ecs[b]? = some ((c.drop (ecTotal (bl.take b))).take x.ec)) ∧
                      exec .ilv s = .next { s with
                        mem := Memory.putBytes s.mem s.faddr.toNat (interleave datas ecs)
                        flen := BitVec.ofNat 14 (s.dlen.toNat + ecTotal bl)
                        stage := .ilvDone })))))

/-! ### Commands: BCH (spec/43_bch_metadata.md) -/

/-- R172, R173. -/
def Obligations.BchfmtBchverResults : Prop :=
  ∀ (rd ra rb : XReg) (s : State),
    decode (packR 0x38 (xBits rd) (xBits ra) (xBits rb) 0) = .ok (.bchfmt rd ra rb) ∧
      decode (packR 0x39 (xBits rd) (xBits ra) 0 0) = .ok (.bchver rd ra) ∧
      (s.x[ra] = none ∨ s.x[rb] = none → Raises (.bchfmt rd ra rb) .unwritten s) ∧
      (s.x[ra] = none → Raises (.bchver rd ra) .unwritten s) ∧
      ∀ a : Word, s.x[ra] = some a →
        (∀ k : Word, s.x[rb] = some k →
          (a.toInt < 0 ∨ a.toInt > 3 ∨ k.toInt < 0 ∨ k.toInt > 7 →
            Raises (.bchfmt rd ra rb) .badConfig s) ∧
          (0 ≤ a.toInt → a.toInt ≤ 3 → 0 ≤ k.toInt → k.toInt ≤ 7 →
            exec (.bchfmt rd ra rb) s = .next { s with
              x := s.x.set rd (some (BitVec.ofNat 32 (bchfmt a.toNat k.toNat))) })) ∧
        (a.toInt < 7 ∨ a.toInt > 40 → Raises (.bchver rd ra) .badConfig s) ∧
        (7 ≤ a.toInt → a.toInt ≤ 40 →
          exec (.bchver rd ra) s = .next { s with
            x := s.x.set rd (some (BitVec.ofNat 32 (bchver a.toNat))) })

/-! ### Commands: masks (spec/44_mask.md) -/

/-- R181: the eight mask functions. R191. Rests on the parameter `MASKFN` (log entry 11). -/
def Obligations.MskbitResult : Prop :=
  (∀ r c : Nat,
    (maskfn 0 r c = true ↔ (r + c) % 2 = 0) ∧ (maskfn 1 r c = true ↔ r % 2 = 0) ∧
      (maskfn 2 r c = true ↔ c % 3 = 0) ∧ (maskfn 3 r c = true ↔ (r + c) % 3 = 0) ∧
      (maskfn 4 r c = true ↔ (r / 2 + c / 3) % 2 = 0) ∧
      (maskfn 5 r c = true ↔ r * c % 2 + r * c % 3 = 0) ∧
      (maskfn 6 r c = true ↔ (r * c % 2 + r * c % 3) % 2 = 0) ∧
      (maskfn 7 r c = true ↔ (r * c % 3 + (r + c) % 2) % 2 = 0)) ∧
  ∀ (rd ra rb : XReg) (k : BitVec 12) (s : State),
    decode (packR 0x48 (xBits rd) (xBits ra) (xBits rb) k) = .ok (.mskbit rd ra rb k.toNat) ∧
      (s.x[ra] = none ∨ s.x[rb] = none → Raises (.mskbit rd ra rb k.toNat) .unwritten s) ∧
      ∀ r c : Word, s.x[ra] = some r → s.x[rb] = some c →
        (k.toNat > 7 → Raises (.mskbit rd ra rb k.toNat) .badConfig s) ∧
          (k.toNat ≤ 7 →
            (r.toInt < 0 ∨ r.toInt > 176 ∨ c.toInt < 0 ∨ c.toInt > 176 →
              Raises (.mskbit rd ra rb k.toNat) .range s) ∧
            (0 ≤ r.toInt → r.toInt ≤ 176 → 0 ≤ c.toInt → c.toInt ≤ 176 →
              exec (.mskbit rd ra rb k.toNat) s = .next { s with
                x := s.x.set rd (some (if maskfn k.toNat r.toNat c.toNat = true then 1 else 0)) }))

/-- R192, R194: `MAPPLY` keeps `STAGE` and writes no result register; `MMASK` applies `MASKSEL`, or the
automatic choice, and reports the pattern and the penalty of the matrix just written. R244: the mask `MMETA`
writes is the one applied, `RESMASK[2:0]`. -/
def Obligations.MapplyMmaskMmetaResults : Prop :=
  (∀ (k : BitVec 12) (s : State),
      decode (packR 0x49 0 0 0 k) = .ok (.mapply k.toNat) ∧ decode 0x4B000000 = .ok .mmask ∧
        (s.stage ≠ .placed → Raises (.mapply k.toNat) .badStage s ∧ Raises .mmask .badStage s) ∧
        (s.stage = .placed → k.toNat > 7 → Raises (.mapply k.toNat) .badConfig s) ∧
        ∀ m : Mat, s.stage = .placed → s.mat = some m →
          (k.toNat ≤ 7 →
            exec (.mapply k.toNat) s = .next { s with mat := some (applymask m k.toNat) }) ∧
          let j := if s.masksel = 8 then choosemask m else s.masksel
          exec .mmask s = .next { s with
            mat := some (applymask m j)
            resmask := BitVec.ofNat 4 (8 ||| j)
            score := BitVec.ofNat 31 (penalty (applymask m j))
            stage := .masked }) ∧
  (∀ s : State,
      decode 0x43000000 = .ok .mmeta ∧ (s.stage ≠ .masked → Raises .mmeta .badStage s) ∧
        ∀ m : Mat, s.stage = .masked → s.mat = some m →
          exec .mmeta s = .next { s with
            mat := some (writemeta m s.ecl (s.resmask.toNat % 8)), stage := .done })

/-! ### Commands: the matrix (spec/46_matrix.md) -/

/-- R241, R242. Rests on the layout parameters (log entries 12, 13). -/
def Obligations.MinitMplaceResults : Prop :=
  (∀ s : State,
      decode 0x40000000 = .ok .minit ∧ (s.stage ≠ .ilvDone → Raises .minit .badStage s) ∧
        (s.stage = .ilvDone →
          (s.typenum < 1 ∨ s.typenum > 40 → Raises .minit .badConfig s) ∧
          (1 ≤ s.typenum → s.typenum ≤ 40 → ∃ t : State, exec .minit s = .next t ∧
            t = { s with mat := some (layout s.typenum), stage := .layout } ∧
            t.nside = 17 + 4 * s.typenum))) ∧
  (∀ s : State,
      decode 0x41000000 = .ok .mplace ∧ (s.stage ≠ .layout → Raises .mplace .badStage s) ∧
        (s.stage = .layout →
          (s.faddr.toNat + s.flen.toNat > 8192 → Raises .mplace .addrRange s) ∧
          (s.faddr.toNat + s.flen.toNat ≤ 8192 →
            (Memory.bytes s.mem s.faddr.toNat s.flen.toNat = none → Raises .mplace .unwritten s) ∧
            ∀ (f : List Byte) (m : Mat), Memory.bytes s.mem s.faddr.toNat s.flen.toNat = some f →
              s.mat = some m →
                (8 * s.flen.toNat > freecells m.v → Raises .mplace .capacity s) ∧
                (8 * s.flen.toNat ≤ freecells m.v →
                  exec .mplace s = .next { s with mat := some (place m f), stage := .placed }))))

/-- R243: the registers are read before `STAGE` is checked; with a matrix well made for its `STAGE` (the
invariant `MatOk`) the result 2 occurs at `STAGE` 3 alone and 6 at `STAGE` 3 to 5. R193: `MSCORE` reads no
register. -/
def Obligations.MrdMscoreResults : Prop :=
  (∀ (rd ra rb : XReg) (s : State),
      decode (packR 0x42 (xBits rd) (xBits ra) (xBits rb) 0) = .ok (.mrd rd ra rb) ∧
        (s.x[ra] = none ∨ s.x[rb] = none → Raises (.mrd rd ra rb) .unwritten s) ∧
        ∀ r c : Word, s.x[ra] = some r → s.x[rb] = some c →
          (s.stage.code < 3 → Raises (.mrd rd ra rb) .badStage s) ∧
            ∀ m : Mat, 3 ≤ s.stage.code → s.mat = some m →
              (r.toInt < 0 ∨ r.toInt ≥ m.side ∨ c.toInt < 0 ∨ c.toInt ≥ m.side →
                Raises (.mrd rd ra rb) .range s) ∧
              (0 ≤ r.toInt → r.toInt < m.side → 0 ≤ c.toInt → c.toInt < m.side →
                exec (.mrd rd ra rb) s = .next { s with
                  x := s.x.set rd (some (BitVec.ofNat 32 ((m.cell r.toNat c.toNat).val.code |||
                    ((if (m.cell r.toNat c.toNat).fn then 1 else 0) <<< 2)))) })) ∧
  (∀ (s : State) (m : Mat) (r c : Nat), MatOk s → s.mat = some m → r < m.side → c < m.side →
      let w := (m.cell r c).val.code ||| ((if (m.cell r c).fn then 1 else 0) <<< 2)
      w ∈ [0, 1, 2, 4, 5, 6] ∧ (w = 2 → s.stage.code = 3) ∧
        (w = 6 → 3 ≤ s.stage.code ∧ s.stage.code ≤ 5)) ∧
  (∀ (rd : XReg) (sel : BitVec 12) (s : State),
      decode (packR 0x4A (xBits rd) 0 0 sel) = .ok (.mscore rd sel.toNat) ∧
        (s.stage.code < 4 → Raises (.mscore rd sel.toNat) .badStage s) ∧
        (4 ≤ s.stage.code → sel.toNat > 4 → Raises (.mscore rd sel.toNat) .badConfig s) ∧
        ∀ (m : Mat) (v : Nat), 4 ≤ s.stage.code → s.mat = some m →
          [penalty m, penA (scoreGrid m), penB (scoreGrid m), penC (scoreGrid m),
            penD (scoreGrid m)][sel.toNat]? = some v →
            exec (.mscore rd sel.toNat) s = .next { s with x := s.x.set rd (some (BitVec.ofNat 32 v)) })
end

