-- ==== Sys2Proof/Laws/Decode.lean ====
section
/-! SUPPORT. The fields of a word put together by the encoder, and a word put together again from its
fields (spec/30_encoding.md R81 to R85). -/

namespace Sys2Proof

/-! ### Format R -/

@[simp] theorem opField_packR (op : BitVec 8) (rd ra rb : BitVec 4) (imm : BitVec 12) :
    opField (packR op rd ra rb imm) = op := by
  apply BitVec.eq_of_getLsbD_eq
  intro i hi
  simp only [opField, packR, BitVec.getLsbD_extractLsb', BitVec.getLsbD_append]
  interval_cases i <;> simp

@[simp] theorem rdField_packR (op : BitVec 8) (rd ra rb : BitVec 4) (imm : BitVec 12) :
    rdField (packR op rd ra rb imm) = rd := by
  apply BitVec.eq_of_getLsbD_eq
  intro i hi
  simp only [rdField, packR, BitVec.getLsbD_extractLsb', BitVec.getLsbD_append]
  interval_cases i <;> simp

@[simp] theorem raField_packR (op : BitVec 8) (rd ra rb : BitVec 4) (imm : BitVec 12) :
    raField (packR op rd ra rb imm) = ra := by
  apply BitVec.eq_of_getLsbD_eq
  intro i hi
  simp only [raField, packR, BitVec.getLsbD_extractLsb', BitVec.getLsbD_append]
  interval_cases i <;> simp

@[simp] theorem rbField_packR (op : BitVec 8) (rd ra rb : BitVec 4) (imm : BitVec 12) :
    rbField (packR op rd ra rb imm) = rb := by
  apply BitVec.eq_of_getLsbD_eq
  intro i hi
  simp only [rbField, packR, BitVec.getLsbD_extractLsb', BitVec.getLsbD_append]
  interval_cases i <;> simp

@[simp] theorem imm12Field_packR (op : BitVec 8) (rd ra rb : BitVec 4) (imm : BitVec 12) :
    imm12Field (packR op rd ra rb imm) = imm := by
  apply BitVec.eq_of_getLsbD_eq
  intro i hi
  simp only [imm12Field, packR, BitVec.getLsbD_extractLsb', BitVec.getLsbD_append]
  interval_cases i <;> simp

/-- A word is its opcode, three register fields and `imm12` (R82). -/
theorem packR_fields (w : Word) :
    packR (opField w) (rdField w) (raField w) (rbField w) (imm12Field w) = w := by
  apply BitVec.eq_of_getLsbD_eq
  intro i hi
  simp only [opField, rdField, raField, rbField, imm12Field, packR, BitVec.getLsbD_extractLsb',
    BitVec.getLsbD_append]
  interval_cases i <;> simp

/-- The fields of a conjunction of two words are conjunctions of their fields. -/
theorem packR_and (op op' : BitVec 8) (rd ra rb rd' ra' rb' : BitVec 4) (imm imm' : BitVec 12) :
    packR op rd ra rb imm &&& packR op' rd' ra' rb' imm' =
      packR (op &&& op') (rd &&& rd') (ra &&& ra') (rb &&& rb') (imm &&& imm') := by
  apply BitVec.eq_of_getLsbD_eq
  intro i hi
  simp only [packR, BitVec.getLsbD_and, BitVec.getLsbD_append]
  interval_cases i <;> simp

/-! ### Formats N and I -/

@[simp] theorem opField_packN (op : BitVec 8) : opField (packN op) = op := by
  apply BitVec.eq_of_getLsbD_eq
  intro i hi
  simp only [opField, packN, BitVec.getLsbD_extractLsb', BitVec.getLsbD_append]
  interval_cases i <;> simp

@[simp] theorem low24Field_packN (op : BitVec 8) : low24Field (packN op) = 0 := by
  apply BitVec.eq_of_getLsbD_eq
  intro i hi
  simp only [low24Field, packN, BitVec.getLsbD_extractLsb', BitVec.getLsbD_append]
  interval_cases i <;> simp

/-- A word is its opcode and its 24 low bits (R81). -/
theorem packN_fields {w : Word} (h : low24Field w = 0) : packN (opField w) = w := by
  apply BitVec.eq_of_getLsbD_eq
  intro i hi
  have hb : ∀ j, j < 24 → w.getLsbD j = false := fun j hj => by
    have e := congrArg (fun v => BitVec.getLsbD v j) h
    simpa [low24Field, BitVec.getLsbD_extractLsb', hj] using e
  simp only [opField, packN, BitVec.getLsbD_extractLsb', BitVec.getLsbD_append]
  by_cases hi' : i < 24
  · simp [hi', hb i hi']
  · interval_cases i <;> simp at hi' ⊢

/-- Format N is format R with every field 0. -/
theorem packN_eq_packR (op : BitVec 8) : packN op = packR op 0 0 0 0 := by
  apply BitVec.eq_of_getLsbD_eq
  intro i hi
  simp only [packN, packR, BitVec.getLsbD_append]
  interval_cases i <;> simp

@[simp] theorem opField_packI (op : BitVec 8) (rd : BitVec 4) (imm : BitVec 20) :
    opField (packI op rd imm) = op := by
  apply BitVec.eq_of_getLsbD_eq
  intro i hi
  simp only [opField, packI, BitVec.getLsbD_extractLsb', BitVec.getLsbD_append]
  interval_cases i <;> simp

@[simp] theorem rdField_packI (op : BitVec 8) (rd : BitVec 4) (imm : BitVec 20) :
    rdField (packI op rd imm) = rd := by
  apply BitVec.eq_of_getLsbD_eq
  intro i hi
  simp only [rdField, packI, BitVec.getLsbD_extractLsb', BitVec.getLsbD_append]
  interval_cases i <;> simp

@[simp] theorem imm20Field_packI (op : BitVec 8) (rd : BitVec 4) (imm : BitVec 20) :
    imm20Field (packI op rd imm) = imm := by
  apply BitVec.eq_of_getLsbD_eq
  intro i hi
  simp only [imm20Field, packI, BitVec.getLsbD_extractLsb', BitVec.getLsbD_append]
  interval_cases i <;> simp

/-- A word is its opcode, `rd` and `imm20` (R83). -/
theorem packI_fields (w : Word) : packI (opField w) (rdField w) (imm20Field w) = w := by
  apply BitVec.eq_of_getLsbD_eq
  intro i hi
  simp only [opField, rdField, imm20Field, packI, BitVec.getLsbD_extractLsb', BitVec.getLsbD_append]
  interval_cases i <;> simp

/-- Format I is format R whose fields `ra`, `rb`, `imm12` hold the parts of `imm20`. -/
theorem packI_eq_packR (op : BitVec 8) (rd : BitVec 4) (imm : BitVec 20) :
    packI op rd imm =
      packR op rd (imm.extractLsb' 16 4) (imm.extractLsb' 12 4) (imm.extractLsb' 0 12) := by
  apply BitVec.eq_of_getLsbD_eq
  intro i hi
  simp only [packI, packR, BitVec.getLsbD_extractLsb', BitVec.getLsbD_append]
  interval_cases i <;> simp

/-! ### Register fields (R85) -/

theorem toNat_xBits (r : XReg) : (xBits r).toNat = r.val := by revert r; decide

theorem toNat_pBits (r : PReg) : (pBits r).toNat = r.val := by revert r; decide

@[simp] theorem xField_xBits (r : XReg) (e : Illegal) : xField (xBits r) e = .ok r := by
  simp [xField, toNat_xBits]

@[simp] theorem pField_pBits (r : PReg) (e : Illegal) : pField (pBits r) e = .ok r := by
  simp [pField, toNat_pBits]

@[simp] theorem noField_zero (e : Illegal) : noField 0 e = .ok () := rfl

theorem xField_eq_ok {f : BitVec 4} {e : Illegal} {r : XReg} : xField f e = .ok r ↔ f = xBits r := by
  refine ⟨fun h => ?_, fun h => by simp [h]⟩
  unfold xField at h
  split at h
  · cases h
    exact BitVec.eq_of_toNat_eq (by simp [toNat_xBits])
  · cases h

theorem pField_eq_ok {f : BitVec 4} {e : Illegal} {r : PReg} : pField f e = .ok r ↔ f = pBits r := by
  refine ⟨fun h => ?_, fun h => by simp [h]⟩
  unfold pField at h
  split at h
  · cases h
    exact BitVec.eq_of_toNat_eq (by simp [toNat_pBits])
  · cases h

theorem noField_eq_ok {f : BitVec 4} {e : Illegal} {u : Unit} : noField f e = .ok u ↔ f = 0 := by
  unfold noField
  split
  · next h => simp [h]
  · next h => exact ⟨fun h' => (by cases h'), fun h' => absurd h' h⟩

/-- A used `imm12` holds its number (R84). -/
theorem toNat_immBits {n : Nat} (h : wfImm12 n = true) : (immBits n).toNat = n := by
  simp only [wfImm12, decide_eq_true_eq] at h
  simp only [immBits, BitVec.toNat_ofNat]
  omega

end Sys2Proof
end

