-- ==== Sys2Proof/Laws/Matrix.lean ====
section
/-! SUPPORT. Cells of the module matrix: reading a built matrix, reading after writing a cell, and that
writing a cell keeps the shape and every `fn` (spec/46_matrix.md R226, R239, R240). -/

namespace Sys2Proof.Machine

@[simp] theorem Mat.build_v (v : Nat) (f : Nat → Nat → Cell) : (Mat.build v f).v = v := rfl

@[simp] theorem Mat.build_side (v : Nat) (f : Nat → Nat → Cell) : (Mat.build v f).side = 17 + 4 * v := rfl

/-- A built matrix is square. -/
theorem Mat.build_square (v : Nat) (f : Nat → Nat → Cell) :
    (Mat.build v f).cells.length = (Mat.build v f).side ∧
      ∀ row ∈ (Mat.build v f).cells, row.length = (Mat.build v f).side := by
  refine ⟨by simp [Mat.build, Mat.side], fun row h => ?_⟩
  simp only [Mat.build, List.mem_map] at h
  obtain ⟨r, -, rfl⟩ := h
  simp [Mat.side, Mat.build]

/-- The cell of a built matrix is the function's value, at every coordinate inside it. -/
theorem Mat.cell_build {v r c : Nat} (f : Nat → Nat → Cell) (hr : r < 17 + 4 * v)
    (hc : c < 17 + 4 * v) : (Mat.build v f).cell r c = f r c := by
  simp [Mat.cell, Mat.build, List.getD, hr, hc]

@[simp] theorem Mat.setVal_v (m : Mat) (r c : Nat) (x : CellVal) : (m.setVal r c x).v = m.v := rfl

@[simp] theorem Mat.setVal_side (m : Mat) (r c : Nat) (x : CellVal) :
    (m.setVal r c x).side = m.side := rfl

/-- Writing a cell keeps the square. -/
theorem Mat.setVal_square {m : Mat} {n : Nat} (r c : Nat) (x : CellVal) (h : m.cells.length = n)
    (hrow : ∀ row ∈ m.cells, row.length = n) :
    (m.setVal r c x).cells.length = n ∧ ∀ row ∈ (m.setVal r c x).cells, row.length = n := by
  refine ⟨by simpa [Mat.setVal] using h, fun row hm => ?_⟩
  rw [List.mem_iff_getElem] at hm
  obtain ⟨i, hi, rfl⟩ := hm
  simp only [Mat.setVal, List.length_modify] at hi
  simp only [Mat.setVal, List.getElem_modify]
  split
  · simpa using hrow _ (List.getElem_mem hi)
  · exact hrow _ (List.getElem_mem hi)

/-- A cell just written has the colour written and keeps its `fn`. -/
theorem Mat.cell_setVal_self {m : Mat} {n r c : Nat} (x : CellVal) (h : m.cells.length = n)
    (hrow : ∀ row ∈ m.cells, row.length = n) (hr : r < n) (hc : c < n) :
    (m.setVal r c x).cell r c = { m.cell r c with val := x } := by
  subst h
  have hl : c < (m.cells[r]).length := by rw [hrow _ (List.getElem_mem hr)]; exact hc
  simp [Mat.cell, Mat.setVal, List.getD, hr, hl]

/-- Writing a cell leaves the others. -/
theorem Mat.cell_setVal_ne (m : Mat) {r c r' c' : Nat} (x : CellVal) (h : (r', c') ≠ (r, c)) :
    (m.setVal r c x).cell r' c' = m.cell r' c' := by
  simp only [Mat.cell, Mat.setVal, List.getD, List.getElem?_modify]
  by_cases hr : r = r'
  · subst hr
    have hc : c ≠ c' := fun e => h (by rw [e])
    cases hg : m.cells[r]? with
    | none => simp
    | some row => simp [hc]
  · simp [hr]

/-- Writing a cell changes no `fn`. -/
theorem Mat.cell_setVal_fn (m : Mat) (r c r' c' : Nat) (x : CellVal) :
    ((m.setVal r c x).cell r' c').fn = (m.cell r' c').fn := by
  by_cases h : (r', c') = (r, c)
  · cases h
    simp only [Mat.cell, Mat.setVal, List.getD, List.getElem?_modify]
    cases hg : m.cells[r]? with
    | none => simp
    | some row =>
      cases hc : row[c]? <;> simp [hc]
  · rw [Mat.cell_setVal_ne m x h]

@[simp] theorem Mat.setVals_v (l : List ((Nat × Nat) × CellVal)) (m : Mat) :
    (m.setVals l).v = m.v := by
  induction l generalizing m with
  | nil => rfl
  | cons e l ih => obtain ⟨⟨r, c⟩, x⟩ := e; rw [Mat.setVals, ih]; rfl

/-- Writing a list of cells keeps the square. -/
theorem Mat.setVals_square {n : Nat} (l : List ((Nat × Nat) × CellVal)) : ∀ {m : Mat},
    m.cells.length = n → (∀ row ∈ m.cells, row.length = n) →
      (m.setVals l).cells.length = n ∧ ∀ row ∈ (m.setVals l).cells, row.length = n := by
  induction l with
  | nil => intro m h hr; exact ⟨h, hr⟩
  | cons e l ih =>
    obtain ⟨⟨r, c⟩, x⟩ := e
    intro m h hr
    obtain ⟨h', hr'⟩ := Mat.setVal_square r c x h hr
    exact ih h' hr'

/-- Writing a list of cells changes no `fn`. -/
theorem Mat.cell_setVals_fn (l : List ((Nat × Nat) × CellVal)) : ∀ (m : Mat) (r c : Nat),
    ((m.setVals l).cell r c).fn = (m.cell r c).fn := by
  induction l with
  | nil => intro m r c; rfl
  | cons e l ih =>
    obtain ⟨⟨r', c'⟩, x⟩ := e
    intro m r c
    rw [Mat.setVals, ih, Mat.cell_setVal_fn]

/-- Writing a list of cells leaves the cells that are not in it. -/
theorem Mat.cell_setVals_of_not_mem (l : List ((Nat × Nat) × CellVal)) : ∀ (m : Mat) (r c : Nat),
    (r, c) ∉ l.map Prod.fst → (m.setVals l).cell r c = m.cell r c := by
  induction l with
  | nil => intro m r c _; rfl
  | cons e l ih =>
    obtain ⟨⟨r', c'⟩, x⟩ := e
    intro m r c h
    simp only [List.map_cons, List.mem_cons, not_or] at h
    rw [Mat.setVals, ih _ _ _ h.2, Mat.cell_setVal_ne _ _ h.1]

/-- `applymask` reads as R182 says: a data cell where the pattern is true is flipped, every other cell is
unchanged. -/
theorem cell_applymask (m : Mat) (k : Nat) {r c : Nat} (hr : r < m.side) (hc : c < m.side) :
    (applymask m k).cell r c =
      if !(m.cell r c).fn && maskfn k r c then { m.cell r c with val := (m.cell r c).val.flip }
      else m.cell r c := by
  rw [applymask, Mat.cell_build _ hr hc]

@[simp] theorem applymask_v (m : Mat) (k : Nat) : (applymask m k).v = m.v := rfl

@[simp] theorem writemeta_v (m : Mat) (ecl k : Nat) : (writemeta m ecl k).v = m.v := by
  rw [writemeta, Mat.setVals_v]

@[simp] theorem place_v (m : Mat) (f : List Byte) : (place m f).v = m.v := by
  rw [place, Mat.setVals_v]

/-- Two square matrices of one type number with the same cells are equal. -/
theorem Mat.ext_cells {m m' : Mat} (hv : m.v = m'.v) (h : m.cells.length = m.side)
    (hrow : ∀ row ∈ m.cells, row.length = m.side) (h' : m'.cells.length = m'.side)
    (hrow' : ∀ row ∈ m'.cells, row.length = m'.side)
    (hc : ∀ r c, r < m.side → c < m.side → m.cell r c = m'.cell r c) : m = m' := by
  obtain ⟨v, cells⟩ := m
  obtain ⟨v', cells'⟩ := m'
  simp only at hv
  subst hv
  simp only [Mat.side] at h hrow h' hrow' hc
  congr 1
  refine List.ext_getElem (by rw [h, h']) fun r h1 h2 => ?_
  refine List.ext_getElem ?_ fun c h3 h4 => ?_
  · rw [hrow _ (List.getElem_mem h1), hrow' _ (List.getElem_mem h2)]
  · have hr : r < 17 + 4 * v := by rw [← h]; exact h1
    have hcc : c < 17 + 4 * v := by rw [← hrow _ (List.getElem_mem h1)]; exact h3
    have := hc r c hr hcc
    simpa [Mat.cell, List.getD, h1, h2, h3, h4] using this

end Sys2Proof.Machine
end

