-- ==== Sys2Proof/Laws/State.lean ====
section
/-! SUPPORT. One lemma per field per named update of the state, each true by unfolding the update once,
so that no later proof unfolds a record update. -/

namespace Sys2Proof.Machine

/-! ### `setX` -/

@[simp] theorem State.setX_x (s : State) (r : XReg) (v : Int) : (s.setX r v).x = s.x.set r (some (BitVec.ofInt 32 v)) := rfl
@[simp] theorem State.setX_p (s : State) (r : XReg) (v : Int) : (s.setX r v).p = s.p := rfl
@[simp] theorem State.setX_mem (s : State) (r : XReg) (v : Int) : (s.setX r v).mem = s.mem := rfl
@[simp] theorem State.setX_err (s : State) (r : XReg) (v : Int) : (s.setX r v).err = s.err := rfl
@[simp] theorem State.setX_info (s : State) (r : XReg) (v : Int) : (s.setX r v).info = s.info := rfl
@[simp] theorem State.setX_ecmd (s : State) (r : XReg) (v : Int) : (s.setX r v).ecmd = s.ecmd := rfl
@[simp] theorem State.setX_stage (s : State) (r : XReg) (v : Int) : (s.setX r v).stage = s.stage := rfl
@[simp] theorem State.setX_cfg (s : State) (r : XReg) (v : Int) : (s.setX r v).cfg = s.cfg := rfl
@[simp] theorem State.setX_daddr (s : State) (r : XReg) (v : Int) : (s.setX r v).daddr = s.daddr := rfl
@[simp] theorem State.setX_dlen (s : State) (r : XReg) (v : Int) : (s.setX r v).dlen = s.dlen := rfl
@[simp] theorem State.setX_baddr (s : State) (r : XReg) (v : Int) : (s.setX r v).baddr = s.baddr := rfl
@[simp] theorem State.setX_nblk (s : State) (r : XReg) (v : Int) : (s.setX r v).nblk = s.nblk := rfl
@[simp] theorem State.setX_eaddr (s : State) (r : XReg) (v : Int) : (s.setX r v).eaddr = s.eaddr := rfl
@[simp] theorem State.setX_faddr (s : State) (r : XReg) (v : Int) : (s.setX r v).faddr = s.faddr := rfl
@[simp] theorem State.setX_flen (s : State) (r : XReg) (v : Int) : (s.setX r v).flen = s.flen := rfl
@[simp] theorem State.setX_elen (s : State) (r : XReg) (v : Int) : (s.setX r v).elen = s.elen := rfl
@[simp] theorem State.setX_resmask (s : State) (r : XReg) (v : Int) : (s.setX r v).resmask = s.resmask := rfl
@[simp] theorem State.setX_score (s : State) (r : XReg) (v : Int) : (s.setX r v).score = s.score := rfl
@[simp] theorem State.setX_mat (s : State) (r : XReg) (v : Int) : (s.setX r v).mat = s.mat := rfl
@[simp] theorem State.setX_inbox (s : State) (r : XReg) (v : Int) : (s.setX r v).inbox = s.inbox := rfl

/-! ### `setP` -/

@[simp] theorem State.setP_x (s : State) (r : PReg) (q : Poly) : (s.setP r q).x = s.x := rfl
@[simp] theorem State.setP_p (s : State) (r : PReg) (q : Poly) : (s.setP r q).p = s.p.set r (some q) := rfl
@[simp] theorem State.setP_mem (s : State) (r : PReg) (q : Poly) : (s.setP r q).mem = s.mem := rfl
@[simp] theorem State.setP_err (s : State) (r : PReg) (q : Poly) : (s.setP r q).err = s.err := rfl
@[simp] theorem State.setP_info (s : State) (r : PReg) (q : Poly) : (s.setP r q).info = s.info := rfl
@[simp] theorem State.setP_ecmd (s : State) (r : PReg) (q : Poly) : (s.setP r q).ecmd = s.ecmd := rfl
@[simp] theorem State.setP_stage (s : State) (r : PReg) (q : Poly) : (s.setP r q).stage = s.stage := rfl
@[simp] theorem State.setP_cfg (s : State) (r : PReg) (q : Poly) : (s.setP r q).cfg = s.cfg := rfl
@[simp] theorem State.setP_daddr (s : State) (r : PReg) (q : Poly) : (s.setP r q).daddr = s.daddr := rfl
@[simp] theorem State.setP_dlen (s : State) (r : PReg) (q : Poly) : (s.setP r q).dlen = s.dlen := rfl
@[simp] theorem State.setP_baddr (s : State) (r : PReg) (q : Poly) : (s.setP r q).baddr = s.baddr := rfl
@[simp] theorem State.setP_nblk (s : State) (r : PReg) (q : Poly) : (s.setP r q).nblk = s.nblk := rfl
@[simp] theorem State.setP_eaddr (s : State) (r : PReg) (q : Poly) : (s.setP r q).eaddr = s.eaddr := rfl
@[simp] theorem State.setP_faddr (s : State) (r : PReg) (q : Poly) : (s.setP r q).faddr = s.faddr := rfl
@[simp] theorem State.setP_flen (s : State) (r : PReg) (q : Poly) : (s.setP r q).flen = s.flen := rfl
@[simp] theorem State.setP_elen (s : State) (r : PReg) (q : Poly) : (s.setP r q).elen = s.elen := rfl
@[simp] theorem State.setP_resmask (s : State) (r : PReg) (q : Poly) : (s.setP r q).resmask = s.resmask := rfl
@[simp] theorem State.setP_score (s : State) (r : PReg) (q : Poly) : (s.setP r q).score = s.score := rfl
@[simp] theorem State.setP_mat (s : State) (r : PReg) (q : Poly) : (s.setP r q).mat = s.mat := rfl
@[simp] theorem State.setP_inbox (s : State) (r : PReg) (q : Poly) : (s.setP r q).inbox = s.inbox := rfl

/-! ### `setMat` -/

@[simp] theorem State.setMat_x (s : State) (m : Mat) : (s.setMat m).x = s.x := rfl
@[simp] theorem State.setMat_p (s : State) (m : Mat) : (s.setMat m).p = s.p := rfl
@[simp] theorem State.setMat_mem (s : State) (m : Mat) : (s.setMat m).mem = s.mem := rfl
@[simp] theorem State.setMat_err (s : State) (m : Mat) : (s.setMat m).err = s.err := rfl
@[simp] theorem State.setMat_info (s : State) (m : Mat) : (s.setMat m).info = s.info := rfl
@[simp] theorem State.setMat_ecmd (s : State) (m : Mat) : (s.setMat m).ecmd = s.ecmd := rfl
@[simp] theorem State.setMat_stage (s : State) (m : Mat) : (s.setMat m).stage = s.stage := rfl
@[simp] theorem State.setMat_cfg (s : State) (m : Mat) : (s.setMat m).cfg = s.cfg := rfl
@[simp] theorem State.setMat_daddr (s : State) (m : Mat) : (s.setMat m).daddr = s.daddr := rfl
@[simp] theorem State.setMat_dlen (s : State) (m : Mat) : (s.setMat m).dlen = s.dlen := rfl
@[simp] theorem State.setMat_baddr (s : State) (m : Mat) : (s.setMat m).baddr = s.baddr := rfl
@[simp] theorem State.setMat_nblk (s : State) (m : Mat) : (s.setMat m).nblk = s.nblk := rfl
@[simp] theorem State.setMat_eaddr (s : State) (m : Mat) : (s.setMat m).eaddr = s.eaddr := rfl
@[simp] theorem State.setMat_faddr (s : State) (m : Mat) : (s.setMat m).faddr = s.faddr := rfl
@[simp] theorem State.setMat_flen (s : State) (m : Mat) : (s.setMat m).flen = s.flen := rfl
@[simp] theorem State.setMat_elen (s : State) (m : Mat) : (s.setMat m).elen = s.elen := rfl
@[simp] theorem State.setMat_resmask (s : State) (m : Mat) : (s.setMat m).resmask = s.resmask := rfl
@[simp] theorem State.setMat_score (s : State) (m : Mat) : (s.setMat m).score = s.score := rfl
@[simp] theorem State.setMat_mat (s : State) (m : Mat) : (s.setMat m).mat = some m := rfl
@[simp] theorem State.setMat_inbox (s : State) (m : Mat) : (s.setMat m).inbox = s.inbox := rfl

/-! ### `setStage` -/

@[simp] theorem State.setStage_x (s : State) (g : Stage) : (s.setStage g).x = s.x := rfl
@[simp] theorem State.setStage_p (s : State) (g : Stage) : (s.setStage g).p = s.p := rfl
@[simp] theorem State.setStage_mem (s : State) (g : Stage) : (s.setStage g).mem = s.mem := rfl
@[simp] theorem State.setStage_err (s : State) (g : Stage) : (s.setStage g).err = s.err := rfl
@[simp] theorem State.setStage_info (s : State) (g : Stage) : (s.setStage g).info = s.info := rfl
@[simp] theorem State.setStage_ecmd (s : State) (g : Stage) : (s.setStage g).ecmd = s.ecmd := rfl
@[simp] theorem State.setStage_stage (s : State) (g : Stage) : (s.setStage g).stage = g := rfl
@[simp] theorem State.setStage_cfg (s : State) (g : Stage) : (s.setStage g).cfg = s.cfg := rfl
@[simp] theorem State.setStage_daddr (s : State) (g : Stage) : (s.setStage g).daddr = s.daddr := rfl
@[simp] theorem State.setStage_dlen (s : State) (g : Stage) : (s.setStage g).dlen = s.dlen := rfl
@[simp] theorem State.setStage_baddr (s : State) (g : Stage) : (s.setStage g).baddr = s.baddr := rfl
@[simp] theorem State.setStage_nblk (s : State) (g : Stage) : (s.setStage g).nblk = s.nblk := rfl
@[simp] theorem State.setStage_eaddr (s : State) (g : Stage) : (s.setStage g).eaddr = s.eaddr := rfl
@[simp] theorem State.setStage_faddr (s : State) (g : Stage) : (s.setStage g).faddr = s.faddr := rfl
@[simp] theorem State.setStage_flen (s : State) (g : Stage) : (s.setStage g).flen = s.flen := rfl
@[simp] theorem State.setStage_elen (s : State) (g : Stage) : (s.setStage g).elen = s.elen := rfl
@[simp] theorem State.setStage_resmask (s : State) (g : Stage) : (s.setStage g).resmask = s.resmask := rfl
@[simp] theorem State.setStage_score (s : State) (g : Stage) : (s.setStage g).score = s.score := rfl
@[simp] theorem State.setStage_mat (s : State) (g : Stage) : (s.setStage g).mat = s.mat := rfl
@[simp] theorem State.setStage_inbox (s : State) (g : Stage) : (s.setStage g).inbox = s.inbox := rfl

/-! ### `latch` -/

@[simp] theorem State.latch_x (s : State) (c : SubCause) (w : Word) : (s.latch c w).x = s.x := rfl
@[simp] theorem State.latch_p (s : State) (c : SubCause) (w : Word) : (s.latch c w).p = s.p := rfl
@[simp] theorem State.latch_mem (s : State) (c : SubCause) (w : Word) : (s.latch c w).mem = s.mem := rfl
@[simp] theorem State.latch_err (s : State) (c : SubCause) (w : Word) : (s.latch c w).err = .invalidArgument := rfl
@[simp] theorem State.latch_info (s : State) (c : SubCause) (w : Word) : (s.latch c w).info = some c := rfl
@[simp] theorem State.latch_ecmd (s : State) (c : SubCause) (w : Word) : (s.latch c w).ecmd = w := rfl
@[simp] theorem State.latch_stage (s : State) (c : SubCause) (w : Word) : (s.latch c w).stage = s.stage := rfl
@[simp] theorem State.latch_cfg (s : State) (c : SubCause) (w : Word) : (s.latch c w).cfg = s.cfg := rfl
@[simp] theorem State.latch_daddr (s : State) (c : SubCause) (w : Word) : (s.latch c w).daddr = s.daddr := rfl
@[simp] theorem State.latch_dlen (s : State) (c : SubCause) (w : Word) : (s.latch c w).dlen = s.dlen := rfl
@[simp] theorem State.latch_baddr (s : State) (c : SubCause) (w : Word) : (s.latch c w).baddr = s.baddr := rfl
@[simp] theorem State.latch_nblk (s : State) (c : SubCause) (w : Word) : (s.latch c w).nblk = s.nblk := rfl
@[simp] theorem State.latch_eaddr (s : State) (c : SubCause) (w : Word) : (s.latch c w).eaddr = s.eaddr := rfl
@[simp] theorem State.latch_faddr (s : State) (c : SubCause) (w : Word) : (s.latch c w).faddr = s.faddr := rfl
@[simp] theorem State.latch_flen (s : State) (c : SubCause) (w : Word) : (s.latch c w).flen = s.flen := rfl
@[simp] theorem State.latch_elen (s : State) (c : SubCause) (w : Word) : (s.latch c w).elen = s.elen := rfl
@[simp] theorem State.latch_resmask (s : State) (c : SubCause) (w : Word) : (s.latch c w).resmask = s.resmask := rfl
@[simp] theorem State.latch_score (s : State) (c : SubCause) (w : Word) : (s.latch c w).score = s.score := rfl
@[simp] theorem State.latch_mat (s : State) (c : SubCause) (w : Word) : (s.latch c w).mat = s.mat := rfl
@[simp] theorem State.latch_inbox (s : State) (c : SubCause) (w : Word) : (s.latch c w).inbox = s.inbox := rfl

/-! ### `afterReset` -/

@[simp] theorem State.afterReset_x (s : State) : s.afterReset.x = State.reset.x := rfl
@[simp] theorem State.afterReset_p (s : State) : s.afterReset.p = State.reset.p := rfl
@[simp] theorem State.afterReset_mem (s : State) : s.afterReset.mem = State.reset.mem := rfl
@[simp] theorem State.afterReset_err (s : State) : s.afterReset.err = State.reset.err := rfl
@[simp] theorem State.afterReset_info (s : State) : s.afterReset.info = State.reset.info := rfl
@[simp] theorem State.afterReset_ecmd (s : State) : s.afterReset.ecmd = State.reset.ecmd := rfl
@[simp] theorem State.afterReset_stage (s : State) : s.afterReset.stage = State.reset.stage := rfl
@[simp] theorem State.afterReset_cfg (s : State) : s.afterReset.cfg = State.reset.cfg := rfl
@[simp] theorem State.afterReset_daddr (s : State) : s.afterReset.daddr = State.reset.daddr := rfl
@[simp] theorem State.afterReset_dlen (s : State) : s.afterReset.dlen = State.reset.dlen := rfl
@[simp] theorem State.afterReset_baddr (s : State) : s.afterReset.baddr = State.reset.baddr := rfl
@[simp] theorem State.afterReset_nblk (s : State) : s.afterReset.nblk = State.reset.nblk := rfl
@[simp] theorem State.afterReset_eaddr (s : State) : s.afterReset.eaddr = State.reset.eaddr := rfl
@[simp] theorem State.afterReset_faddr (s : State) : s.afterReset.faddr = State.reset.faddr := rfl
@[simp] theorem State.afterReset_flen (s : State) : s.afterReset.flen = State.reset.flen := rfl
@[simp] theorem State.afterReset_elen (s : State) : s.afterReset.elen = State.reset.elen := rfl
@[simp] theorem State.afterReset_resmask (s : State) : s.afterReset.resmask = State.reset.resmask := rfl
@[simp] theorem State.afterReset_score (s : State) : s.afterReset.score = State.reset.score := rfl
@[simp] theorem State.afterReset_mat (s : State) : s.afterReset.mat = State.reset.mat := rfl
@[simp] theorem State.afterReset_inbox (s : State) : s.afterReset.inbox = s.inbox := rfl

/-! ### Reading back a register -/

/-- A scalar register just written reads as the value written. -/
@[simp] theorem State.setX_get_self (s : State) (r : XReg) (v : Int) :
    (s.setX r v).x[r] = some (BitVec.ofInt 32 v) := by simp

/-- Writing one scalar register leaves the others. -/
theorem State.setX_get_ne (s : State) {r q : XReg} (v : Int) (h : q ≠ r) :
    (s.setX r v).x[q] = s.x[q] := by
  have h' : r.val ≠ q.val := fun e => h (Fin.ext e.symm)
  simp [h']

/-- A polynomial register just written reads as the value written. -/
@[simp] theorem State.setP_get_self (s : State) (r : PReg) (q : Poly) :
    (s.setP r q).p[r] = some q := by simp

/-- Writing one polynomial register leaves the others. -/
theorem State.setP_get_ne (s : State) {r q : PReg} (v : Poly) (h : q ≠ r) :
    (s.setP r v).p[q] = s.p[q] := by
  have h' : r.val ≠ q.val := fun e => h (Fin.ext e.symm)
  simp [h']

end Sys2Proof.Machine
end

