-- ==== Sys2Proof/Laws/Memory.lean ====
section
/-! SUPPORT. Codeword memory: reading after writing, the canonical form, and what `MemRead` and `MemWrite`
can answer (spec/20_memory.md R62, R63). -/

namespace Sys2Proof.Machine

/-- A byte just written reads as the byte written. -/
@[simp] theorem Memory.byteAt_put_self (m : Memory) (a : Nat) (b : Byte) :
    Memory.byteAt (Memory.put m a b) a = some b := by
  induction m with
  | nil => simp [Memory.put, Memory.byteAt]
  | cons e m ih =>
    obtain ⟨k, c⟩ := e
    simp only [Memory.put]
    split
    · simp [Memory.byteAt]
    · split
      · simp [Memory.byteAt]
      · simp_all [Memory.byteAt]

/-- Writing one byte leaves every other address. -/
theorem Memory.byteAt_put_ne (m : Memory) {a a' : Nat} (b : Byte) (h : a' ≠ a) :
    Memory.byteAt (Memory.put m a b) a' = Memory.byteAt m a' := by
  induction m with
  | nil => simp [Memory.put, Memory.byteAt, h]
  | cons e m ih =>
    obtain ⟨k, c⟩ := e
    simp only [Memory.put]
    split
    · simp [Memory.byteAt, h]
    · split
      · next e => subst e; simp [Memory.byteAt, h]
      · simp [Memory.byteAt, ih]

/-- Writing a sequence leaves every address outside it. -/
theorem Memory.byteAt_putBytes_outside (bs : List Byte) :
    ∀ (m : Memory) (a a' : Nat), a' < a ∨ a + bs.length ≤ a' →
      Memory.byteAt (Memory.putBytes m a bs) a' = Memory.byteAt m a' := by
  induction bs with
  | nil => intro m a a' _; rfl
  | cons b bs ih =>
    intro m a a' h
    simp only [List.length_cons] at h
    rw [Memory.putBytes, ih _ _ _ (by omega), Memory.byteAt_put_ne _ _ (by omega)]

/-- Writing a sequence puts its elements at increasing addresses (R63, R64). -/
theorem Memory.byteAt_putBytes_inside (bs : List Byte) :
    ∀ (m : Memory) (a i : Nat), i < bs.length →
      Memory.byteAt (Memory.putBytes m a bs) (a + i) = bs[i]? := by
  induction bs with
  | nil => intro m a i h; simp at h
  | cons b bs ih =>
    intro m a i h
    rw [Memory.putBytes]
    cases i with
    | zero => rw [Memory.byteAt_putBytes_outside _ _ _ _ (by omega)]; simp
    | succ i =>
      have e : a + (i + 1) = a + 1 + i := by omega
      rw [e, ih _ _ _ (by simpa using h)]; simp

/-- The keys of a memory after a write are the old ones and the address written. -/
theorem Memory.mem_put {m : Memory} {a : Nat} {b : Byte} {e : Host.Cell}
    (h : e ∈ Memory.put m a b) : e = (a, b) ∨ e ∈ m := by
  induction m with
  | nil => simpa [Memory.put] using h
  | cons f m ih =>
    obtain ⟨k, c⟩ := f
    simp only [Memory.put] at h
    split at h
    · simpa using h
    · split at h
      · simp at h; rcases h with h | h <;> simp [h]
      · rw [List.mem_cons] at h
        rcases h with h | h
        · simp [h]
        · rcases ih h with h | h <;> simp [h]

/-- Writing a byte of `M` keeps the canonical form. -/
theorem Memory.wf_put {m : Memory} {a : Nat} (b : Byte) (ha : a < Config.msize)
    (h : Memory.wf m = true) : Memory.wf (Memory.put m a b) = true := by
  induction m with
  | nil => simp [Memory.put, Memory.wf, ha]
  | cons f m ih =>
    obtain ⟨k, c⟩ := f
    simp only [Memory.wf, Bool.and_eq_true, decide_eq_true_eq, List.all_eq_true] at h
    obtain ⟨⟨hk, hall⟩, hm⟩ := h
    simp only [Memory.put]
    split
    · next hlt =>
      simp only [Memory.wf, Bool.and_eq_true, decide_eq_true_eq, List.all_eq_true, List.mem_cons]
      refine ⟨⟨ha, ?_⟩, ⟨hk, hall⟩, hm⟩
      rintro e (rfl | he)
      · exact hlt
      · exact lt_trans hlt (hall e he)
    · split
      · next he =>
        subst he
        simp only [Memory.wf, Bool.and_eq_true, decide_eq_true_eq, List.all_eq_true]
        exact ⟨⟨ha, hall⟩, hm⟩
      · simp only [Memory.wf, Bool.and_eq_true, decide_eq_true_eq, List.all_eq_true]
        refine ⟨⟨hk, fun e he => ?_⟩, ih hm⟩
        rcases Memory.mem_put he with rfl | he
        · simp only; omega
        · exact hall e he

/-- Writing a sequence inside `M` keeps the canonical form. -/
theorem Memory.wf_putBytes (bs : List Byte) : ∀ (m : Memory) (a : Nat),
    a + bs.length ≤ Config.msize → Memory.wf m = true → Memory.wf (Memory.putBytes m a bs) = true := by
  induction bs with
  | nil => intro m a _ h; exact h
  | cons b bs ih =>
    intro m a hl h
    simp only [List.length_cons] at hl
    exact ih _ _ (by omega) (Memory.wf_put b (by omega) h)

/-- The memory of the reset state has the canonical form. -/
theorem State.reset_mem_wf : Memory.wf State.reset.mem = true := rfl

/-- Reading `n` written bytes gives them in address order. -/
theorem Memory.bytes_eq_some {m : Memory} : ∀ {n a : Nat} {bs : List Byte},
    Memory.bytes m a n = some bs ↔
      bs.length = n ∧ ∀ i, i < n → Memory.byteAt m (a + i) = bs[i]? := by
  intro n
  induction n with
  | zero =>
    intro a bs
    simp only [Memory.bytes, Option.some.injEq]
    constructor
    · rintro rfl; simp
    · rintro ⟨h, -⟩; exact (List.length_eq_zero_iff.mp h).symm
  | succ n ih =>
    intro a bs
    rw [Memory.bytes]
    constructor
    · intro h
      split at h
      · next b s hb hs =>
        cases h
        obtain ⟨hl, hi⟩ := ih.mp hs
        refine ⟨by simp [hl], fun i hi' => ?_⟩
        cases i with
        | zero => simpa using hb
        | succ i =>
          have e : a + (i + 1) = a + 1 + i := by omega
          rw [e, hi i (by omega)]; simp
      · cases h
    · rintro ⟨hl, hi⟩
      cases bs with
      | nil => simp at hl
      | cons b s =>
        have h0 := hi 0 (by omega)
        have hs : Memory.bytes m (a + 1) n = some s := by
          refine ih.mpr ⟨by simpa using hl, fun i hi' => ?_⟩
          have := hi (i + 1) (by omega)
          have e : a + (i + 1) = a + 1 + i := by omega
          rw [e] at this; simpa using this
        simp only [Nat.add_zero, List.getElem?_cons_zero] at h0
        simp [h0, hs]

end Sys2Proof.Machine
end

