-- ==== Sys2Proof/Laws/Ops.lean ====
section
/-! SUPPORT. For each shared operation, once, everything it can answer; later proofs cite these lemmas
and do not unfold the operation. -/

namespace Sys2Proof.Machine

/-! ### Sequencing of rules -/

@[simp] theorem Act.ok_bind {α β : Type} (a : α) (f : α → Act β) :
    ((Except.ok a : Act α) >>= f) = f a := rfl

@[simp] theorem Act.error_bind {α β : Type} (e : Stop) (f : α → Act β) :
    ((Except.error e : Act α) >>= f) = Except.error e := rfl

@[simp] theorem Act.raise_bind {α β : Type} (c : SubCause) (f : α → Act β) :
    ((raise c : Act α) >>= f) = raise c := rfl

/-- A sequence of two rules succeeds exactly when the first does and then the second does. -/
theorem Act.bind_eq_ok {α β : Type} {m : Act α} {f : α → Act β} {b : β} :
    (m >>= f) = Except.ok b ↔ ∃ a, m = Except.ok a ∧ f a = Except.ok b := by
  cases m with
  | error e => simp
  | ok a => simp

theorem raise_ne_ok {α : Type} {c : SubCause} {a : α} : (raise c : Act α) ≠ .ok a := by
  simp [raise]

/-- A check that does not fail is passed. -/
@[simp] theorem raiseIf_neg {p : Prop} [Decidable p] {c : SubCause} (h : ¬p) :
    raiseIf p c = .ok () := by simp [raiseIf, h]

/-- A check that fails raises its sub-cause. -/
@[simp] theorem raiseIf_pos {p : Prop} [Decidable p] {c : SubCause} (h : p) :
    raiseIf p c = raise c := by simp [raiseIf, h]

theorem raiseIf_eq_ok {p : Prop} [Decidable p] {c : SubCause} {u : Unit} :
    raiseIf p c = .ok u ↔ ¬p := by
  by_cases h : p <;> simp [h, raise_ne_ok]

/-! ### The end of a command -/

@[simp] theorem finish_ok (w : Word) (s t : State) : finish w s (.ok t) = .next t := rfl

@[simp] theorem finish_raise (w : Word) (s : State) (c : SubCause) :
    finish w s (raise c) = .next (s.latch c w) := rfl

/-- A command answers a next state exactly when its rule succeeds with that state, or raises and the
state is the fault transition's. -/
theorem finish_eq_next {w : Word} {s t : State} {r : Act State} :
    finish w s r = .next t ↔ r = .ok t ∨ ∃ c, r = raise c ∧ t = s.latch c w := by
  rcases r with (c | f) | t'
  · simp [finish, raise, eq_comm]
  · simp [finish, raise]
  · simp [finish, raise]

/-- No command's rule is refused. -/
theorem finish_ne_refused {w : Word} {s : State} {r : Act State} {q : Refusal} :
    finish w s r ≠ .refused q := by
  rcases r with (c | f) | t' <;> simp [finish]

/-! ### Registers -/

theorem State.readX_some {s : State} {r : XReg} {w : Word} (h : s.x[r] = some w) :
    s.readX r = .ok w.toInt := by simp [State.readX, h]

theorem State.readX_none {s : State} {r : XReg} (h : s.x[r] = none) :
    s.readX r = raise .unwritten := by simp [State.readX, h]

theorem State.readX_eq_ok {s : State} {r : XReg} {v : Int} :
    s.readX r = .ok v ↔ ∃ w, s.x[r] = some w ∧ v = w.toInt := by
  cases h : s.x[r] with
  | none => simp [State.readX, h, raise]
  | some w => simp [State.readX, h, eq_comm]

theorem State.readP_some {s : State} {r : PReg} {q : Poly} (h : s.p[r] = some q) :
    s.readP r = .ok q := by simp [State.readP, h]

theorem State.readP_none {s : State} {r : PReg} (h : s.p[r] = none) :
    s.readP r = raise .unwritten := by simp [State.readP, h]

theorem State.readP_eq_ok {s : State} {r : PReg} {q : Poly} :
    s.readP r = .ok q ↔ s.p[r] = some q := by
  cases h : s.p[r] with
  | none => simp [State.readP, h, raise]
  | some w => simp [State.readP, h]

/-- A register read raises nothing but `UNWRITTEN`. -/
theorem State.readX_cases (s : State) (r : XReg) :
    (∃ v, s.readX r = .ok v) ∨ s.readX r = raise .unwritten := by
  cases h : s.x[r] <;> simp [State.readX, h]

theorem State.readP_cases (s : State) (r : PReg) :
    (∃ q, s.readP r = .ok q) ∨ s.readP r = raise .unwritten := by
  cases h : s.p[r] <;> simp [State.readP, h]

/-- Both registers of a pair are read, `ra` first. -/
theorem State.readXX_eq_ok {s : State} {ra rb : XReg} {v : Int × Int} :
    s.readXX ra rb = .ok v ↔ s.readX ra = .ok v.1 ∧ s.readX rb = .ok v.2 := by
  obtain ⟨a, b⟩ := v
  simp only [State.readXX]
  constructor
  · intro h
    obtain ⟨a', ha, h⟩ := Act.bind_eq_ok.mp h
    obtain ⟨b', hb, h⟩ := Act.bind_eq_ok.mp h
    cases h
    exact ⟨ha, hb⟩
  · rintro ⟨ha, hb⟩
    simp [ha, hb]

/-! ### Memory -/

/-- `MemRead` succeeds exactly on an access inside `M` all of whose bytes are written (R62). -/
theorem State.memRead_eq_ok {s : State} {a : Int} {n : Nat} {bs : List Byte} :
    s.memRead a n = .ok bs ↔ ¬outsideM a n ∧ Memory.bytes s.mem a.toNat n = some bs := by
  simp only [State.memRead]
  by_cases h : outsideM a n
  · rw [raiseIf_pos h]; simp [h, raise]
  · rw [raiseIf_neg h]
    cases hb : Memory.bytes s.mem a.toNat n <;> simp [h, raise]

/-- `MemWrite` succeeds exactly on an access inside `M`, and then changes `mem` alone (R63). -/
theorem State.memWrite_eq_ok {s t : State} {a : Int} {bs : List Byte} :
    s.memWrite a bs = .ok t ↔
      ¬outsideM a bs.length ∧ t = { s with mem := Memory.putBytes s.mem a.toNat bs } := by
  simp only [State.memWrite]
  by_cases h : outsideM a bs.length
  · rw [raiseIf_pos h]; simp [h, raise]
  · rw [raiseIf_neg h]; simp [h, eq_comm]

/-- `MemWrite` keeps the canonical form of memory. -/
theorem State.memWrite_wf {s t : State} {a : Int} {bs : List Byte} (h : s.memWrite a bs = .ok t)
    (hs : Memory.wf s.mem = true) : Memory.wf t.mem = true := by
  obtain ⟨hin, rfl⟩ := State.memWrite_eq_ok.mp h
  simp only [outsideM, not_or, not_lt] at hin
  exact Memory.wf_putBytes _ _ _ (by omega) hs

/-! ### The matrix and the stage -/

theorem State.readMat_eq_ok {s : State} {m : Mat} : s.readMat = .ok m ↔ s.mat = some m := by
  cases h : s.mat <;> simp [State.readMat, h]

theorem State.atStage_eq_ok {s : State} {g : Stage} {u : Unit} :
    s.atStage g = .ok u ↔ s.stage = g := by
  simp [State.atStage, raiseIf_eq_ok]

theorem State.fromStage_eq_ok {s : State} {g : Stage} {u : Unit} :
    s.fromStage g = .ok u ↔ g.code ≤ s.stage.code := by
  simp [State.fromStage, raiseIf_eq_ok]

end Sys2Proof.Machine
end

