-- ==== Sys2Proof/Laws/PerInstr.lean ====
section
/-! SUPPORT. Statements made of every command as syntax, one lemma per constructor of `Instr`. -/

namespace Sys2Proof.Laws.TableRow

/-- The word of a command passes the test of its own row of the opcode table (spec/30_encoding.md R93). -/
def Statement (i : Instr) : Prop := encode i &&& rowMask i = rowMatch i

/-! The register bits that a row's mask holds are 0 in a legal field (R93). -/

@[simp] theorem xBits_and (r : XReg) : xBits r &&& 8#4 = 0#4 := by revert r; decide

@[simp] theorem pBits_and (r : PReg) : pBits r &&& 12#4 = 0#4 := by revert r; decide

theorem nop : Statement .nop := by unfold Statement; decide

theorem rst : Statement .rst := by unfold Statement; decide

theorem clr : Statement .clr := by unfold Statement; decide

theorem li (rd : XReg) (imm : Int) : Statement (.li rd imm) := by
  show encode _ &&& (0xFF800000 : Word) = 0x08000000
  rw [show (0xFF800000 : Word) = packR 0xFF 8 0 0 0x000 by decide, encode, packI_eq_packR, packR_and]
  simp
  decide

theorem lb (rd ra : XReg) : Statement (.lb rd ra) := by
  show encode _ &&& (0xFF88FFFF : Word) = 0x09000000
  rw [show (0xFF88FFFF : Word) = packR 0xFF 8 8 15 0xFFF by decide, encode, packR_and]
  simp
  decide

theorem sb (rd ra : XReg) : Statement (.sb rd ra) := by
  show encode _ &&& (0xFF88FFFF : Word) = 0x0A000000
  rw [show (0xFF88FFFF : Word) = packR 0xFF 8 8 15 0xFFF by decide, encode, packR_and]
  simp
  decide

theorem csrr (rd : XReg) (csr : Nat) : Statement (.csrr rd csr) := by
  show encode _ &&& (0xFF8FF000 : Word) = 0x0B000000
  rw [show (0xFF8FF000 : Word) = packR 0xFF 8 15 15 0x000 by decide, encode, packR_and]
  simp
  decide

theorem csrw (csr : Nat) (ra : XReg) : Statement (.csrw csr ra) := by
  show encode _ &&& (0xFFF8F000 : Word) = 0x0C000000
  rw [show (0xFFF8F000 : Word) = packR 0xFF 15 8 15 0x000 by decide, encode, packR_and]
  simp
  decide

theorem gexp (rd ra : XReg) : Statement (.gexp rd ra) := by
  show encode _ &&& (0xFF88FFFF : Word) = 0x10000000
  rw [show (0xFF88FFFF : Word) = packR 0xFF 8 8 15 0xFFF by decide, encode, packR_and]
  simp
  decide

theorem glog (rd ra : XReg) : Statement (.glog rd ra) := by
  show encode _ &&& (0xFF88FFFF : Word) = 0x11000000
  rw [show (0xFF88FFFF : Word) = packR 0xFF 8 8 15 0xFFF by decide, encode, packR_and]
  simp
  decide

theorem gfmul (rd ra rb : XReg) : Statement (.gfmul rd ra rb) := by
  show encode _ &&& (0xFF888FFF : Word) = 0x12000000
  rw [show (0xFF888FFF : Word) = packR 0xFF 8 8 8 0xFFF by decide, encode, packR_and]
  simp
  decide

theorem gfadd (rd ra rb : XReg) : Statement (.gfadd rd ra rb) := by
  show encode _ &&& (0xFF888FFF : Word) = 0x13000000
  rw [show (0xFF888FFF : Word) = packR 0xFF 8 8 8 0xFFF by decide, encode, packR_and]
  simp
  decide

theorem pld (rd : PReg) (ra rb : XReg) : Statement (.pld rd ra rb) := by
  show encode _ &&& (0xFFC88FFF : Word) = 0x20000000
  rw [show (0xFFC88FFF : Word) = packR 0xFF 12 8 8 0xFFF by decide, encode, packR_and]
  simp
  decide

theorem pst (rd : PReg) (ra rb : XReg) : Statement (.pst rd ra rb) := by
  show encode _ &&& (0xFFC88FFF : Word) = 0x21000000
  rw [show (0xFFC88FFF : Word) = packR 0xFF 12 8 8 0xFFF by decide, encode, packR_and]
  simp
  decide

theorem plen (rd : XReg) (ra : PReg) : Statement (.plen rd ra) := by
  show encode _ &&& (0xFF8CFFFF : Word) = 0x22000000
  rw [show (0xFF8CFFFF : Word) = packR 0xFF 8 12 15 0xFFF by decide, encode, packR_and]
  simp
  decide

theorem pget (rd : XReg) (ra : PReg) (rb : XReg) : Statement (.pget rd ra rb) := by
  show encode _ &&& (0xFF8C8FFF : Word) = 0x23000000
  rw [show (0xFF8C8FFF : Word) = packR 0xFF 8 12 8 0xFFF by decide, encode, packR_and]
  simp
  decide

theorem pmul (rd ra rb : PReg) : Statement (.pmul rd ra rb) := by
  show encode _ &&& (0xFFCCCFFF : Word) = 0x24000000
  rw [show (0xFFCCCFFF : Word) = packR 0xFF 12 12 12 0xFFF by decide, encode, packR_and]
  simp
  decide

theorem pmod (rd ra rb : PReg) : Statement (.pmod rd ra rb) := by
  show encode _ &&& (0xFFCCCFFF : Word) = 0x25000000
  rw [show (0xFFCCCFFF : Word) = packR 0xFF 12 12 12 0xFFF by decide, encode, packR_and]
  simp
  decide

theorem pshift (rd ra : PReg) (rb : XReg) : Statement (.pshift rd ra rb) := by
  show encode _ &&& (0xFFCC8FFF : Word) = 0x26000000
  rw [show (0xFFCC8FFF : Word) = packR 0xFF 12 12 8 0xFFF by decide, encode, packR_and]
  simp
  decide

theorem pgen (rd : PReg) (ra : XReg) : Statement (.pgen rd ra) := by
  show encode _ &&& (0xFFC8FFFF : Word) = 0x27000000
  rw [show (0xFFC8FFFF : Word) = packR 0xFF 12 8 15 0xFFF by decide, encode, packR_and]
  simp
  decide

theorem rsgen : Statement .rsgen := by unfold Statement; decide

theorem ilv : Statement .ilv := by unfold Statement; decide

theorem bchfmt (rd ra rb : XReg) : Statement (.bchfmt rd ra rb) := by
  show encode _ &&& (0xFF888FFF : Word) = 0x38000000
  rw [show (0xFF888FFF : Word) = packR 0xFF 8 8 8 0xFFF by decide, encode, packR_and]
  simp
  decide

theorem bchver (rd ra : XReg) : Statement (.bchver rd ra) := by
  show encode _ &&& (0xFF88FFFF : Word) = 0x39000000
  rw [show (0xFF88FFFF : Word) = packR 0xFF 8 8 15 0xFFF by decide, encode, packR_and]
  simp
  decide

theorem minit : Statement .minit := by unfold Statement; decide

theorem mplace : Statement .mplace := by unfold Statement; decide

theorem mrd (rd ra rb : XReg) : Statement (.mrd rd ra rb) := by
  show encode _ &&& (0xFF888FFF : Word) = 0x42000000
  rw [show (0xFF888FFF : Word) = packR 0xFF 8 8 8 0xFFF by decide, encode, packR_and]
  simp
  decide

theorem mmeta : Statement .mmeta := by unfold Statement; decide

theorem mskbit (rd ra rb : XReg) (k : Nat) : Statement (.mskbit rd ra rb k) := by
  show encode _ &&& (0xFF888000 : Word) = 0x48000000
  rw [show (0xFF888000 : Word) = packR 0xFF 8 8 8 0x000 by decide, encode, packR_and]
  simp
  decide

theorem mapply (k : Nat) : Statement (.mapply k) := by
  show encode _ &&& (0xFFFFF000 : Word) = 0x49000000
  rw [show (0xFFFFF000 : Word) = packR 0xFF 15 15 15 0x000 by decide, encode, packR_and]
  simp
  decide

theorem mscore (rd : XReg) (sel : Nat) : Statement (.mscore rd sel) := by
  show encode _ &&& (0xFF8FF000 : Word) = 0x4A000000
  rw [show (0xFF8FF000 : Word) = packR 0xFF 8 15 15 0x000 by decide, encode, packR_and]
  simp
  decide

theorem mmask : Statement .mmask := by unfold Statement; decide

theorem encode : Statement .encode := by unfold Statement; decide

end Sys2Proof.Laws.TableRow
end

