-- ==== Sys2Proof/Laws/Rules.lean ====
section
/-! SUPPORT. Every command is `finish` of its rule, and for each rule, once, the state it can answer: the
checks that were passed and the whole update. Proofs about what commands do case on these lemmas and do not
unfold a rule. -/

namespace Sys2Proof.Machine

/-- The rule of a command (R86's last column). -/
def ruleOf : Instr → State → Act State
  | .nop => nopRule
  | .rst => rstRule
  | .clr => clrRule
  | .li rd imm => liRule rd imm
  | .lb rd ra => lbRule rd ra
  | .sb rd ra => sbRule rd ra
  | .csrr rd csr => csrrRule rd csr
  | .csrw csr ra => csrwRule csr ra
  | .gexp rd ra => gexpRule rd ra
  | .glog rd ra => glogRule rd ra
  | .gfmul rd ra rb => gfmulRule rd ra rb
  | .gfadd rd ra rb => gfaddRule rd ra rb
  | .pld rd ra rb => pldRule rd ra rb
  | .pst rd ra rb => pstRule rd ra rb
  | .plen rd ra => plenRule rd ra
  | .pget rd ra rb => pgetRule rd ra rb
  | .pmul rd ra rb => pmulRule rd ra rb
  | .pmod rd ra rb => pmodRule rd ra rb
  | .pshift rd ra rb => pshiftRule rd ra rb
  | .pgen rd ra => pgenRule rd ra
  | .rsgen => rsgenRule
  | .ilv => ilvRule
  | .bchfmt rd ra rb => bchfmtRule rd ra rb
  | .bchver rd ra => bchverRule rd ra
  | .minit => minitRule
  | .mplace => mplaceRule
  | .mrd rd ra rb => mrdRule rd ra rb
  | .mmeta => mmetaRule
  | .mskbit rd ra rb k => mskbitRule rd ra rb k
  | .mapply k => mapplyRule k
  | .mscore rd sel => mscoreRule rd sel
  | .mmask => mmaskRule
  | .encode => encodeRule

/-- What a command does is its rule, then the fault transition if the rule raised (R12, R92). -/
theorem exec_eq_finish (i : Instr) (s : State) : exec i s = finish (encode i) s (ruleOf i s) := by
  cases i <;> rfl

/-- A command answers a next state exactly when its rule succeeds with it or raises. -/
theorem exec_eq_next {i : Instr} {s t : State} :
    exec i s = .next t ↔ ruleOf i s = .ok t ∨ ∃ c, ruleOf i s = raise c ∧ t = s.latch c (encode i) := by
  rw [exec_eq_finish, finish_eq_next]

/-! ### Commands with a scalar destination -/

theorem lbRule_eq_ok {rd ra : XReg} {s t : State} (h : lbRule rd ra s = .ok t) :
    ∃ v, t = s.setX rd v := by
  obtain ⟨a, -, h⟩ := Act.bind_eq_ok.mp h
  obtain ⟨bs, -, h⟩ := Act.bind_eq_ok.mp h
  cases h
  exact ⟨_, rfl⟩

theorem csrrRule_eq_ok {rd : XReg} {n : Nat} {s t : State} (h : csrrRule rd n s = .ok t) :
    ∃ v : Nat, s.csr n = some v ∧ t = s.setX rd v := by
  unfold csrrRule at h
  split at h
  · exact absurd h raise_ne_ok
  · next v hv => cases h; exact ⟨v, hv, rfl⟩

theorem gexpRule_eq_ok {rd ra : XReg} {s t : State} (h : gexpRule rd ra s = .ok t) :
    ∃ e, s.readX ra = .ok e ∧ t = s.setX rd (gexp e).toNat := by
  obtain ⟨e, he, h⟩ := Act.bind_eq_ok.mp h
  cases h
  exact ⟨e, he, rfl⟩

theorem glogRule_eq_ok {rd ra : XReg} {s t : State} (h : glogRule rd ra s = .ok t) :
    ∃ v l, s.readX ra = .ok v ∧ glog v = .ok l ∧ t = s.setX rd l := by
  obtain ⟨v, hv, h⟩ := Act.bind_eq_ok.mp h
  obtain ⟨l, hl, h⟩ := Act.bind_eq_ok.mp h
  cases h
  exact ⟨v, l, hv, hl, rfl⟩

theorem gfmulRule_eq_ok {rd ra rb : XReg} {s t : State} (h : gfmulRule rd ra rb s = .ok t) :
    ∃ a b, s.readElems ra rb = .ok (a, b) ∧ t = s.setX rd (gfmul a b).toNat := by
  obtain ⟨⟨a, b⟩, he, h⟩ := Act.bind_eq_ok.mp h
  cases h
  exact ⟨a, b, he, rfl⟩

theorem gfaddRule_eq_ok {rd ra rb : XReg} {s t : State} (h : gfaddRule rd ra rb s = .ok t) :
    ∃ a b, s.readElems ra rb = .ok (a, b) ∧ t = s.setX rd (gfadd a b).toNat := by
  obtain ⟨⟨a, b⟩, he, h⟩ := Act.bind_eq_ok.mp h
  cases h
  exact ⟨a, b, he, rfl⟩

theorem plenRule_eq_ok {rd : XReg} {ra : PReg} {s t : State} (h : plenRule rd ra s = .ok t) :
    ∃ q : Poly, s.p[ra] = some q ∧ t = s.setX rd q.length := by
  obtain ⟨q, hq, h⟩ := Act.bind_eq_ok.mp h
  cases h
  exact ⟨q, State.readP_eq_ok.mp hq, rfl⟩

theorem pgetRule_eq_ok {rd : XReg} {ra : PReg} {rb : XReg} {s t : State}
    (h : pgetRule rd ra rb s = .ok t) :
    ∃ (q : Poly) (i : Int), s.p[ra] = some q ∧ s.readX rb = .ok i ∧ 0 ≤ i ∧ i < q.length ∧
      t = s.setX rd (q.getD i.toNat 0).toNat := by
  obtain ⟨q, hq, h⟩ := Act.bind_eq_ok.mp h
  obtain ⟨i, hi, h⟩ := Act.bind_eq_ok.mp h
  obtain ⟨u, hu, h⟩ := Act.bind_eq_ok.mp h
  have hu := raiseIf_eq_ok.mp hu
  cases h
  exact ⟨q, i, State.readP_eq_ok.mp hq, hi, by omega, by omega, rfl⟩

theorem bchfmtRule_eq_ok {rd ra rb : XReg} {s t : State} (h : bchfmtRule rd ra rb s = .ok t) :
    ∃ e k : Int, s.readX ra = .ok e ∧ s.readX rb = .ok k ∧ 0 ≤ e ∧ e ≤ 3 ∧ 0 ≤ k ∧ k ≤ 7 ∧
      t = s.setX rd (bchfmt e.toNat k.toNat) := by
  obtain ⟨⟨e, k⟩, he, h⟩ := Act.bind_eq_ok.mp h
  obtain ⟨u, hu, h⟩ := Act.bind_eq_ok.mp h
  have hu := raiseIf_eq_ok.mp hu
  have he := State.readXX_eq_ok.mp he
  cases h
  exact ⟨e, k, he.1, he.2, by omega, by omega, by omega, by omega, rfl⟩

theorem bchverRule_eq_ok {rd ra : XReg} {s t : State} (h : bchverRule rd ra s = .ok t) :
    ∃ v : Int, s.readX ra = .ok v ∧ 7 ≤ v ∧ v ≤ 40 ∧ t = s.setX rd (bchver v.toNat) := by
  obtain ⟨v, hv, h⟩ := Act.bind_eq_ok.mp h
  obtain ⟨u, hu, h⟩ := Act.bind_eq_ok.mp h
  have hu := raiseIf_eq_ok.mp hu
  cases h
  exact ⟨v, hv, by omega, by omega, rfl⟩

theorem mskbitRule_eq_ok {rd ra rb : XReg} {k : Nat} {s t : State}
    (h : mskbitRule rd ra rb k s = .ok t) :
    ∃ r c : Int, s.readX ra = .ok r ∧ s.readX rb = .ok c ∧ k ≤ 7 ∧ 0 ≤ r ∧ r ≤ 176 ∧ 0 ≤ c ∧ c ≤ 176 ∧
      t = s.setX rd (if maskfn k r.toNat c.toNat then 1 else 0) := by
  obtain ⟨⟨r, c⟩, hr, h⟩ := Act.bind_eq_ok.mp h
  obtain ⟨u, hu, h⟩ := Act.bind_eq_ok.mp h
  obtain ⟨u', hu', h⟩ := Act.bind_eq_ok.mp h
  have hu := raiseIf_eq_ok.mp hu
  have hu' := raiseIf_eq_ok.mp hu'
  have hr := State.readXX_eq_ok.mp hr
  cases h
  exact ⟨r, c, hr.1, hr.2, by omega, by omega, by omega, by omega, by omega, rfl⟩

theorem mscoreRule_eq_ok {rd : XReg} {sel : Nat} {s t : State} (h : mscoreRule rd sel s = .ok t) :
    ∃ m, 4 ≤ s.stage.code ∧ sel ≤ 4 ∧ s.mat = some m ∧ t = s.setX rd (scoreBy sel m) := by
  obtain ⟨u, hu, h⟩ := Act.bind_eq_ok.mp h
  obtain ⟨u', hu', h⟩ := Act.bind_eq_ok.mp h
  obtain ⟨m, hm, h⟩ := Act.bind_eq_ok.mp h
  have hu' := raiseIf_eq_ok.mp hu'
  cases h
  exact ⟨m, State.fromStage_eq_ok.mp hu, by omega, State.readMat_eq_ok.mp hm, rfl⟩

theorem mrdRule_eq_ok {rd ra rb : XReg} {s t : State} (h : mrdRule rd ra rb s = .ok t) :
    ∃ (r c : Int) (m : Mat), s.readX ra = .ok r ∧ s.readX rb = .ok c ∧ 3 ≤ s.stage.code ∧
      s.mat = some m ∧ 0 ≤ r ∧ r < m.side ∧ 0 ≤ c ∧ c < m.side ∧
      t = s.setX rd (m.cell r.toNat c.toNat).code := by
  obtain ⟨⟨r, c⟩, hr, h⟩ := Act.bind_eq_ok.mp h
  obtain ⟨u, hu, h⟩ := Act.bind_eq_ok.mp h
  obtain ⟨m, hm, h⟩ := Act.bind_eq_ok.mp h
  obtain ⟨u', hu', h⟩ := Act.bind_eq_ok.mp h
  have hu' := raiseIf_eq_ok.mp hu'
  have hr := State.readXX_eq_ok.mp hr
  cases h
  exact ⟨r, c, m, hr.1, hr.2, State.fromStage_eq_ok.mp hu, State.readMat_eq_ok.mp hm, by omega, by omega,
    by omega, by omega, rfl⟩

/-! ### Commands with a polynomial destination -/

theorem pldRule_eq_ok {rd : PReg} {ra rb : XReg} {s t : State} (h : pldRule rd ra rb s = .ok t) :
    ∃ (a n : Int) (bs : List Byte), s.readX ra = .ok a ∧ s.readX rb = .ok n ∧ 1 ≤ n ∧ n ≤ 256 ∧
      s.memRead a n.toNat = .ok bs ∧ t = s.setP rd (trim bs) := by
  obtain ⟨⟨a, n⟩, ha, h⟩ := Act.bind_eq_ok.mp h
  obtain ⟨u, hu, h⟩ := Act.bind_eq_ok.mp h
  obtain ⟨bs, hb, h⟩ := Act.bind_eq_ok.mp h
  have hu := raiseIf_eq_ok.mp hu
  have ha := State.readXX_eq_ok.mp ha
  cases h
  exact ⟨a, n, bs, ha.1, ha.2, by omega, by omega, hb, rfl⟩

theorem pmulRule_eq_ok {rd ra rb : PReg} {s t : State} (h : pmulRule rd ra rb s = .ok t) :
    ∃ a b : Poly, s.p[ra] = some a ∧ s.p[rb] = some b ∧ a.length + b.length - 1 ≤ 256 ∧
      t = s.setP rd (pmul a b) := by
  obtain ⟨⟨a, b⟩, hab, h⟩ := Act.bind_eq_ok.mp h
  obtain ⟨u, hu, h⟩ := Act.bind_eq_ok.mp h
  obtain ⟨a', ha, hab⟩ := Act.bind_eq_ok.mp hab
  obtain ⟨b', hb, hab⟩ := Act.bind_eq_ok.mp hab
  have hu := raiseIf_eq_ok.mp hu
  cases hab
  cases h
  exact ⟨a, b, State.readP_eq_ok.mp ha, State.readP_eq_ok.mp hb, by omega, rfl⟩

theorem pmodRule_eq_ok {rd ra rb : PReg} {s t : State} (h : pmodRule rd ra rb s = .ok t) :
    ∃ a b r : Poly, s.p[ra] = some a ∧ s.p[rb] = some b ∧ pmod a b = .ok r ∧ t = s.setP rd r := by
  obtain ⟨⟨a, b⟩, hab, h⟩ := Act.bind_eq_ok.mp h
  obtain ⟨r, hr, h⟩ := Act.bind_eq_ok.mp h
  obtain ⟨a', ha, hab⟩ := Act.bind_eq_ok.mp hab
  obtain ⟨b', hb, hab⟩ := Act.bind_eq_ok.mp hab
  cases hab
  cases h
  exact ⟨a, b, r, State.readP_eq_ok.mp ha, State.readP_eq_ok.mp hb, hr, rfl⟩

theorem pshiftRule_eq_ok {rd ra : PReg} {rb : XReg} {s t : State} (h : pshiftRule rd ra rb s = .ok t) :
    ∃ (a : Poly) (n : Int), s.p[ra] = some a ∧ s.readX rb = .ok n ∧ 0 ≤ n ∧ (a.length : Int) + n ≤ 256 ∧
      t = s.setP rd (pshift a n.toNat) := by
  obtain ⟨a, ha, h⟩ := Act.bind_eq_ok.mp h
  obtain ⟨n, hn, h⟩ := Act.bind_eq_ok.mp h
  obtain ⟨u, hu, h⟩ := Act.bind_eq_ok.mp h
  have hu := raiseIf_eq_ok.mp hu
  cases h
  exact ⟨a, n, State.readP_eq_ok.mp ha, hn, by omega, by omega, rfl⟩

theorem pgenRule_eq_ok {rd : PReg} {ra : XReg} {s t : State} (h : pgenRule rd ra s = .ok t) :
    ∃ n : Int, s.readX ra = .ok n ∧ 0 ≤ n ∧ n ≤ 255 ∧ t = s.setP rd (genpoly n.toNat) := by
  obtain ⟨n, hn, h⟩ := Act.bind_eq_ok.mp h
  obtain ⟨u, hu, h⟩ := Act.bind_eq_ok.mp h
  have hu := raiseIf_eq_ok.mp hu
  cases h
  exact ⟨n, hn, by omega, by omega, rfl⟩

/-! ### Commands that store to `M` -/

/-- A padded polynomial has exactly the length asked for (R154). -/
theorem length_padleft {q : List Byte} {n : Nat} (h : q.length ≤ n) : (padleft q n).length = n := by
  simp only [padleft, zeros, List.length_append, List.length_replicate]
  omega

theorem sbRule_eq_ok {rd ra : XReg} {s t : State} (h : sbRule rd ra s = .ok t) :
    ∃ v a : Int, s.readX rd = .ok v ∧ s.readX ra = .ok a ∧ 0 ≤ v ∧ v ≤ 255 ∧ 0 ≤ a ∧ a < 8192 ∧
      t = { s with mem := Memory.putBytes s.mem a.toNat [BitVec.ofInt 8 v] } := by
  obtain ⟨v, hv, h⟩ := Act.bind_eq_ok.mp h
  obtain ⟨a, ha, h⟩ := Act.bind_eq_ok.mp h
  obtain ⟨u, hu, h⟩ := Act.bind_eq_ok.mp h
  have hu := raiseIf_eq_ok.mp hu
  obtain ⟨hm, h⟩ := State.memWrite_eq_ok.mp h
  simp only [outsideM, Config.msize, List.length_singleton] at hm
  exact ⟨v, a, hv, ha, by omega, by omega, by omega, by omega, h⟩

theorem pstRule_eq_ok {rd : PReg} {ra rb : XReg} {s t : State} (h : pstRule rd ra rb s = .ok t) :
    ∃ (q : Poly) (a n : Int), s.p[rd] = some q ∧ s.readX ra = .ok a ∧ s.readX rb = .ok n ∧
      (q.length : Int) ≤ n ∧ n ≤ 256 ∧ 0 ≤ a ∧ a + n ≤ 8192 ∧
      t = { s with mem := Memory.putBytes s.mem a.toNat (padleft q n.toNat) } := by
  obtain ⟨q, hq, h⟩ := Act.bind_eq_ok.mp h
  obtain ⟨⟨a, n⟩, ha, h⟩ := Act.bind_eq_ok.mp h
  obtain ⟨u, hu, h⟩ := Act.bind_eq_ok.mp h
  have hu := raiseIf_eq_ok.mp hu
  have ha := State.readXX_eq_ok.mp ha
  obtain ⟨hm, h⟩ := State.memWrite_eq_ok.mp h
  have hl : (padleft q n.toNat).length = n.toNat := length_padleft (by omega)
  simp only [outsideM, Config.msize, hl] at hm
  exact ⟨q, a, n, State.readP_eq_ok.mp hq, ha.1, ha.2, by omega, by omega, by omega, by omega, h⟩

theorem rsgenRule_eq_ok {s t : State} (h : rsgenRule s = .ok t) :
    ∃ (bl : List Block) (d e : List Byte), s.stage = .idle ∧ s.blocks = .ok bl ∧
      s.memRead s.daddr.toNat s.dlen.toNat = .ok d ∧ s.eaddr.toNat + ecTotal bl ≤ 8192 ∧
      rsecAll bl d = .ok e ∧ s.eaddr.toNat + e.length ≤ 8192 ∧
      t = { s with
        mem := Memory.putBytes s.mem s.eaddr.toNat e
        elen := BitVec.ofNat 14 (ecTotal bl)
        stage := .ecDone } := by
  obtain ⟨g, hg, h⟩ := Act.bind_eq_ok.mp h
  obtain ⟨bl, hbl, h⟩ := Act.bind_eq_ok.mp h
  obtain ⟨d, hd, h⟩ := Act.bind_eq_ok.mp h
  obtain ⟨g', hg', h⟩ := Act.bind_eq_ok.mp h
  obtain ⟨e, he, h⟩ := Act.bind_eq_ok.mp h
  obtain ⟨u, hu, h⟩ := Act.bind_eq_ok.mp h
  have hg' := raiseIf_eq_ok.mp hg'
  cases h
  obtain ⟨hm, rfl⟩ := State.memWrite_eq_ok.mp hu
  simp only [outsideM, Config.msize] at hm
  exact ⟨bl, d, e, State.atStage_eq_ok.mp hg, hbl, hd, Nat.le_of_not_lt hg', he, by omega, rfl⟩

theorem ilvRule_eq_ok {s t : State} (h : ilvRule s = .ok t) :
    ∃ (bl : List Block) (d c f : List Byte), s.stage = .ecDone ∧ s.blocks = .ok bl ∧
      ecTotal bl = s.elen.toNat ∧ s.memRead s.daddr.toNat s.dlen.toNat = .ok d ∧
      s.memRead s.eaddr.toNat (ecTotal bl) = .ok c ∧
      s.faddr.toNat + (s.dlen.toNat + ecTotal bl) ≤ 8192 ∧
      f = interleave (cut (bl.map Block.data) d) (cut (bl.map Block.ec) c) ∧
      s.faddr.toNat + f.length ≤ 8192 ∧
      t = { s with
        mem := Memory.putBytes s.mem s.faddr.toNat f
        flen := BitVec.ofNat 14 (s.dlen.toNat + ecTotal bl)
        stage := .ilvDone } := by
  obtain ⟨g, hg, h⟩ := Act.bind_eq_ok.mp h
  obtain ⟨bl, hbl, h⟩ := Act.bind_eq_ok.mp h
  obtain ⟨g1, hg1, h⟩ := Act.bind_eq_ok.mp h
  obtain ⟨d, hd, h⟩ := Act.bind_eq_ok.mp h
  obtain ⟨c, hc, h⟩ := Act.bind_eq_ok.mp h
  obtain ⟨g', hg', h⟩ := Act.bind_eq_ok.mp h
  obtain ⟨u, hu, h⟩ := Act.bind_eq_ok.mp h
  have hg1 := raiseIf_eq_ok.mp hg1
  have hg' := raiseIf_eq_ok.mp hg'
  cases h
  obtain ⟨hm, rfl⟩ := State.memWrite_eq_ok.mp hu
  simp only [outsideM, Config.msize] at hm
  exact ⟨bl, d, c, _, State.atStage_eq_ok.mp hg, hbl, by omega, hd, hc, Nat.le_of_not_lt hg', rfl,
    by omega, rfl⟩

/-! ### Commands on CSRs and the matrix -/

theorem csrwRule_eq_ok {n : Nat} {ra : XReg} {s t : State} (h : csrwRule n ra s = .ok t) :
    ∃ v : Int, s.readX ra = .ok v ∧ s.writeCsr n v = some t := by
  obtain ⟨v, hv, h⟩ := Act.bind_eq_ok.mp h
  refine ⟨v, hv, ?_⟩
  split at h
  · exact absurd h raise_ne_ok
  · next u hu => cases h; exact hu

/-- What `CSRW` can write: one of the seven writable registers, within its range (R108). -/
theorem State.writeCsr_cases {s t : State} {n : Nat} {v : Int} (h : s.writeCsr n v = some t) :
    (cfgLegal v = true ∧ t = { s with cfg := BitVec.ofInt 12 v }) ∨
      (within v 8191 = true ∧ (t = { s with daddr := BitVec.ofInt 13 v } ∨
        t = { s with baddr := BitVec.ofInt 13 v } ∨ t = { s with eaddr := BitVec.ofInt 13 v } ∨
        t = { s with faddr := BitVec.ofInt 13 v })) ∨
      (within v 8192 = true ∧ t = { s with dlen := BitVec.ofInt 14 v }) ∨
      (within v 255 = true ∧ t = { s with nblk := BitVec.ofInt 8 v }) := by
  unfold State.writeCsr at h
  split at h
  case h_8 => cases h
  all_goals
    split at h
    · next hl => cases h; simp [hl]
    · cases h

theorem minitRule_eq_ok {s t : State} (h : minitRule s = .ok t) :
    s.stage = .ilvDone ∧ 1 ≤ s.typenum ∧ s.typenum ≤ 40 ∧
      t = (s.setMat (layout s.typenum)).setStage .layout := by
  obtain ⟨g, hg, h⟩ := Act.bind_eq_ok.mp h
  obtain ⟨g', hg', h⟩ := Act.bind_eq_ok.mp h
  have hg' := raiseIf_eq_ok.mp hg'
  cases h
  exact ⟨State.atStage_eq_ok.mp hg, by omega, by omega, rfl⟩

theorem mplaceRule_eq_ok {s t : State} (h : mplaceRule s = .ok t) :
    ∃ (f : List Byte) (m : Mat), s.stage = .layout ∧ s.memRead s.faddr.toNat s.flen.toNat = .ok f ∧
      s.mat = some m ∧ 8 * s.flen.toNat ≤ freecells m.v ∧
      t = (s.setMat (place m f)).setStage .placed := by
  obtain ⟨g, hg, h⟩ := Act.bind_eq_ok.mp h
  obtain ⟨f, hf, h⟩ := Act.bind_eq_ok.mp h
  obtain ⟨m, hm, h⟩ := Act.bind_eq_ok.mp h
  obtain ⟨g', hg', h⟩ := Act.bind_eq_ok.mp h
  have hg' := raiseIf_eq_ok.mp hg'
  cases h
  exact ⟨f, m, State.atStage_eq_ok.mp hg, hf, State.readMat_eq_ok.mp hm, Nat.le_of_not_lt hg', rfl⟩

theorem mapplyRule_eq_ok {k : Nat} {s t : State} (h : mapplyRule k s = .ok t) :
    ∃ m, s.stage = .placed ∧ k ≤ 7 ∧ s.mat = some m ∧ t = s.setMat (applymask m k) := by
  obtain ⟨g, hg, h⟩ := Act.bind_eq_ok.mp h
  obtain ⟨g', hg', h⟩ := Act.bind_eq_ok.mp h
  obtain ⟨m, hm, h⟩ := Act.bind_eq_ok.mp h
  have hg' := raiseIf_eq_ok.mp hg'
  cases h
  exact ⟨m, State.atStage_eq_ok.mp hg, by omega, State.readMat_eq_ok.mp hm, rfl⟩

theorem mmaskRule_eq_ok {s t : State} (h : mmaskRule s = .ok t) :
    ∃ m, s.stage = .placed ∧ s.mat = some m ∧
      t = { s with
        mat := some (applymask m (maskChoice s m))
        resmask := BitVec.ofNat 4 (8 ||| maskChoice s m)
        score := BitVec.ofNat 31 (penalty (applymask m (maskChoice s m)))
        stage := .masked } := by
  obtain ⟨g, hg, h⟩ := Act.bind_eq_ok.mp h
  obtain ⟨m, hm, h⟩ := Act.bind_eq_ok.mp h
  cases h
  exact ⟨m, State.atStage_eq_ok.mp hg, State.readMat_eq_ok.mp hm, rfl⟩

theorem mmetaRule_eq_ok {s t : State} (h : mmetaRule s = .ok t) :
    ∃ m, s.stage = .masked ∧ s.mat = some m ∧
      t = (s.setMat (writemeta m s.ecl s.resPattern)).setStage .done := by
  obtain ⟨g, hg, h⟩ := Act.bind_eq_ok.mp h
  obtain ⟨m, hm, h⟩ := Act.bind_eq_ok.mp h
  cases h
  exact ⟨m, State.atStage_eq_ok.mp hg, State.readMat_eq_ok.mp hm, rfl⟩

/-- `ENCODE` succeeds exactly when its six stages do, one after another (R257). -/
theorem encodeRule_eq_ok {s t : State} (h : encodeRule s = .ok t) :
    ∃ s1 s2 s3 s4 s5, rsgenRule s = .ok s1 ∧ ilvRule s1 = .ok s2 ∧ minitRule s2 = .ok s3 ∧
      mplaceRule s3 = .ok s4 ∧ mmaskRule s4 = .ok s5 ∧ mmetaRule s5 = .ok t := by
  obtain ⟨s1, h1, h⟩ := Act.bind_eq_ok.mp h
  obtain ⟨s2, h2, h⟩ := Act.bind_eq_ok.mp h
  obtain ⟨s3, h3, h⟩ := Act.bind_eq_ok.mp h
  obtain ⟨s4, h4, h⟩ := Act.bind_eq_ok.mp h
  obtain ⟨s5, h5, h⟩ := Act.bind_eq_ok.mp h
  exact ⟨s1, s2, s3, s4, s5, h1, h2, h3, h4, h5, h⟩

end Sys2Proof.Machine
end

