-- ==== Sys2Proof/Machine/Assembler.lean ====
section
/-! DEFINITION. Reading a line of assembly (spec/30_encoding.md R90, R91): the mnemonic in capitals, then the
operands separated by commas in the order of R86's Assembly column; a `;` starts a comment. Writing a line is
`Instr.assembly` (Syntax.lean). -/

namespace Sys2Proof.Machine

/-! ### Pieces of a line -/

def isBlank (c : Char) : Bool := c == ' ' || c == '\t'

/-- The characters without the blanks at both ends. -/
def strip (l : List Char) : List Char := ((l.dropWhile isBlank).reverse.dropWhile isBlank).reverse

/-- The pieces between the commas. -/
def splitCommas : List Char → List (List Char)
  | [] => [[]]
  | c :: l =>
    match splitCommas l with
    | [] => [[c]]
    | piece :: rest => if c == ',' then [] :: piece :: rest else (c :: piece) :: rest

/-! ### Operands (R90) -/

/-- The value of a digit in the base `base`; letters may be capitals or not. -/
def digitVal (base : Nat) (c : Char) : Option Nat :=
  let n := c.toNat
  let v :=
    if 48 ≤ n ∧ n ≤ 57 then n - 48
    else if 97 ≤ n ∧ n ≤ 102 then n - 87
    else if 65 ≤ n ∧ n ≤ 70 then n - 55
    else base
  if v < base then some v else none

/-- The number that a nonempty sequence of digits writes. -/
def digitsVal (base : Nat) : List Char → Option Nat
  | [] => none
  | c :: l => (c :: l).foldlM (fun acc d => (digitVal base d).map fun v => base * acc + v) 0

/-- An unsigned immediate: decimal, or `0x` and hexadecimal digits. -/
def unsignedVal : List Char → Option Nat
  | '0' :: 'x' :: l => digitsVal 16 l
  | l => digitsVal 10 l

/-- The immediate of `LI`: a decimal one may be negative. -/
def signedVal : List Char → Option Int
  | '-' :: l => (digitsVal 10 l).map fun n => -(n : Int)
  | l => (unsignedVal l).map fun n => (n : Int)

/-- `xN`, N = 0 to 7. -/
def xregVal : List Char → Option XReg
  | ['x', c] => (digitVal 8 c).map (Fin.ofNat 8)
  | _ => none

/-- `pN`, N = 0 to 3. -/
def pregVal : List Char → Option PReg
  | ['p', c] => (digitVal 4 c).map (Fin.ofNat 4)
  | _ => none

/-- A CSR: its name (R29) or its number. -/
def csrVal (l : List Char) : Option Nat :=
  (csrNames.findIdx? fun n => n.toList == l).or (unsignedVal l)

/-! ### The line -/

/-- The commands without operands. -/
def nullary : List Instr := [.nop, .rst, .clr, .rsgen, .ilv, .minit, .mplace, .mmeta, .mmask, .encode]

/-- The command with the mnemonic `m` and the operands `ops`, before the immediates are checked. -/
def assembleOps (m : List Char) (ops : List (List Char)) : Option Instr :=
  let is (s : String) : Bool := s.toList == m
  match ops with
  | [] => nullary.find? fun i => is i.mnemonic
  | [a] => if is "MAPPLY" then (unsignedVal a).map .mapply else none
  | [a, b] =>
    if is "LI" then do .some (.li (← xregVal a) (← signedVal b))
    else if is "LB" then do .some (.lb (← xregVal a) (← xregVal b))
    else if is "SB" then do .some (.sb (← xregVal a) (← xregVal b))
    else if is "CSRR" then do .some (.csrr (← xregVal a) (← csrVal b))
    else if is "CSRW" then do .some (.csrw (← csrVal a) (← xregVal b))
    else if is "GEXP" then do .some (.gexp (← xregVal a) (← xregVal b))
    else if is "GLOG" then do .some (.glog (← xregVal a) (← xregVal b))
    else if is "PLEN" then do .some (.plen (← xregVal a) (← pregVal b))
    else if is "PGEN" then do .some (.pgen (← pregVal a) (← xregVal b))
    else if is "BCHVER" then do .some (.bchver (← xregVal a) (← xregVal b))
    else if is "MSCORE" then do .some (.mscore (← xregVal a) (← unsignedVal b))
    else none
  | [a, b, c] =>
    if is "GFMUL" then do .some (.gfmul (← xregVal a) (← xregVal b) (← xregVal c))
    else if is "GFADD" then do .some (.gfadd (← xregVal a) (← xregVal b) (← xregVal c))
    else if is "PLD" then do .some (.pld (← pregVal a) (← xregVal b) (← xregVal c))
    else if is "PST" then do .some (.pst (← pregVal a) (← xregVal b) (← xregVal c))
    else if is "PGET" then do .some (.pget (← xregVal a) (← pregVal b) (← xregVal c))
    else if is "PMUL" then do .some (.pmul (← pregVal a) (← pregVal b) (← pregVal c))
    else if is "PMOD" then do .some (.pmod (← pregVal a) (← pregVal b) (← pregVal c))
    else if is "PSHIFT" then do .some (.pshift (← pregVal a) (← pregVal b) (← xregVal c))
    else if is "BCHFMT" then do .some (.bchfmt (← xregVal a) (← xregVal b) (← xregVal c))
    else if is "MRD" then do .some (.mrd (← xregVal a) (← xregVal b) (← xregVal c))
    else none
  | [a, b, c, d] =>
    if is "MSKBIT" then do
      .some (.mskbit (← xregVal a) (← xregVal b) (← xregVal c) (← unsignedVal d))
    else none
  | _ => none

/-- The command of a line (R90): `none` for a line that is no command, or whose immediate does not fit its
field. -/
def assemble (line : String) : Option Instr :=
  let code := strip (line.toList.takeWhile fun c => c != ';')
  let rest := strip (code.dropWhile fun c => !isBlank c)
  let ops := if rest.isEmpty then [] else (splitCommas rest).map strip
  (assembleOps (code.takeWhile fun c => !isBlank c) ops).filter fun i => WellFormed i

end Sys2Proof.Machine
end

