-- ==== Sys2Proof/Tests/Slice0.lean ====
section
/-! SUPPORT. The model's own tests. Expected values are those of spec/95_test_vectors.md and of the examples
in the rules; each test is about one command or one step. The theorems `wit_...` show concrete states and
operands that meet the hypotheses of the statement they are named after, at the ends of its clauses. -/

namespace Sys2Proof.Tests

open Sys2Proof.Machine

/-! ### Small states and what is read off a result -/

/-- The reset state with some scalar registers written. -/
def regs (l : List (XReg × Int)) : State := l.foldl (fun s e => s.setX e.1 e.2) State.reset

/-- `s` with bytes in `M`. -/
def withM (s : State) (a : Nat) (bs : List Byte) : State :=
  { s with mem := Memory.putBytes s.mem a bs }

/-- The state a command answers, if it answers one. -/
def out (i : Instr) (s : State) : Option State :=
  match exec i s with
  | .next t => some t
  | .fault _ => none
  | .refused _ => none

/-- The state a step answers when the word `w` is presented to `s`. -/
def stepOut (s : State) (w : Nat) : Option State :=
  match step (s.withFetchWord 32 w) with
  | .next t => some t
  | .fault _ => none
  | .refused _ => none

def xOut (i : Instr) (s : State) (r : XReg) : Option Word := (out i s).bind fun t => t.x[r]

def pOut (i : Instr) (s : State) (r : PReg) : Option Poly := (out i s).bind fun t => t.p[r]

def mOut (i : Instr) (s : State) (a : Nat) : Option Byte :=
  (out i s).bind fun t => Memory.byteAt t.mem a

/-- The sub-cause a command latches. -/
def sub (i : Instr) (s : State) : Option SubCause := (out i s).bind State.info

/-- A cell of the matrix after a command. -/
def cellOut (i : Instr) (s : State) (r c : Nat) : Option Cell :=
  (out i s).bind fun t => t.mat.map fun m => m.cell r c

/-- Program P3 of spec/95_test_vectors.md, ready for `ENCODE`, with an explicit mask 0 in place of the
automatic choice, which is 0 there. -/
def p3 : State :=
  { withM (withM State.reset 0
      [0x10, 0x20, 0x0C, 0x56, 0x61, 0x80, 0xEC, 0x11, 0xEC, 0x11, 0xEC, 0x11, 0xEC, 0x11, 0xEC, 0x11])
      64 [26, 16] with
    cfg := 0x001, dlen := 16, baddr := 64, nblk := 1, eaddr := 32, faddr := 128 }

/-- Program P4 of spec/95_test_vectors.md, ready for `RSGEN`. -/
def p4 : State :=
  { withM (withM State.reset 0 [0x12, 0x34, 0x56, 0x78, 0x9A, 0xBC, 0xDE]) 16 [5, 3, 6, 4] with
    cfg := 0x341, dlen := 7, baddr := 16, nblk := 2, eaddr := 32, faddr := 48 }

/-- Program P4 after `RSGEN`, written out. -/
def p4ec : State :=
  { withM p4 32 [0x98, 0xE8, 0x68, 0xE8] with elen := 4, stage := .ecDone }

/-- A block with the matrix `m` at the stage `g`. -/
def atMat (m : Mat) (g : Stage) : State := { State.reset with mat := some m, stage := g }

/-- `layout(1)`, each of whose data cells is dark where `f` is. -/
def filled (f : Nat → Nat → Bool) : Mat :=
  Mat.build 1 fun r c =>
    let e := layoutCell 1 r c
    if e.fn then e else { e with val := if f r c then .dark else .light }

/-! ### WellFormed smoke: one ill-formed term for each check -/

theorem test_wellFormed_imm20_above : WellFormed (.li 0 524288) = false := by decide

theorem test_wellFormed_imm20_below : WellFormed (.li 0 (-524289)) = false := by decide

theorem test_wellFormed_imm12 :
    WellFormed (.csrr 0 4096) = false ∧ WellFormed (.csrw 4096 0) = false ∧
      WellFormed (.mskbit 0 0 0 4096) = false ∧ WellFormed (.mapply 4096) = false ∧
      WellFormed (.mscore 0 4096) = false := by decide

theorem test_wellFormed_limits :
    WellFormed (.li 7 524287) = true ∧ WellFormed (.li 7 (-524288)) = true ∧
      WellFormed (.csrr 7 4095) = true := by decide

/-! ### Decoding: words written out bit by bit from spec/30_encoding.md R81 to R86 (op, rd, ra, rb, imm) -/

theorem test_decode_system :
    decode 0b00000000_000000000000000000000000 = .ok .nop ∧
      decode 0b00000001_000000000000000000000000 = .ok .rst ∧
      decode 0b00000010_000000000000000000000000 = .ok .clr ∧
      decode 0b00001000_0111_01111111111111111111 = .ok (.li 7 524287) ∧
      decode 0b00001000_0000_10000000000000000000 = .ok (.li 0 (-524288)) ∧
      decode 0b00001001_0010_0101_0000_000000000000 = .ok (.lb 2 5) ∧
      decode 0b00001010_0011_0110_0000_000000000000 = .ok (.sb 3 6) ∧
      decode 0b00001011_0001_0000_0000_111111111111 = .ok (.csrr 1 4095) ∧
      decode 0b00001100_0000_0100_0000_000000000010 = .ok (.csrw 2 4) := by decide

theorem test_decode_gf :
    decode 0b00010000_0001_0010_0000_000000000000 = .ok (.gexp 1 2) ∧
      decode 0b00010001_0110_0111_0000_000000000000 = .ok (.glog 6 7) ∧
      decode 0b00010010_0011_0001_0010_000000000000 = .ok (.gfmul 3 1 2) ∧
      decode 0b00010011_0111_0000_0100_000000000000 = .ok (.gfadd 7 0 4) := by decide

theorem test_decode_polynomial :
    decode 0b00100000_0011_0101_0110_000000000000 = .ok (.pld 3 5 6) ∧
      decode 0b00100001_0010_0111_0001_000000000000 = .ok (.pst 2 7 1) ∧
      decode 0b00100010_0111_0011_0000_000000000000 = .ok (.plen 7 3) ∧
      decode 0b00100011_0100_0010_0101_000000000000 = .ok (.pget 4 2 5) ∧
      decode 0b00100100_0001_0010_0011_000000000000 = .ok (.pmul 1 2 3) ∧
      decode 0b00100101_0011_0001_0010_000000000000 = .ok (.pmod 3 1 2) ∧
      decode 0b00100110_0010_0011_0111_000000000000 = .ok (.pshift 2 3 7) ∧
      decode 0b00100111_0010_0001_0000_000000000000 = .ok (.pgen 2 1) := by decide

theorem test_decode_stages :
    decode 0b00110000_000000000000000000000000 = .ok .rsgen ∧
      decode 0b00110001_000000000000000000000000 = .ok .ilv ∧
      decode 0b01000000_000000000000000000000000 = .ok .minit ∧
      decode 0b01000001_000000000000000000000000 = .ok .mplace ∧
      decode 0b01000011_000000000000000000000000 = .ok .mmeta ∧
      decode 0b01001011_000000000000000000000000 = .ok .mmask ∧
      decode 0b01100000_000000000000000000000000 = .ok .encode := by decide

theorem test_decode_bch_mask_matrix :
    decode 0b00111000_0100_0010_0001_000000000000 = .ok (.bchfmt 4 2 1) ∧
      decode 0b00111001_0100_0011_0000_000000000000 = .ok (.bchver 4 3) ∧
      decode 0b01000010_0110_0101_0100_000000000000 = .ok (.mrd 6 5 4) ∧
      decode 0b01001000_0000_0001_0010_000000000101 = .ok (.mskbit 0 1 2 5) ∧
      decode 0b01001001_0000_0000_0000_000000000111 = .ok (.mapply 7) ∧
      decode 0b01001010_0111_0000_0000_000000000100 = .ok (.mscore 7 4) := by decide

/-- Section 2.8: illegal words, each by the check it fails first. -/
theorem test_decode_illegal :
    decode 0x00000001 = .error .nonzeroLowBits ∧ decode 0x03000000 = .error .unassignedOpcode ∧
      decode 0xFFFFFFFF = .error .unassignedOpcode ∧ decode 0x08800000 = .error .badRd ∧
      decode 0x09011000 = .error .badRb ∧ decode 0x09010001 = .error .nonzeroImm ∧
      decode 0x0B010000 = .error .badRa ∧ decode 0x0C100002 = .error .badRd ∧
      decode 0x24401000 = .error .badRd ∧ decode 0x24340000 = .error .badRa ∧
      decode 0x22470000 = .error .badRa ∧ decode 0x49100000 = .error .badRd ∧
      decode 0x4A010000 = .error .badRa ∧ decode 0x11810000 = .error .badRd := by decide

theorem test_assembly :
    Instr.assembly (.csrw 2 4) = "CSRW CFG, x4" ∧ Instr.assembly (.pst 3 0 1) = "PST p3, x0, x1" ∧
      Instr.assembly (.li 2 (-1)) = "LI x2, -1" := by decide

/-- The examples of R90, and lines that are no command. -/
theorem test_assemble :
    assemble "LI x1, 0x10" = some (.li 1 16) ∧
      assemble "  SB x2, x1 ; stores x2 at address x1" = some (.sb 2 1) ∧
      assemble "CSRW DLEN, x3" = some (.csrw 4 3) ∧ assemble "CSRR x0, 13" = some (.csrr 0 13) ∧
      assemble "PST p3, x0, x1" = some (.pst 3 0 1) ∧ assemble "MAPPLY 2" = some (.mapply 2) ∧
      assemble "MSCORE x5, 0" = some (.mscore 5 0) ∧ assemble "LI x2, -1" = some (.li 2 (-1)) ∧
      assemble "ENCODE" = some .encode ∧ assemble "LI x8, 0" = none ∧ assemble "PLEN x0, p4" = none ∧
      assemble "MAPPLY -1" = none ∧ assemble "LI x0, 524288" = none ∧ assemble "" = none ∧
      assemble "nop" = none := by decide +kernel

/-! ### The step -/

/-- A word placed by `withFetchWord` is the first command after reset: `LI x1, 16`. -/
theorem test_step_first_after_reset :
    stepOut State.reset 0x08100010 = some (State.reset.setX 1 16) := by decide

/-- An illegal word latches `ILLEGAL_CMD`, even where a register read would have faulted (section 2.8). -/
theorem test_step_illegal :
    stepOut State.reset 0x11810000 =
      some { State.reset with err := .invalidArgument, info := some .illegalCmd, ecmd := 0x11810000 } := by
  decide

/-- While faulted `CLR` is ignored and `RST` gives the reset state (section 2.1). -/
theorem test_step_faulted :
    let f : State := (regs [(1, 5)]).latch .glogDomain 0x11010000
    stepOut f 0x02000000 = some f ∧ stepOut f 0x01000000 = some State.reset := by decide

/-! ### System commands (section 2.1) -/

theorem test_nop_clr_rst :
    out .nop (regs [(1, 5)]) = some (regs [(1, 5)]) ∧
      out .clr { regs [(1, 5)] with stage := .ecDone, elen := 4, cfg := 1 } =
        some { regs [(1, 5)] with cfg := 1 } ∧
      out .rst (regs [(1, 5)]) = some State.reset := by decide

theorem test_li : xOut (.li 2 (-1)) State.reset 2 = some 0xFFFFFFFF ∧
    xOut (.li 0 (-524288)) State.reset 0 = some 0xFFF80000 := by decide

theorem test_lb :
    xOut (.lb 0 1) (withM (regs [(1, 5)]) 5 [0xEC]) 0 = some 236 ∧
      sub (.lb 0 1) (regs [(1, 6)]) = some .unwritten ∧ sub (.lb 0 1) (regs [(1, -1)]) = some .addrRange ∧
      xOut (.lb 1 1) (withM (regs [(1, 8191)]) 8191 [1]) 1 = some 1 := by decide

theorem test_sb :
    mOut (.sb 2 1) (regs [(2, 0x11), (1, 7)]) 7 = some 0x11 ∧
      sub (.sb 2 1) (regs [(2, 256), (1, 7)]) = some .elemRange ∧
      sub (.sb 2 1) (regs [(2, 0), (1, 8192)]) = some .addrRange ∧
      sub (.sb 2 1) (regs [(2, 300), (1, 8192)]) = some .elemRange ∧
      sub (.sb 2 1) (regs [(1, 7)]) = some .unwritten := by decide

theorem test_csrr :
    xOut (.csrr 0 0) State.reset 0 = some 0 ∧
      xOut (.csrr 0 0) { State.reset with stage := .placed } 0 = some 64 ∧
      sub (.csrr 0 14) State.reset = some .badCsr ∧
      xOut (.csrr 0 13) (atMat (layout 1) .layout) 0 = some 21 := by decide

theorem test_csrw :
    out (.csrw 2 4) (regs [(4, 0x7E8)]) = some { regs [(4, 0x7E8)] with cfg := 0x7E8 } ∧
      sub (.csrw 2 4) (regs [(4, 0x029)]) = some .badCsr ∧ sub (.csrw 2 4) (regs [(4, 0x901)]) = some .badCsr ∧
      sub (.csrw 2 4) (regs [(4, 0x1001)]) = some .badCsr ∧
      out (.csrw 4 4) (regs [(4, 8192)]) = some { regs [(4, 8192)] with dlen := 8192 } ∧
      sub (.csrw 3 4) (regs [(4, 8192)]) = some .badCsr ∧ sub (.csrw 6 4) (regs [(4, 256)]) = some .badCsr ∧
      sub (.csrw 9 4) (regs [(4, 5)]) = some .badCsr ∧ sub (.csrw 99 4) State.reset = some .unwritten := by
  decide

/-! ### GF(256) (section 2.2) -/

theorem test_gexp :
    xOut (.gexp 0 1) (regs [(1, -1)]) 0 = some 142 ∧
      xOut (.gexp 0 1) (regs [(1, -2147483648)]) 0 = some 204 ∧
      xOut (.gexp 0 1) (regs [(1, 2147483647)]) 0 = some 204 ∧ gexp 256 = 2 ∧ gexp (-255) = 1 := by decide

theorem test_glog :
    xOut (.glog 0 1) (regs [(1, 29)]) 0 = some 8 ∧ xOut (.glog 0 1) (regs [(1, 255)]) 0 = some 175 ∧
      sub (.glog 0 1) (regs [(1, 0)]) = some .glogDomain ∧
      sub (.glog 0 1) (regs [(1, 256)]) = some .glogDomain := by decide

theorem test_gfmul :
    xOut (.gfmul 3 1 2) (regs [(1, 0x53), (2, 0xCA)]) 3 = some 143 ∧
      xOut (.gfmul 1 1 1) (regs [(1, 2)]) 1 = some 4 ∧ xOut (.gfmul 3 1 2) (regs [(1, 0), (2, 77)]) 3 = some 0 ∧
      sub (.gfmul 3 1 2) (regs [(1, 256), (2, 1)]) = some .elemRange := by decide

theorem test_gfadd :
    xOut (.gfadd 3 1 2) (regs [(1, 0x53), (2, 0xCA)]) 3 = some 153 ∧
      sub (.gfadd 3 1 2) (regs [(1, -1), (2, 1)]) = some .elemRange := by decide

/-! ### Polynomials (section 2.3) -/

theorem test_pld :
    pOut (.pld 0 0 1) (withM (regs [(0, 0), (1, 4)]) 0 [0, 0, 5, 0]) 0 = some [5, 0] ∧
      sub (.pld 0 0 1) (regs [(0, 0), (1, 0)]) = some .range ∧
      sub (.pld 0 0 1) (regs [(0, 8000), (1, 256)]) = some .addrRange := by decide

theorem test_pst :
    mOut (.pst 3 0 1) ((regs [(0, 100), (1, 4)]).setP 3 [6, 14]) 102 = some 6 ∧
      mOut (.pst 3 0 1) ((regs [(0, 100), (1, 4)]).setP 3 [6, 14]) 100 = some 0 ∧
      sub (.pst 2 2 1) ((regs [(2, 16), (1, 1)]).setP 2 [13, 118]) = some .range := by decide

theorem test_plen : xOut (.plen 2 0) (State.reset.setP 0 [5, 0]) 2 = some 2 ∧
    sub (.plen 0 0) State.reset = some .unwritten := by decide

theorem test_pget :
    xOut (.pget 2 0 1) ((regs [(1, 0)]).setP 0 [5, 0]) 2 = some 5 ∧
      sub (.pget 2 0 1) ((regs [(1, 2)]).setP 0 [5, 0]) = some .range ∧
      sub (.pget 2 0 1) ((regs [(1, -1)]).setP 0 [5, 0]) = some .range := by decide

theorem test_pmul :
    pOut (.pmul 2 0 1) ((State.reset.setP 0 [1, 1]).setP 1 [1, 2]) 2 = some [1, 3, 2] ∧
      pmul [2, 0, 1] [128, 1] = [29, 2, 128, 1] ∧ pmul [255, 255] [255, 255] = [226, 0, 226] ∧
      pmul [0] [5, 6] = [0] := by decide

theorem test_pmod :
    pOut (.pmod 2 0 1) ((State.reset.setP 0 [32, 91, 0, 0]).setP 1 [1, 3, 2]) 2 = some [13, 118] ∧
      sub (.pmod 2 0 1) ((State.reset.setP 0 [5]).setP 1 [0]) = some .glogDomain ∧
      pOut (.pmod 2 0 1) ((State.reset.setP 0 [0]).setP 1 [0]) 2 = some [0] ∧
      pOut (.pmod 1 1 1) (State.reset.setP 1 [1, 3, 2]) 1 = some [0] := by decide

theorem test_pshift :
    pOut (.pshift 1 0 1) ((regs [(1, 3)]).setP 0 [5]) 1 = some [5, 0, 0, 0] ∧
      pOut (.pshift 1 0 1) ((regs [(1, 3)]).setP 0 [0]) 1 = some [0] ∧
      sub (.pshift 1 0 1) ((regs [(1, 256)]).setP 0 [5]) = some .range := by decide

/-! ### Reed-Solomon and interleaving (section 2.5, program P4) -/

theorem test_pgen :
    pOut (.pgen 2 1) (regs [(1, 2)]) 2 = some [1, 3, 2] ∧ pOut (.pgen 2 1) (regs [(1, 0)]) 2 = some [1] ∧
      genpoly 7 = [1, 127, 122, 154, 164, 11, 68, 117] ∧
      sub (.pgen 0 1) (regs [(1, 256)]) = some .range := by decide

theorem test_rsgen :
    (List.range 4).map (fun i => mOut .rsgen p4 (32 + i)) = [0x98, 0xE8, 0x68, 0xE8].map some ∧
      sub .rsgen { p4 with nblk := 0 } = some .badBlocks ∧ sub .rsgen { p4 with dlen := 8 } = some .badBlocks ∧
      sub .rsgen { p4 with baddr := 8190 } = some .addrRange ∧
      sub .rsgen { p4 with eaddr := 8190 } = some .addrRange ∧
      sub .rsgen { p4 with stage := .ecDone } = some .badStage := by decide

theorem test_ilv :
    (List.range 11).map (fun i => mOut .ilv p4ec (48 + i)) =
        [0x12, 0x78, 0x34, 0x9A, 0x56, 0xBC, 0xDE, 0x98, 0x68, 0xE8, 0xE8].map some ∧
      (out .ilv p4ec).map State.flen = some 11 := by decide

/-! ### BCH (section 2.4) -/

theorem test_bchfmt :
    xOut (.bchfmt 0 1 2) (regs [(1, 1), (2, 0)]) 0 = some 0x77C4 ∧ bchfmt 2 5 = 0x0255 ∧ bchfmt 3 7 = 0x2BED ∧
      sub (.bchfmt 0 1 2) (regs [(1, 4), (2, 0)]) = some .badConfig ∧
      sub (.bchfmt 0 1 2) (regs [(1, 1), (2, 8)]) = some .badConfig := by decide

theorem test_bchver :
    xOut (.bchver 0 1) (regs [(1, 7)]) 0 = some 0x7C94 ∧ xOut (.bchver 0 1) (regs [(1, 40)]) 0 = some 0x28C69 ∧
      sub (.bchver 0 1) (regs [(1, 6)]) = some .badConfig ∧
      sub (.bchver 0 1) (regs [(1, 41)]) = some .badConfig := by decide

/-! ### Masks (section 2.6) -/

theorem test_mskbit :
    xOut (.mskbit 0 1 2 5) (regs [(1, 3), (2, 4)]) 0 = some 1 ∧
      xOut (.mskbit 0 1 2 0) (regs [(1, 3), (2, 4)]) 0 = some 0 ∧
      sub (.mskbit 0 1 2 0) (regs [(1, 177), (2, 0)]) = some .range ∧
      sub (.mskbit 0 1 2 8) (regs [(1, 177), (2, 0)]) = some .badConfig := by decide

/-- The values of R181 at `(3, 4)`. -/
theorem test_maskfn : (List.range 8).map (fun k => maskfn k 3 4) =
    [false, false, false, false, true, true, true, false] := by decide

/-- Grids G1, G3 (its row 0) and G4 (its row 7) of section 2.6. -/
theorem test_penalties :
    penaltyGrid (List.replicate 11 (List.replicate 11 false)) = 598 ∧
      lineRuns [true, true, true, true, true, false, false, false, false, false, false, true] = 7 ∧
      windowsOf finderLight
          [false, false, false, false, true, false, true, true, true, false, true, false, false, false,
            false] = 1 ∧
      windowsOf lightFinder
          [false, false, false, false, true, false, true, true, true, false, true, false, false, false,
            false] = 1 := by decide +kernel

theorem test_mapply :
    cellOut (.mapply 0) (atMat (filled fun _ _ => false) .placed) 20 20 = some ⟨.dark, false⟩ ∧
      cellOut (.mapply 0) (atMat (filled fun _ _ => false) .placed) 20 19 = some ⟨.light, false⟩ ∧
      sub (.mapply 8) (atMat (layout 1) .placed) = some .badConfig ∧
      sub (.mapply 8) (atMat (layout 1) .layout) = some .badStage := by decide +kernel

/-- The empty stream of section 2.6: every data cell light; pattern 0 gives the total 269. -/
theorem test_mmask :
    (out .mmask (atMat (filled fun _ _ => false) .placed)).map
      (fun t => (t.score.toNat, t.resmask.toNat, t.stage)) = some (269, 8, .masked) := by decide +kernel

theorem test_mscore :
    sub (.mscore 0 5) (atMat (layout 1) .placed) = some .badConfig ∧
      sub (.mscore 0 0) (atMat (layout 1) .layout) = some .badStage ∧
      xOut (.mscore 0 0) (atMat (applymask (filled fun _ _ => false) 6) .placed) 0 = some 427 := by
  decide +kernel

/-! ### The matrix (section 2.7) -/

theorem test_minit :
    let s : State := { State.reset with stage := .ilvDone, cfg := 1 }
    cellOut .minit s 0 0 = some ⟨.dark, true⟩ ∧ cellOut .minit s 7 7 = some ⟨.light, true⟩ ∧
      cellOut .minit s 6 9 = some ⟨.light, true⟩ ∧ cellOut .minit s 8 8 = some ⟨.unset, true⟩ ∧
      cellOut .minit s 20 20 = some ⟨.unset, false⟩ ∧ (out .minit s).map State.nside = some 21 ∧
      sub .minit { s with cfg := 0 } = some .badConfig := by decide +kernel

/-- Numbers of R246: with alignment patterns from type number 2, version cells from 7. -/
theorem test_freecells : freecells 1 = 208 ∧ freecells 2 = 359 ∧ freecells 7 = 1568 := by decide +kernel

/-- `place` with the stream `01 80`: `(17, 19)` and `(16, 20)` dark, `(20, 20)` light. -/
theorem test_mplace :
    let s : State := { withM (atMat (layout 1) .layout) 0 [0x01, 0x80] with flen := 2 }
    cellOut .mplace s 17 19 = some ⟨.dark, false⟩ ∧ cellOut .mplace s 16 20 = some ⟨.dark, false⟩ ∧
      cellOut .mplace s 20 20 = some ⟨.light, false⟩ ∧
      sub .mplace { withM s 0 (List.replicate 27 0) with flen := 27 } = some .capacity := by decide +kernel

theorem test_mrd :
    xOut (.mrd 0 1 2) { regs [(1, 0), (2, 0)] with mat := some (layout 1), stage := .layout } 0 = some 5 ∧
      xOut (.mrd 0 1 2) { regs [(1, 13), (2, 8)] with mat := some (layout 1), stage := .layout } 0 = some 6 ∧
      xOut (.mrd 0 1 2) { regs [(1, 9), (2, 9)] with mat := some (layout 1), stage := .layout } 0 = some 2 ∧
      sub (.mrd 0 1 2) { regs [(1, 21), (2, 0)] with mat := some (layout 1), stage := .layout } =
        some .range := by decide +kernel

/-- R244's example: level M, pattern 2. -/
theorem test_mmeta :
    let s : State := { atMat (layout 1) .masked with resmask := 10 }
    cellOut .mmeta s 0 8 = some ⟨.light, true⟩ ∧ cellOut .mmeta s 2 8 = some ⟨.dark, true⟩ ∧
      cellOut .mmeta s 8 18 = some ⟨.dark, true⟩ ∧ cellOut .mmeta s 8 0 = some ⟨.dark, true⟩ ∧
      cellOut .mmeta s 13 8 = some ⟨.dark, true⟩ := by decide +kernel

/-! ### `ENCODE` (program P3) -/

theorem test_encode_p3 :
    (out .encode p3).map (fun t => (t.stage, t.elen.toNat, t.flen.toNat, t.resmask.toNat, t.score.toNat)) =
      some (.done, 10, 26, 8, 473) := by decide +kernel

theorem test_encode_faults :
    out .encode { p3 with cfg := 0 } =
      some { p3 with cfg := 0, err := .invalidArgument, info := some .badConfig, ecmd := 0x60000000 } := by
  decide +kernel

/-! ### Witnesses: encoding -/

theorem wit_DecodeEncodeRoundTrip :
    WellFormed (.li 7 (-524288)) = true ∧ WellFormed (.li 0 524287) = true ∧
      WellFormed (.csrw 4095 7) = true ∧ WellFormed (.pmul 3 0 3) = true := by decide

theorem wit_EncodeDecodeRoundTrip :
    decode 0x08080000 = .ok (.li 0 (-524288)) ∧ decode 0x0B000FFF = .ok (.csrr 0 4095) := by decide

theorem wit_LegalWordsAreTableRows :
    (0x24333000 : Word) &&& rowMask (.pmul 0 0 0) = rowMatch (.pmul 0 0 0) ∧
      decode 0x24333000 = .ok (.pmul 3 3 3) ∧ ∀ i, (0x03000000 : Word) &&& rowMask i ≠ rowMatch i := by
  refine ⟨by decide, by decide, fun i => ?_⟩
  cases i <;> (simp only [rowMask, rowMatch]; decide)

/-! ### Witnesses: the step and the host's ports -/

/-- A faulted state: program P2 after its command 7, as far as the fault. -/
def faulted : State := (regs [(1, 1)]).latch .glogDomain 0x11620000

theorem wit_StepPerformsHostAction :
    State.reset.inbox = [] ∧ State.reset.err = .noError ∧
      decode 0x60000000 = .ok .encode ∧ decode 0x61000000 = .error .unassignedOpcode ∧
      faulted.err ≠ .noError ∧ WellFormed .encode = true ∧
      (presentWord faulted 0x01000000).inbox = .command 0x01000000 :: [] ∧
      (presentWord faulted 0x01000001).inbox = .command 0x01000001 :: [] ∧
      ({ State.reset with inbox := [.memWrite 8191 255] } : State).inbox = .memWrite 8191 255 :: [] ∧
      ({ faulted with inbox := [.memWrite 0 0] } : State).inbox = .memWrite 0 0 :: [] ∧
      ({ faulted with inbox := [.hardReset] } : State).inbox = .hardReset :: [] := by decide

theorem wit_FaultedBlockIsFrozen :
    let evs : List HostEvent := [.command 0x02000000, .memWrite 3 7, .command 0x01000001]
    faulted.err ≠ .noError ∧
      ({ faulted with inbox := evs ++ [.hardReset] } : State).inbox = evs ++ [.hardReset] ∧
      ∀ e ∈ evs, e ≠ .hardReset ∧ e ≠ .command 0x01000000 := by decide

theorem wit_ResetIsTheOnlyWayOut :
    faulted.err ≠ .noError ∧ step (presentWord faulted 0x01000000) = .next State.reset ∧
      step { faulted with inbox := [.hardReset] } = .next State.reset ∧
      State.reset.err = .noError := ⟨by decide, rfl, rfl, rfl⟩

theorem wit_FaultEntryChangesThree :
    (regs [(1, 0)]).err = .noError ∧
      commandPort 0x11010000 (regs [(1, 0)]) = .next ((regs [(1, 0)]).latch .glogDomain 0x11010000) ∧
      commandPort 0x61000000 State.reset = .next (State.reset.latch .illegalCmd 0x61000000) ∧
      ((regs [(1, 0)]).latch .glogDomain 0x11010000).err ≠ .noError := ⟨rfl, rfl, rfl, by decide⟩

theorem wit_CommandsRaiseTheirCauses :
    State.reset.err = .noError ∧ Raises (.csrr 0 14) .badCsr State.reset ∧
      Raises .encode .badBlocks State.reset := ⟨rfl, rfl, rfl⟩

theorem wit_ResetState : 13 < 14 ∧ State.reset.csr 13 = some 0 ∧ State.reset.csr 0 = some 0 := by decide

/-! ### Witnesses: which command writes which state -/

theorem wit_RegisterWriters :
    Instr.li 1 16 ≠ .rst ∧ exec (.li 1 16) (regs [(1, 3)]) = .next ((regs [(1, 3)]).setX 1 16) ∧
      scalarDest (.li 1 16) ≠ some 0 ∧ polyDest (.li 1 16) ≠ some 0 ∧ (regs [(1, 3)]).x[(1 : XReg)] ≠ none ∧
      (State.reset.setP 2 [1]).p[(2 : PReg)] ≠ none := ⟨by decide, rfl, by decide⟩

theorem wit_MemoryWriters :
    let s := withM (regs [(2, 0x11), (1, 7)]) 8 [5]
    Instr.sb 2 1 ≠ .rst ∧ exec (.sb 2 1) s = .next (withM (regs [(2, 0x11), (1, 7)]) 7 [0x11, 5]) ∧
      ¬ storesTo (.sb 2 1) s 8 ∧ ¬ storesTo (.sb 2 1) s 6 ∧ ¬ storesTo .nop s 7 ∧
      Memory.byteAt s.mem 8 ≠ none := by
  refine ⟨by decide, rfl, ?_, ?_, fun h => h, by decide⟩ <;>
    rintro ⟨v, hv, h⟩ <;> cases hv <;> revert h <;> unfold inArea <;> decide

theorem wit_ControlAndMatrixWriters :
    (∀ n ra, Instr.nop ≠ .csrw n ra) ∧ (∀ k, Instr.nop ≠ .mapply k) ∧ Instr.nop ≠ .rst ∧
      Instr.nop ≠ .rsgen ∧ Instr.nop ≠ .ilv ∧ Instr.nop ≠ .minit ∧ Instr.nop ≠ .mplace ∧
      Instr.nop ≠ .mmask ∧ Instr.nop ≠ .mmeta ∧ Instr.nop ≠ .encode ∧ Instr.nop ≠ .clr ∧
      exec .nop p4ec = .next p4ec :=
  ⟨fun _ _ h => (by cases h), fun _ h => (by cases h), by decide, by decide, by decide, by decide,
    by decide, by decide, by decide, by decide, by decide, rfl⟩

theorem wit_StageDiscipline :
    State.reset.err = .noError ∧ allowedAt .ilv State.reset.stage = false ∧
      (∀ rd ra rb, Instr.ilv = .mrd rd ra rb →
        State.reset.x[ra] ≠ none ∧ State.reset.x[rb] ≠ none) ∧
      allowedAt (.mrd 0 1 2) (regs [(1, 0), (2, 0)]).stage = false ∧
      (regs [(1, 0), (2, 0)]).x[(1 : XReg)] ≠ none ∧ (regs [(1, 0), (2, 0)]).x[(2 : XReg)] ≠ none ∧
      exec .clr p4ec = .next { p4ec with stage := .idle, elen := 0 } ∧ p4ec.err = .noError :=
  ⟨rfl, by decide, fun _ _ _ h => (by cases h), by decide, by decide, by decide, rfl, rfl⟩

/-! ### Witnesses: invariants -/

/-- The state right after `MINIT` meets the matrix invariant, for every type number. -/
theorem wit_MatOk_layout (v : Nat) (h1 : 1 ≤ v) (h2 : v ≤ 40) : MatOk (atMat (layout v) .layout) := by
  refine ⟨(by decide : 3 ≤ Stage.code .layout), ⟨h1, h2, Mat.build_square v _⟩, fun r c hr hc => ?_⟩
  have e : (layout v).cell r c = layoutCell v r c := Mat.cell_build _ hr hc
  simp only [e]
  refine ⟨rfl, fun x hx => ?_, fun hx hf => ?_, fun hf => ?_⟩
  · have hx : patternVal v r c = some x := hx
    simp [layoutCell, hx]
  · have hx : patternVal v r c = none := hx
    simp [layoutCell, hx, atMat]
  · cases hp : patternVal v r c with
    | none => simp [layoutCell, hp, atMat]
    | some x => simp [layoutCell, hp] at hf

theorem wit_StepKeepsMemory : MemOk (presentWord p4 0x30000000) ∧
    ∃ t, step (presentWord p4 0x30000000) = .next t := ⟨by unfold MemOk; decide, _, rfl⟩

theorem wit_StepKeepsPolynomials :
    let s := presentWord ((State.reset.setP 0 [1, 1]).setP 1 [1, 2]) 0x24201000
    PolyOk s ∧ ∃ t, step s = .next t := ⟨by
      intro r q h
      revert q h
      fin_cases r <;> intro q h <;> cases h <;> decide, _, rfl⟩

theorem wit_StepKeepsControlRegisters :
    FaultOk (presentWord (regs [(1, 0)]) 0x11010000) ∧ FaultOk faulted ∧
      CsrOk (presentWord (regs [(4, 0x828)]) 0x0C040002) ∧ CsrOk { State.reset with dlen := 8192 } ∧
      ∃ t, step (presentWord (regs [(1, 0)]) 0x11010000) = .next t :=
  ⟨by unfold FaultOk; decide, by unfold FaultOk; decide, by unfold CsrOk; decide, by unfold CsrOk; decide, _,
    rfl⟩

theorem wit_StepKeepsResultRegisters : ResultOk (presentWord p4ec 0x31000000) ∧
    ∃ t, step (presentWord p4ec 0x31000000) = .next t := ⟨by unfold ResultOk; decide, _, rfl⟩

theorem wit_StepKeepsMatrix :
    MatOk (presentWord (atMat (layout 1) .layout) 0x41000000) ∧ MatOk State.reset ∧
      ∃ t, step (presentWord (atMat (layout 1) .layout) 0x41000000) = .next t :=
  ⟨wit_MatOk_layout 1 (by decide) (by decide), (by decide : (0 : Nat) < 3), _, rfl⟩

theorem wit_StepAlwaysAnswers :
    MatOk State.reset ∧ MatOk (atMat (layout 40) .layout) :=
  ⟨(by decide : (0 : Nat) < 3), wit_MatOk_layout 40 (by decide) (by decide)⟩

/-! ### Witnesses: functions -/

theorem wit_GfTables :
    (254 < 255) ∧ (1 ≤ 255 ∧ 255 < 256) ∧ expByLoop 254 = 142 ∧ (0 : Int) < 1 ∧ (256 : Int) > 255 ∧
      glog 1 = .ok 0 ∧ glog 255 = .ok 175 ∧ gfmul 1 255 = 255 ∧ gfmul 0 255 = 0 := by decide +kernel

theorem wit_GfFieldLaws : (2 : Byte) ≠ 0 ∧ glog 2 = .ok 1 ∧ gfmul 2 (gexp 254) = 1 :=
  ⟨by decide, rfl, by decide⟩

theorem wit_MemoryReadWrite :
    ((-1 : Int) < 0 ∧ (8191 : Int) + (([1, 2] : List Byte).length : Int) > 8192) ∧
      ((0 : Int) ≤ 8192 ∧ (8192 : Int) + (([] : List Byte).length : Int) ≤ 8192) ∧
      ((0 : Int) ≤ 8191 ∧ (8191 : Int) + (1 : Nat) ≤ 8192) ∧
      (0 < 1 ∧ Memory.byteAt State.reset.mem (8191 + 0) = none) ∧
      ([0xEC] : List Byte).length = 1 ∧
      ∀ i, i < 1 → Memory.byteAt (withM State.reset 8191 [0xEC]).mem (8191 + i) =
        ([0xEC] : List Byte)[i]? := by decide

theorem wit_PmulConvolves :
    trimmed [2, 0, 1] = true ∧ trimmed [128, 1] = true ∧ trimmed [0] = true ∧
      ([2, 0, 1] : Poly) ≠ [0] := by decide

theorem wit_PmodDivides :
    trimmed [32, 91, 0, 0] = true ∧ trimmed [1, 3, 2] = true ∧ ([1, 3, 2] : Poly) ≠ [0] ∧
      trimmed [0] = true ∧ trimmed [5] = true ∧ ([5] : Poly) ≠ [0] ∧ ([5] : Poly).length = 1 ∧
      ([5, 6] : Poly).length < ([1, 3, 2] : Poly).length := by decide

theorem wit_RsCodewordRoots :
    ([0x12, 0x34] : List Byte) ≠ [] ∧ 1 ≤ 1 ∧ rsec [0x12, 0x34] 2 = .ok [0x22, 0x04] ∧ 1 < 2 :=
  ⟨by decide, by decide, rfl, by decide⟩

theorem wit_BlocksValidated :
    State.reset.nblk = 0 ∧ p4.nblk ≠ 0 ∧ p4.baddr.toNat + 2 * p4.nblk.toNat ≤ 8192 ∧
      Memory.bytes p4.mem p4.baddr.toNat (2 * p4.nblk.toNat) = some [5, 3, 6, 4] ∧
      ({ p4 with baddr := 8189 } : State).baddr.toNat + 2 * p4.nblk.toNat > 8192 ∧
      ({ p4 with baddr := 8188 } : State).baddr.toNat + 2 * p4.nblk.toNat ≤ 8192 ∧
      Memory.bytes p4.mem 8188 4 = none := by decide

theorem wit_InterleaveOrder :
    let datas : List (List Byte) := [[0x12, 0x34, 0x56], [0x78, 0x9A, 0xBC, 0xDE]]
    datas[1]? = some [0x78, 0x9A, 0xBC, 0xDE] ∧ ([0x78, 0x9A, 0xBC, 0xDE] : List Byte)[3]? = some 0xDE ∧
      (interleave datas [[0x98, 0xE8], [0x68, 0xE8]])[6]? = some 0xDE := by decide

theorem wit_BchReduceIsRemainder :
    0 < 0x537 ∧ 0 < 1 ∧ bchreduce 0x2000 0x537 = 0x3D6 ∧ 3 ≤ 3 ∧ 7 ≤ 7 ∧ 63 ≤ 63 ∧
      bchreduce (bchfmt 3 7 ^^^ 0x5412) 0x537 = 0 ∧ bchver 63 >>> 12 = 63 := by decide

/-- `layout(1)` and `layout(40)` are well shaped: the hypothesis of the statements about a matrix. -/
theorem wit_shaped : (layout 1).shaped ∧ (layout 40).shaped :=
  ⟨⟨by decide, by decide, Mat.build_square 1 _⟩, by decide, by decide, Mat.build_square 40 _⟩

theorem wit_ApplymaskTwice :
    (layout 1).shaped ∧ 7 ≤ 7 ∧ 20 < (layout 1).side ∧ ((layout 1).cell 20 20).fn = false ∧
      maskfn 0 20 20 = true ∧ (filled fun _ _ => true).shaped ∧
      (filled fun _ _ => true).cell 20 20 = ⟨.dark, false⟩ ∧
      (filled fun _ _ => true).cell 0 0 = ⟨.dark, true⟩ :=
  ⟨wit_shaped.1, by decide +kernel, by decide +kernel, by decide +kernel, by decide +kernel,
    ⟨by decide, by decide, Mat.build_square 1 _⟩, by decide +kernel⟩

theorem wit_ChoosemaskLeast : 7 ≤ 7 ∧ 0 ≤ 7 ∧ leastScore (fun k => [5, 3, 9, 3].getD k 8) 0 [1, 2, 3] = 1 ∧
    0 < 1 := by decide

theorem wit_PenaltyRules :
    let g := List.replicate 11 (List.replicate 11 false)
    (∀ row ∈ g, row.length = g.length) ∧ 0 < g.length ∧ ∀ row ∈ ([] : List (List Bool)), row.length = 0 := by
  decide

theorem wit_PenaltyBounds :
    (layout 40).shaped ∧ 176 < (layout 40).side ∧ (layout 1).shaped ∧
      ((layout 1).cell 0 0).val = .dark ∧ ((layout 1).cell 20 20).val = .unset ∧
      (((scoreGrid (layout 1)).getD 20 []).getD 20 true) = false :=
  ⟨wit_shaped.2, by decide, wit_shaped.1, by decide +kernel⟩

theorem wit_LayoutDrawsPatterns :
    (1 ≤ 40 ∧ 40 ≤ 40) ∧ ((38, 0) : Nat × Nat) ∈ [(0, 0), (45 - 7, 0), (0, 45 - 7)] ∧ 38 ≤ 37 + 1 ∧
      (8 ≤ 8 ∧ 8 + 9 ≤ 21) ∧
      (18 ∈ alignPos 2 ∧ ¬((18 ≤ 6 ∧ 18 ≤ 6) ∨ (18 ≤ 6 ∧ 25 - 7 ≤ 18) ∨ (25 - 7 ≤ 18 ∧ 18 ≤ 6))) ∧
      reserved 1 13 8 = true ∧ reserved 7 5 36 = true ∧ reserved 7 6 36 = false ∧
      (∀ q ∈ [((0, 0) : Nat × Nat), (14, 0), (0, 14)],
        ¬(q.1 ≤ 20 + 1 ∧ 20 ≤ q.1 + 7 ∧ q.2 ≤ 20 + 1 ∧ 20 ≤ q.2 + 7)) ∧ alignPos 1 = [] ∧
      reserved 1 20 20 = false := by decide +kernel

theorem wit_PlaceorderWalks :
    (layout 1).shaped ∧ ∀ r c, r < (layout 1).side → c < (layout 1).side →
      ((layout 1).cell r c).fn = (layoutCell (layout 1).v r c).fn :=
  ⟨wit_shaped.1, fun _ _ hr hc => congrArg Cell.fn (Mat.cell_build _ hr hc)⟩

theorem wit_PlaceWritesStream :
    (layout 1).shaped ∧ (placeorder (layout 1))[0]? = some (20, 20) ∧
      (placeorder (layout 1))[7]? = some (17, 19) ∧ (placeorder (layout 1))[207]? = some (12, 0) ∧
      (0, 0) ∉ placeorder (layout 1) := ⟨wit_shaped.1, by decide +kernel⟩

theorem wit_WritemetaWritesBits :
    (layout 40).shaped ∧ 3 ≤ 3 ∧ 7 ≤ 7 ∧ 14 < 15 ∧ 7 ≤ (layout 40).v ∧ 17 < 18 ∧
      reserved 40 20 20 = false := ⟨wit_shaped.2, by decide +kernel⟩

/-! ### Witnesses: `ENCODE` -/

theorem wit_EncodeIsStagesInSequence : p3.err = .noError := rfl

theorem wit_EncodeCompletes :
    p3.stage = .idle ∧ p3.blocks = .ok [⟨26, 16⟩] ∧ p3.daddr.toNat + p3.dlen.toNat ≤ 8192 ∧
      Memory.bytes p3.mem p3.daddr.toNat p3.dlen.toNat = some
        [0x10, 0x20, 0x0C, 0x56, 0x61, 0x80, 0xEC, 0x11, 0xEC, 0x11, 0xEC, 0x11, 0xEC, 0x11, 0xEC, 0x11] ∧
      p3.eaddr.toNat + ecTotal [⟨26, 16⟩] ≤ 8192 ∧
      p3.faddr.toNat + (p3.dlen.toNat + ecTotal [⟨26, 16⟩]) ≤ 8192 ∧ EcAreaApart p3 [⟨26, 16⟩] ∧
      1 ≤ p3.typenum ∧ p3.typenum ≤ 40 ∧ p3.masksel ≤ 8 ∧
      8 * (p3.dlen.toNat + ecTotal [⟨26, 16⟩]) ≤ freecells p3.typenum := by
  refine ⟨by decide, rfl, by decide, by decide, by decide, by decide, ?_, by decide, by decide, by decide, ?_⟩
  · unfold EcAreaApart; decide
  · decide +kernel

theorem wit_EncodeIsPure :
    (∃ t, exec .encode p3 = .next t ∧ t.err = .noError) ∧ p3.err = .noError ∧
      p3.blocks = .ok [⟨26, 16⟩] ∧ EcAreaApart p3 [⟨26, 16⟩] ∧
      p3.eaddr.toNat + ecTotal [⟨26, 16⟩] ≤ p3.faddr.toNat := by
  refine ⟨?_, rfl, rfl, by unfold EcAreaApart; decide, by decide⟩
  have h : (out .encode p3).map State.err = some .noError := by decide +kernel
  unfold out at h
  split at h
  · next t ht => exact ⟨t, ht, by simpa using h⟩
  · cases h
  · cases h

/-! ### Witnesses: commands. A register of `regs` holds the word written, a register left out is unwritten. -/

theorem wit_LbSbResults :
    (regs []).x[(1 : XReg)] = none ∧ (regs [(1, 8192)]).x[(1 : XReg)] = some 8192 ∧
      (8192 : Word).toInt > 8191 ∧ (-1 : Word).toInt < 0 ∧ (0 : Int) ≤ (8191 : Word).toInt ∧
      (8191 : Word).toInt ≤ 8191 ∧ Memory.byteAt (regs [(1, 8191)]).mem 8191 = none ∧
      Memory.byteAt (withM (regs [(1, 8191)]) 8191 [1]).mem 8191 = some 1 ∧
      (regs [(2, 255), (1, 0)]).x[(2 : XReg)] = some 255 ∧ (255 : Word).toInt ≤ 255 ∧
      (256 : Word).toInt > 255 := by decide

theorem wit_CsrrResult :
    (14#12).toNat > 13 ∧ (13#12).toNat = 13 ∧ State.reset.err = .noError ∧ FaultOk State.reset :=
  ⟨by decide, by decide, rfl, by unfold FaultOk; decide⟩

theorem wit_CsrwResult :
    (regs [(4, 0x828)]).x[(4 : XReg)] = some 0x828 ∧ State.reset.x[(4 : XReg)] = none ∧ (1#12).toNat < 2 ∧
      (9#12).toNat > 8 ∧ ((0x828 : Word).extractLsb' 0 6).toNat = 40 ∧
      ((0x828 : Word).extractLsb' 8 4).toNat = 8 ∧ (0x829 : Word).toInt > 0 ∧
      ((0x829 : Word).extractLsb' 0 6).toNat > 40 := by decide

theorem wit_GexpGlogResults :
    (regs [(1, -2147483648)]).x[(1 : XReg)] = some 0x80000000 ∧ State.reset.x[(1 : XReg)] = none ∧
      (0 : Word).toInt < 1 ∧ (256 : Word).toInt > 255 ∧ (1 : Int) ≤ (255 : Word).toInt ∧
      (255 : Word).toInt ≤ 255 := by decide

theorem wit_GfmulGfaddResults :
    (regs [(1, 255), (2, 0)]).x[(1 : XReg)] = some 255 ∧ (regs [(1, 255), (2, 0)]).x[(2 : XReg)] = some 0 ∧
      (regs [(1, 255)]).x[(2 : XReg)] = none ∧ (255 : Word).toInt ≤ 255 ∧ (256 : Word).toInt > 255 ∧
      (0xFFFFFFFF : Word).toInt < 0 := by decide

theorem wit_PldResult :
    let s := withM (regs [(0, 8190), (1, 2)]) 8190 [0, 5]
    s.x[(0 : XReg)] = some 8190 ∧ s.x[(1 : XReg)] = some 2 ∧ State.reset.x[(0 : XReg)] = none ∧
      (0 : Word).toInt < 1 ∧ (257 : Word).toInt > 256 ∧ (8191 : Word).toInt + (2 : Word).toInt > 8192 ∧
      (8190 : Word).toInt + (2 : Word).toInt ≤ 8192 ∧ Memory.byteAt State.reset.mem 8190 = none ∧
      ∀ i, i < 2 → Memory.byteAt s.mem (8190 + i) = ([0, 5] : List Byte)[i]? := by decide

theorem wit_PstResult :
    let s := (regs [(0, 8188), (1, 4)]).setP 3 [6, 14]
    s.p[(3 : PReg)] = some [6, 14] ∧ s.x[(0 : XReg)] = some 8188 ∧ s.x[(1 : XReg)] = some 4 ∧
      State.reset.p[(3 : PReg)] = none ∧ (1 : Word).toInt < (([6, 14] : Poly).length : Int) ∧
      (([6, 14] : Poly).length : Int) ≤ (2 : Word).toInt ∧ (8188 : Word).toInt + (4 : Word).toInt ≤ 8192 ∧
      (8189 : Word).toInt + (4 : Word).toInt > 8192 := by decide

theorem wit_PlenPgetResults :
    let s := (regs [(1, 1)]).setP 0 [5, 0]
    s.p[(0 : PReg)] = some [5, 0] ∧ s.x[(1 : XReg)] = some 1 ∧ State.reset.p[(0 : PReg)] = none ∧
      (2 : Word).toInt ≥ (([5, 0] : Poly).length : Int) ∧ (-1 : Word).toInt < 0 ∧
      ([5, 0] : Poly)[(1 : Word).toInt.toNat]? = some 0 := by decide

theorem wit_PmulPshiftResults :
    let s := ((regs [(1, 255)]).setP 0 [5]).setP 1 (5 :: List.replicate 255 0)
    s.p[(0 : PReg)] = some [5] ∧ s.p[(1 : PReg)] = some (5 :: List.replicate 255 0) ∧
      State.reset.p[(0 : PReg)] = none ∧ s.x[(1 : XReg)] = some 255 ∧ 1 + 256 - 1 ≤ 256 ∧ 2 + 256 - 1 > 256 ∧
      (1 : Int) + (255 : Word).toInt ≤ 256 ∧ (1 : Int) + (256 : Word).toInt > 256 := by decide +kernel

theorem wit_PmodResult :
    let s := (State.reset.setP 0 [5]).setP 1 [0]
    s.p[(0 : PReg)] = some [5] ∧ s.p[(1 : PReg)] = some [0] ∧ s.p[(2 : PReg)] = none ∧
      trimmed [5] = true ∧ trimmed [0] = true ∧ ([5] : Poly) ≠ [0] := by decide

theorem wit_PgenResult :
    (regs [(1, 255)]).x[(1 : XReg)] = some 255 ∧ (255 : Word).toInt ≤ 255 ∧ (256 : Word).toInt > 255 ∧
      (0 : Int) ≤ (0 : Word).toInt ∧ State.reset.x[(1 : XReg)] = none := by decide

theorem wit_RsgenResult :
    p4.stage = .idle ∧ p4.blocks = .ok [⟨5, 3⟩, ⟨6, 4⟩] ∧ p4.daddr.toNat + p4.dlen.toNat ≤ 8192 ∧
      Memory.bytes p4.mem p4.daddr.toNat p4.dlen.toNat = some [0x12, 0x34, 0x56, 0x78, 0x9A, 0xBC, 0xDE] ∧
      ({ p4 with eaddr := 8188 } : State).eaddr.toNat + ecTotal [⟨5, 3⟩, ⟨6, 4⟩] ≤ 8192 ∧
      ({ p4 with eaddr := 8189 } : State).eaddr.toNat + ecTotal [⟨5, 3⟩, ⟨6, 4⟩] > 8192 ∧
      State.reset.blocks = raise .badBlocks ∧
      ({ p4 with daddr := 8186 } : State).blocks = .ok [⟨5, 3⟩, ⟨6, 4⟩] ∧
      ({ p4 with daddr := 8186 } : State).daddr.toNat + p4.dlen.toNat > 8192 ∧
      Memory.bytes p4.mem 8185 p4.dlen.toNat = none ∧ p4ec.stage ≠ .idle :=
  ⟨rfl, rfl, by decide, by decide, by decide, by decide, rfl, rfl, by decide, by decide, by decide⟩

theorem wit_IlvResult :
    p4ec.stage = .ecDone ∧ p4ec.blocks = .ok [⟨5, 3⟩, ⟨6, 4⟩] ∧
      ecTotal [⟨5, 3⟩, ⟨6, 4⟩] = p4ec.elen.toNat ∧ p4ec.daddr.toNat + p4ec.dlen.toNat ≤ 8192 ∧
      Memory.bytes p4ec.mem p4ec.daddr.toNat p4ec.dlen.toNat =
        some [0x12, 0x34, 0x56, 0x78, 0x9A, 0xBC, 0xDE] ∧
      p4ec.eaddr.toNat + ecTotal [⟨5, 3⟩, ⟨6, 4⟩] ≤ 8192 ∧
      Memory.bytes p4ec.mem p4ec.eaddr.toNat 4 = some [0x98, 0xE8, 0x68, 0xE8] ∧
      ({ p4ec with faddr := 8181 } : State).faddr.toNat + (p4ec.dlen.toNat + 4) ≤ 8192 ∧
      ({ p4ec with faddr := 8182 } : State).faddr.toNat + (p4ec.dlen.toNat + 4) > 8192 ∧
      ecTotal [⟨5, 3⟩, ⟨6, 4⟩] ≠ ({ p4ec with elen := 5 } : State).elen.toNat ∧
      Memory.bytes p4ec.mem 8188 4 = none ∧ p4.stage ≠ .ecDone :=
  ⟨rfl, rfl, by decide, by decide, by decide, by decide, by decide, by decide, by decide, by decide,
    by decide, by decide⟩

theorem wit_BchfmtBchverResults :
    (regs [(1, 3), (2, 7)]).x[(1 : XReg)] = some 3 ∧ (regs [(1, 3), (2, 7)]).x[(2 : XReg)] = some 7 ∧
      State.reset.x[(1 : XReg)] = none ∧ (3 : Word).toInt ≤ 3 ∧ (4 : Word).toInt > 3 ∧ (7 : Word).toInt ≤ 7 ∧
      (8 : Word).toInt > 7 ∧ (6 : Word).toInt < 7 ∧ (7 : Int) ≤ (7 : Word).toInt ∧ (40 : Word).toInt ≤ 40 ∧
      (41 : Word).toInt > 40 := by decide

theorem wit_MskbitResult :
    (regs [(1, 176), (2, 0)]).x[(1 : XReg)] = some 176 ∧ (regs [(1, 176), (2, 0)]).x[(2 : XReg)] = some 0 ∧
      State.reset.x[(1 : XReg)] = none ∧ (7#12).toNat ≤ 7 ∧ (8#12).toNat > 7 ∧ (176 : Word).toInt ≤ 176 ∧
      (177 : Word).toInt > 176 := by decide

theorem wit_MapplyMmaskMmetaResults :
    (atMat (layout 1) .placed).stage = .placed ∧ (atMat (layout 1) .placed).mat = some (layout 1) ∧
      (7#12).toNat ≤ 7 ∧ (8#12).toNat > 7 ∧ State.reset.stage ≠ .placed ∧ State.reset.stage ≠ .masked ∧
      (atMat (layout 1) .masked).stage = .masked ∧ (atMat (layout 1) .masked).mat = some (layout 1) :=
  ⟨rfl, rfl, by decide, by decide, by decide, by decide, rfl, rfl⟩

theorem wit_MrdMscoreResults :
    (regs [(1, 20), (2, 0)]).x[(1 : XReg)] = some 20 ∧ State.reset.x[(2 : XReg)] = none ∧
      (20 : Word).toInt < ((layout 1).side : Int) ∧ (21 : Word).toInt ≥ ((layout 1).side : Int) ∧
      3 ≤ (atMat (layout 1) .layout).stage.code ∧ (atMat (layout 1) .layout).mat = some (layout 1) ∧
      MatOk (atMat (layout 1) .layout) ∧ (layout 1).cell 20 20 = ⟨.unset, false⟩ ∧
      (layout 1).cell 13 8 = ⟨.unset, true⟩ ∧
      State.reset.stage.code < 3 ∧ 4 ≤ (atMat (layout 1) .placed).stage.code ∧ (4#12).toNat ≤ 4 ∧
      (5#12).toNat > 4 ∧ (atMat (layout 1) .layout).stage.code < 4 :=
  ⟨by decide, by decide, by decide, by decide, by decide, rfl,
    wit_MatOk_layout 1 (by decide) (by decide), by decide +kernel, by decide +kernel, by decide, by decide,
    by decide, by decide, by decide⟩

theorem wit_MinitMplaceResults :
    let s : State := { p4ec with stage := .ilvDone, cfg := 40 }
    let r : State := { withM (atMat (layout 1) .layout) 0 (List.replicate 27 0) with flen := 26 }
    s.stage = .ilvDone ∧ s.typenum ≤ 40 ∧ 1 ≤ s.typenum ∧ ({ s with cfg := 0 } : State).typenum < 1 ∧
      r.stage = .layout ∧ r.faddr.toNat + r.flen.toNat ≤ 8192 ∧ r.mat = some (layout 1) ∧
      Memory.bytes r.mem 0 26 = some (List.replicate 26 0) ∧ 8 * r.flen.toNat ≤ freecells 1 ∧
      8 * (27#14).toNat > freecells 1 ∧ Memory.bytes State.reset.mem 0 26 = none ∧
      (8191#13).toNat + (2#14).toNat > 8192 :=
  ⟨rfl, by decide, by decide, by decide, rfl, by decide, rfl, by decide +kernel, by decide +kernel,
    by decide +kernel, by decide, by decide⟩

end Sys2Proof.Tests
end

section
/-! Codeword memory: every answer of `MemRead` and `MemWrite`, and the obligation O24 (R62, R63). -/

namespace Sys2Proof.Machine

/-- `M` has 8192 bytes (R61). -/
theorem outsideM_iff {a : Int} {n : Nat} : outsideM a n ↔ a < 0 ∨ a + (n : Int) > 8192 := Iff.rfl

/-- After a sequence is written, its addresses read its elements and every other address reads as before. -/
theorem Memory.byteAt_putBytes (m : Memory) (a : Nat) (bs : List Byte) (k : Nat) :
    Memory.byteAt (Memory.putBytes m a bs) k =
      if a ≤ k ∧ k < a + bs.length then bs[k - a]? else Memory.byteAt m k := by
  split
  · next h =>
    obtain ⟨i, rfl⟩ := Nat.exists_eq_add_of_le h.1
    rw [Memory.byteAt_putBytes_inside bs m a i (by omega), Nat.add_sub_cancel_left]
  · exact Memory.byteAt_putBytes_outside bs m a k (by omega)

/-- A read that meets an unwritten byte gives no sequence. -/
theorem Memory.bytes_eq_none_of_unwritten {m : Memory} {a n i : Nat} (hi : i < n)
    (h : Memory.byteAt m (a + i) = none) : Memory.bytes m a n = none := by
  rw [Option.eq_none_iff_forall_ne_some]
  intro bs hbs
  obtain ⟨hlen, hget⟩ := Memory.bytes_eq_some.mp hbs
  have hend : bs[i]? = none := (hget i hi).symm.trans h
  rw [List.getElem?_eq_none_iff] at hend
  omega

/-- `MemWrite` outside `M` raises `ADDR_RANGE` (R63). -/
theorem State.memWrite_outside {s : State} {a : Int} {bs : List Byte} (h : outsideM a bs.length) :
    s.memWrite a bs = raise .addrRange := by
  rw [State.memWrite, raiseIf_pos h, Act.raise_bind]

/-- `MemRead` outside `M` raises `ADDR_RANGE`, whatever bytes are written (R62). -/
theorem State.memRead_outside {s : State} {a : Int} {n : Nat} (h : outsideM a n) :
    s.memRead a n = raise .addrRange := by
  rw [State.memRead, raiseIf_pos h, Act.raise_bind]

/-- `MemRead` inside `M` raises `UNWRITTEN` where it meets an unwritten byte (R62). -/
theorem State.memRead_unwritten {s : State} {a : Int} {n : Nat} (hin : ¬outsideM a n)
    (h : Memory.bytes s.mem a.toNat n = none) : s.memRead a n = raise .unwritten := by
  rw [State.memRead, raiseIf_neg hin, Act.ok_bind, h]

/-- Settles O24: the check against `M` decides between `ADDR_RANGE` and the access, whose bytes are those of
`Memory.putBytes` and `Memory.bytes`. -/
theorem memoryReadWrite : Obligations.MemoryReadWrite := by
  intro s addr
  refine ⟨fun bs => ⟨fun hout => State.memWrite_outside (outsideM_iff.mpr hout), fun hlo hhi => ?_⟩,
    fun n => ⟨fun hout => State.memRead_outside (outsideM_iff.mpr hout), fun hlo hhi => ?_⟩⟩
  · have hin : ¬outsideM addr bs.length := by rw [outsideM_iff]; omega
    exact ⟨_, State.memWrite_eq_ok.mpr ⟨hin, rfl⟩, Memory.byteAt_putBytes s.mem addr.toNat bs⟩
  · have hin : ¬outsideM addr n := by rw [outsideM_iff]; omega
    constructor
    · rintro ⟨i, hi, hnone⟩
      exact State.memRead_unwritten hin (Memory.bytes_eq_none_of_unwritten hi hnone)
    · intro bs hlen hget
      exact State.memRead_eq_ok.mpr ⟨hin, Memory.bytes_eq_some.mpr ⟨hlen, hget⟩⟩

end Sys2Proof.Machine
end

section
/-! From the rule of a command to what the command does, and the decoding of a word put together from its
fields (R12, R81 to R85, R92). -/

namespace Sys2Proof.Machine

/-- A command whose rule raises makes the fault transition. -/
theorem raises_of_ruleOf {i : Instr} {s : State} {c : SubCause} (h : ruleOf i s = raise c) :
    Raises i c s := by
  rw [Raises, exec_eq_finish, h, finish_raise]

/-- A command whose rule gives a state moves to that state. -/
theorem exec_of_ruleOf {i : Instr} {s t : State} (h : ruleOf i s = .ok t) : exec i s = .next t := by
  rw [exec_eq_finish, h, finish_ok]

theorem fmtXX_packR (mk : XReg → XReg → Instr) (op : BitVec 8) (rd ra : XReg) :
    fmtXX mk (packR op (xBits rd) (xBits ra) 0 0) = .ok (mk rd ra) := by
  simp only [fmtXX, xRd, xRa, noRb, noImm, rdField_packR, raField_packR, rbField_packR,
    imm12Field_packR, xField_xBits, noField_zero]
  rfl

theorem fmtXI_packR (mk : XReg → Nat → Instr) (op : BitVec 8) (rd : XReg) (n : BitVec 12) :
    fmtXI mk (packR op (xBits rd) 0 0 n) = .ok (mk rd n.toNat) := by
  simp only [fmtXI, xRd, noRa, noRb, imm12, rdField_packR, raField_packR, rbField_packR,
    imm12Field_packR, xField_xBits, noField_zero]
  rfl

theorem fmtAI_packR (mk : Nat → XReg → Instr) (op : BitVec 8) (ra : XReg) (n : BitVec 12) :
    fmtAI mk (packR op 0 (xBits ra) 0 n) = .ok (mk n.toNat ra) := by
  simp only [fmtAI, noRd, xRa, noRb, imm12, rdField_packR, raField_packR, rbField_packR,
    imm12Field_packR, xField_xBits, noField_zero]
  rfl

theorem fmtI_packI (mk : XReg → Int → Instr) (op : BitVec 8) (rd : XReg) (imm : BitVec 20) :
    fmtI mk (packI op (xBits rd) imm) = .ok (mk rd imm.toInt) := by
  simp only [fmtI, xRd, rdField_packI, imm20Field_packI, xField_xBits]
  rfl

/-! The opcode alone selects the format (R80). -/

theorem decode_li {w : Word} (h : opField w = 0x08) : decode w = fmtI .li w := by rw [decode, h]; rfl
theorem decode_lb {w : Word} (h : opField w = 0x09) : decode w = fmtXX .lb w := by rw [decode, h]; rfl
theorem decode_sb {w : Word} (h : opField w = 0x0A) : decode w = fmtXX .sb w := by rw [decode, h]; rfl
theorem decode_csrr {w : Word} (h : opField w = 0x0B) : decode w = fmtXI .csrr w := by
  rw [decode, h]; rfl
theorem decode_csrw {w : Word} (h : opField w = 0x0C) : decode w = fmtAI .csrw w := by
  rw [decode, h]; rfl

/-- A word narrowed through its signed value keeps its low bits. -/
theorem ofInt_toInt_eq_setWidth {n : Nat} (hn : n ≤ 32) (v : Word) :
    BitVec.ofInt n v.toInt = v.setWidth n :=
  BitVec.signExtend_eq_setWidth_of_le v hn

/-- A word whose signed value is not negative has the same unsigned value. -/
theorem toNat_toInt_of_nonneg {v : Word} (h : 0 ≤ v.toInt) : v.toInt.toNat = v.toNat :=
  BitVec.toNat_toInt_of_sle (by rwa [BitVec.sle_iff_toInt_le, BitVec.toInt_zero])

end Sys2Proof.Machine
end

section
/-! `LB` and `SB`: their rules on each outcome of their checks, and the obligation O43 (R105, R106). -/

namespace Sys2Proof.Machine

/-- An access of one byte lies in `M` exactly at the addresses 0 to 8191. -/
theorem outsideM_one_iff {a : Int} : outsideM a 1 ↔ a < 0 ∨ a > 8191 := by
  rw [outsideM_iff]; omega

/-- A read of one byte gives that byte. -/
theorem Memory.bytes_one {m : Memory} {a : Nat} {b : Byte} (h : Memory.byteAt m a = some b) :
    Memory.bytes m a 1 = some [b] := by
  simp [Memory.bytes, h]

/-- `LB` with its register written reads one byte at the address and extends it. -/
theorem lbRule_of_addr {rd ra : XReg} {s : State} {a : Word} (ha : s.x[ra] = some a) :
    lbRule rd ra s =
      (s.memRead a.toInt 1 >>= fun bs => .ok (s.setX rd (bs.headD 0).toNat)) := by
  rw [lbRule, State.readX_some ha, Act.ok_bind]

theorem lbRule_of_memRead_raise {rd ra : XReg} {s : State} {a : Word} {c : SubCause}
    (ha : s.x[ra] = some a) (h : s.memRead a.toInt 1 = raise c) : lbRule rd ra s = raise c := by
  rw [lbRule_of_addr ha, h, Act.raise_bind]

/-- `LB` of a written byte of `M` writes the byte, extended with zeros. -/
theorem lbRule_of_byte {rd ra : XReg} {s : State} {a : Word} {b : Byte} (ha : s.x[ra] = some a)
    (hin : ¬outsideM a.toInt 1) (hb : Memory.byteAt s.mem a.toInt.toNat = some b) :
    lbRule rd ra s = .ok { s with x := s.x.set rd (some (b.setWidth 32)) } := by
  have hread : s.memRead a.toInt 1 = .ok [b] := State.memRead_eq_ok.mpr ⟨hin, Memory.bytes_one hb⟩
  have hext : BitVec.ofInt 32 (b.toNat : Int) = b.setWidth 32 := by
    rw [BitVec.ofInt_natCast, BitVec.ofNat_toNat]
  rw [lbRule_of_addr ha, hread, Act.ok_bind, List.headD_cons, State.setX, hext]

/-- `SB` with a register unwritten raises `UNWRITTEN`, whichever of the two it is. -/
theorem sbRule_unwritten {rd ra : XReg} {s : State} (h : s.x[rd] = none ∨ s.x[ra] = none) :
    sbRule rd ra s = raise .unwritten := by
  rcases State.readX_cases s rd with ⟨v, hv⟩ | hv
  · have ha : s.x[ra] = none := h.resolve_left fun hd => raise_ne_ok ((State.readX_none hd).symm.trans hv)
    rw [sbRule, hv, Act.ok_bind, State.readX_none ha, Act.raise_bind]
  · rw [sbRule, hv, Act.raise_bind]

/-- `SB` with both registers written checks the value and then stores it at the address. -/
theorem sbRule_of_operands {rd ra : XReg} {s : State} {v a : Word} (hv : s.x[rd] = some v)
    (ha : s.x[ra] = some a) :
    sbRule rd ra s =
      (raiseIf (v.toInt < 0 ∨ v.toInt > 255) .elemRange >>= fun _ =>
        s.memWrite a.toInt [v.setWidth 8]) := by
  rw [sbRule, State.readX_some hv, Act.ok_bind, State.readX_some ha, Act.ok_bind,
    ofInt_toInt_eq_setWidth (by decide)]

/-- Settles O43: `MemRead` and `MemWrite` of one byte decide each command once its registers, and for `SB`
its value, have passed their checks. -/
theorem lbSbResults : Obligations.LbSbResults := by
  constructor
  · intro rd ra s
    refine ⟨(decode_lb (opField_packR ..)).trans (fmtXX_packR ..), fun hx => raises_of_ruleOf ?_,
      fun a ha => ⟨fun hout => raises_of_ruleOf ?_, fun h0 h1 => ?_⟩⟩
    · show lbRule rd ra s = _
      rw [lbRule, State.readX_none hx, Act.raise_bind]
    · exact lbRule_of_memRead_raise ha (State.memRead_outside (outsideM_one_iff.mpr hout))
    · have hin : ¬outsideM a.toInt 1 := by rw [outsideM_one_iff]; omega
      rw [← toNat_toInt_of_nonneg h0]
      refine ⟨fun hnone => raises_of_ruleOf ?_, fun b hb => exec_of_ruleOf (lbRule_of_byte ha hin hb)⟩
      exact lbRule_of_memRead_raise ha
        (State.memRead_unwritten hin (Memory.bytes_eq_none_of_unwritten Nat.one_pos hnone))
  · intro rd ra s
    refine ⟨(decode_sb (opField_packR ..)).trans (fmtXX_packR ..),
      fun hx => raises_of_ruleOf (sbRule_unwritten hx),
      fun v a hv ha => ⟨fun hbad => raises_of_ruleOf ?_, fun hv0 hv1 => ?_⟩⟩
    · show sbRule rd ra s = _
      rw [sbRule_of_operands hv ha, raiseIf_pos hbad, Act.raise_bind]
    have hrule : sbRule rd ra s = s.memWrite a.toInt [v.setWidth 8] := by
      rw [sbRule_of_operands hv ha, raiseIf_neg (by omega), Act.ok_bind]
    refine ⟨fun hout => raises_of_ruleOf ?_, fun h0 h1 => ?_⟩
    · exact hrule.trans (State.memWrite_outside (outsideM_one_iff.mpr hout))
    · have hin : ¬outsideM a.toInt 1 := by rw [outsideM_one_iff]; omega
      rw [← toNat_toInt_of_nonneg h0]
      exact ⟨Memory.put s.mem a.toInt.toNat (v.setWidth 8),
        exec_of_ruleOf (hrule.trans (State.memWrite_eq_ok.mpr ⟨hin, rfl⟩)),
        Memory.byteAt_put_self .., fun k hk => Memory.byteAt_put_ne _ _ hk⟩

end Sys2Proof.Machine
end

section
/-! `NOP`, `CLR`, `LI` and the obligation O42 (R101, R103, R104). -/

namespace Sys2Proof.Machine

/-- Settles O42: none of the three rules has a check, so each answers with its whole update. -/
theorem nopClrLiResults : Obligations.NopClrLiResults := by
  intro s
  refine ⟨by decide, exec_of_ruleOf rfl, by decide, exec_of_ruleOf rfl, fun rd imm => ⟨?_, ?_⟩⟩
  · exact (decode_li (opField_packI ..)).trans (fmtI_packI ..)
  · exact exec_of_ruleOf rfl

end Sys2Proof.Machine
end

section
/-! `CSRR`: the CSRs by number, the fields of `STATUS`, and the obligation O44 (R29, R30, R107). -/

namespace Sys2Proof.Machine

/-- The fourteen CSRs in the order of their numbers (R29). -/
theorem State.csr_eq_getElem? (s : State) (n : Nat) :
    s.csr n = [s.status, s.ecmd.toNat, s.cfg.toNat, s.daddr.toNat, s.dlen.toNat, s.baddr.toNat,
      s.nblk.toNat, s.eaddr.toNat, s.faddr.toNat, s.flen.toNat, s.elen.toNat, s.resmask.toNat,
      s.score.toNat, s.nside][n]? := by
  by_cases h : n < 14
  · interval_cases n <;> rfl
  · obtain ⟨k, rfl⟩ := Nat.exists_eq_add_of_le' (Nat.le_of_not_lt h)
    rfl

theorem State.csr_eq_none {s : State} {n : Nat} (h : n > 13) : s.csr n = none := by
  rw [State.csr_eq_getElem?]
  exact List.getElem?_eq_none h

theorem csrrRule_none {rd : XReg} {n : Nat} {s : State} (h : s.csr n = none) :
    csrrRule rd n s = raise .badCsr := by
  rw [csrrRule, h]

theorem csrrRule_some {rd : XReg} {n v : Nat} {s : State} (h : s.csr n = some v) :
    csrrRule rd n s = .ok { s with x := s.x.set rd (some (BitVec.ofNat 32 v)) } := by
  rw [csrrRule, h, ← BitVec.ofInt_natCast]
  rfl

theorem ErrKind.code_lt (e : ErrKind) : e.code < 4 := by cases e <;> decide

theorem Stage.code_lt (g : Stage) : g.code < 7 := by cases g <;> decide

theorem SubCause.code_lt (c : SubCause) : c.code < 12 := by cases c <;> decide

theorem State.infoCode_lt (s : State) : s.infoCode < 12 := by
  cases h : s.info with
  | none => simp [State.infoCode, h]
  | some c => simpa [State.infoCode, h] using c.code_lt

theorem toNat_extractLsb'_ofNat {n : Nat} (h : n < 2 ^ 32) (k len : Nat) :
    ((BitVec.ofNat 32 n).extractLsb' k len).toNat = n / 2 ^ k % 2 ^ len := by
  rw [BitVec.extractLsb'_toNat, BitVec.toNat_ofNat, Nat.mod_eq_of_lt h, Nat.shiftRight_eq_div_pow]

/-- `STATUS` is its three fields side by side, with zeros between and above them (R30). -/
theorem State.status_fields (s : State) :
    s.status / 2 ^ 0 % 2 ^ 2 = s.err.code ∧ s.status / 2 ^ 2 % 2 ^ 2 = 0 ∧
      s.status / 2 ^ 4 % 2 ^ 3 = s.stage.code ∧ s.status / 2 ^ 7 % 2 ^ 1 = 0 ∧
      s.status / 2 ^ 8 % 2 ^ 8 = s.infoCode ∧ s.status / 2 ^ 16 % 2 ^ 16 = 0 := by
  have he := s.err.code_lt
  have hg := s.stage.code_lt
  have hi := s.infoCode_lt
  simp only [State.status]
  omega

theorem State.status_lt (s : State) : s.status < 2 ^ 32 := by
  have he := s.err.code_lt
  have hg := s.stage.code_lt
  have hi := s.infoCode_lt
  simp only [State.status]
  omega

/-- While no fault is latched `STATUS` is the stage alone (R30). -/
theorem State.status_of_noError {s : State} (herr : s.err = .noError) (hs : FaultOk s) :
    s.status = 16 * s.stage.code := by
  have hinfo : s.info = none := by
    rcases hs with ⟨-, hinfo, -⟩ | ⟨h, -⟩
    · exact hinfo
    · rw [herr] at h; cases h
  simp [State.status, State.infoCode, hinfo, herr, ErrKind.code]

/-- Settles O44: `CSRR` answers with the entry of the list of CSRs at its number, and the fields of `STATUS`
do not reach into one another. -/
theorem csrrResult : Obligations.CsrrResult := by
  refine ⟨fun rd n s => ⟨?_, fun hn => ?_, fun v hv => ?_⟩, fun s => ?_⟩
  · exact (decode_csrr (opField_packR ..)).trans (fmtXI_packR ..)
  · exact raises_of_ruleOf (csrrRule_none (State.csr_eq_none hn))
  · exact exec_of_ruleOf (csrrRule_some ((s.csr_eq_getElem? n.toNat).trans hv))
  · obtain ⟨herr, h2, hstage, h7, hinfo, h16⟩ := s.status_fields
    simp only [← BitVec.toNat_inj, toNat_extractLsb'_ofNat s.status_lt]
    exact ⟨herr, h2, hstage, h7, hinfo, h16, State.status_of_noError⟩

end Sys2Proof.Machine
end

section
/-! `CSRW`: which values are legal, what a legal value writes, and the obligation O45 (R108). -/

namespace Sys2Proof.Machine

theorem within_eq_false_iff {v limit : Int} : within v limit = false ↔ v < 0 ∨ v > limit := by
  rw [within, decide_eq_false_iff_not]; omega

/-- The fields of `CFG` that a value gives are those of its word (R34). -/
theorem cfgLegal_eq_false_iff {v : Word} :
    cfgLegal v.toInt = false ↔ v.toInt < 0 ∨ v.toInt > 0xFFF ∨ (v.extractLsb' 0 6).toNat > 40 ∨
      (v.extractLsb' 8 4).toNat > 8 := by
  have htype : (v.setWidth 12).extractLsb' 0 6 = v.extractLsb' 0 6 :=
    BitVec.extractLsb'_setWidth_of_le (by decide)
  have hmask : (v.setWidth 12).extractLsb' 8 4 = v.extractLsb' 8 4 :=
    BitVec.extractLsb'_setWidth_of_le (by decide)
  simp only [cfgLegal, ofInt_toInt_eq_setWidth (n := 12) (by decide), htype, hmask, Bool.and_eq_false_iff,
    decide_eq_false_iff_not]
  omega

/-- A number that is read-only or names no register can be written with no value (R29, R108). -/
theorem State.writeCsr_readOnly {s : State} {n : Nat} {v : Int} (h : n < 2 ∨ n > 8) :
    s.writeCsr n v = none := by
  unfold State.writeCsr
  split
  case h_8 => rfl
  all_goals omega

/-! What each writable register makes of a word that `CSRW` gives it. -/

theorem State.writeCsr_cfg (s : State) (v : Word) : s.writeCsr 2 v.toInt =
    if cfgLegal v.toInt then some { s with cfg := v.setWidth 12 } else none := by
  rw [← ofInt_toInt_eq_setWidth (by decide)]; rfl

theorem State.writeCsr_daddr (s : State) (v : Word) : s.writeCsr 3 v.toInt =
    if within v.toInt 8191 then some { s with daddr := v.setWidth 13 } else none := by
  rw [← ofInt_toInt_eq_setWidth (by decide)]; rfl

theorem State.writeCsr_dlen (s : State) (v : Word) : s.writeCsr 4 v.toInt =
    if within v.toInt 8192 then some { s with dlen := v.setWidth 14 } else none := by
  rw [← ofInt_toInt_eq_setWidth (by decide)]; rfl

theorem State.writeCsr_baddr (s : State) (v : Word) : s.writeCsr 5 v.toInt =
    if within v.toInt 8191 then some { s with baddr := v.setWidth 13 } else none := by
  rw [← ofInt_toInt_eq_setWidth (by decide)]; rfl

theorem State.writeCsr_nblk (s : State) (v : Word) : s.writeCsr 6 v.toInt =
    if within v.toInt 255 then some { s with nblk := v.setWidth 8 } else none := by
  rw [← ofInt_toInt_eq_setWidth (by decide)]; rfl

theorem State.writeCsr_eaddr (s : State) (v : Word) : s.writeCsr 7 v.toInt =
    if within v.toInt 8191 then some { s with eaddr := v.setWidth 13 } else none := by
  rw [← ofInt_toInt_eq_setWidth (by decide)]; rfl

theorem State.writeCsr_faddr (s : State) (v : Word) : s.writeCsr 8 v.toInt =
    if within v.toInt 8191 then some { s with faddr := v.setWidth 13 } else none := by
  rw [← ofInt_toInt_eq_setWidth (by decide)]; rfl

/-- `CSRW` of a value that its register may not hold raises `BAD_CSR`. -/
theorem csrwRule_none {n : Nat} {ra : XReg} {s : State} {v : Word} (hx : s.x[ra] = some v)
    (h : s.writeCsr n v.toInt = none) : csrwRule n ra s = raise .badCsr := by
  rw [csrwRule, State.readX_some hx, Act.ok_bind, h]

theorem csrwRule_some {n : Nat} {ra : XReg} {s t : State} {v : Word} (hx : s.x[ra] = some v)
    (h : s.writeCsr n v.toInt = some t) : csrwRule n ra s = .ok t := by
  rw [csrwRule, State.readX_some hx, Act.ok_bind, h]

/-- A register's legality check decides between the fault and the write. -/
theorem csrw_outcome {n : Nat} {ra : XReg} {s t : State} {v : Word} {legal : Bool} {bad : Prop}
    (hx : s.x[ra] = some v) (hw : s.writeCsr n v.toInt = if legal then some t else none)
    (hbad : legal = false ↔ bad) :
    (bad → Raises (.csrw n ra) .badCsr s) ∧ (¬bad → exec (.csrw n ra) s = .next t) := by
  rw [← hbad]
  cases legal with
  | false => exact ⟨fun _ => raises_of_ruleOf (csrwRule_none hx hw), fun h => absurd rfl h⟩
  | true => exact ⟨nofun, fun _ => exec_of_ruleOf (csrwRule_some hx hw)⟩

/-- Settles O45: after the register is read, the number and then the value's range decide; the four address
registers share one check. -/
theorem csrwResult : Obligations.CsrwResult := by
  intro n ra s
  refine ⟨(decode_csrw (opField_packR ..)).trans (fmtAI_packR ..), fun hx => raises_of_ruleOf ?_,
    fun v hx => ?_⟩
  · show csrwRule n.toNat ra s = _
    rw [csrwRule, State.readX_none hx, Act.raise_bind]
  have haddr {k t} (hw : s.writeCsr k v.toInt = if within v.toInt 8191 then some t else none) :=
    csrw_outcome hx hw within_eq_false_iff
  obtain ⟨hdBad, hd⟩ := haddr (s.writeCsr_daddr v)
  obtain ⟨hbBad, hb⟩ := haddr (s.writeCsr_baddr v)
  obtain ⟨heBad, he⟩ := haddr (s.writeCsr_eaddr v)
  obtain ⟨hfBad, hf⟩ := haddr (s.writeCsr_faddr v)
  simp only [ite_prop_iff_and]
  exact ⟨fun hn => raises_of_ruleOf (csrwRule_none hx (State.writeCsr_readOnly hn)),
    csrw_outcome hx (s.writeCsr_cfg v) cfgLegal_eq_false_iff,
    ⟨fun h => ⟨hdBad h, hbBad h, heBad h, hfBad h⟩, fun h => ⟨hd h, hb h, he h, hf h⟩⟩,
    csrw_outcome hx (s.writeCsr_dlen v) within_eq_false_iff,
    csrw_outcome hx (s.writeCsr_nblk v) within_eq_false_iff⟩

end Sys2Proof.Machine
end

section
/-! GF(256): the tables `EXP` and `LOG` against the construction loop, what the field functions read from
them, and the obligation O22 (R122 to R127). -/

namespace Sys2Proof.Machine

/-! ### The tables (R122 to R124) -/

/-- The construction loop is the iteration of its turn from 1 (R122). -/
theorem expByLoop_eq_iterate (e : Nat) : expByLoop e = gfDouble^[e] 1 := by
  induction e with
  | zero => rfl
  | succ e ih => rw [expByLoop, ih, Function.iterate_succ_apply']

/-- `EXP` lists the first 255 values of the construction loop (R122, R123). -/
theorem expTable_eq_iterate : expTable = List.iterate gfDouble 1 255 := by decide +kernel

theorem length_expTable : expTable.length = 255 := by
  rw [expTable_eq_iterate, List.length_iterate]

theorem expTable_getElem? {e : Nat} (he : e < 255) : expTable[e]? = some (expByLoop e) := by
  rw [expTable_eq_iterate, List.getElem?_iterate _ _ _ _ he, expByLoop_eq_iterate]

/-- The 255th turn takes the last entry of `EXP` back to the first (R122). -/
theorem expByLoop_255 : expByLoop 255 = 1 := by
  have hlast : some (expByLoop 254) = some 142 := (expTable_getElem? (by decide)).symm
  rw [expByLoop, Option.some.inj hlast]
  rfl

/-- Read at the entries of `EXP` in their order, `LOG` counts from 0 to 254. -/
theorem logTable_at_expTable :
    expTable.map (fun v => logTable[v - 1]?) = (List.range 255).map some := by decide +kernel

/-- Read at the entries of `LOG` in their order, `EXP` counts from 1 to 255. -/
theorem expTable_at_logTable :
    logTable.map (fun l => expTable[l]?) = (List.range' 1 255).map some := by decide +kernel

theorem length_logTable : logTable.length = 255 := by
  simpa using congrArg List.length expTable_at_logTable

/-- `LOG` undoes `EXP` (R124). -/
theorem logTable_getElem?_expByLoop {e : Nat} (he : e < 255) :
    logTable[expByLoop e - 1]? = some e := by
  have h := congrArg (·[e]?) logTable_at_expTable
  simpa [expTable_getElem? he, he] using h

/-- `EXP` undoes `LOG` (R124). -/
theorem exists_logTable_getElem? {x : Nat} (h1 : 1 ≤ x) (h2 : x ≤ 255) :
    ∃ l, logTable[x - 1]? = some l ∧ expTable[l]? = some x := by
  have h := congrArg (·[x - 1]?) expTable_at_logTable
  obtain ⟨l, hl, hx⟩ : ∃ l, logTable[x - 1]? = some l ∧ expTable[l]? = some (1 + (x - 1)) := by
    simpa [show x - 1 < 255 by omega] using h
  exact ⟨l, hl, by rwa [Nat.add_sub_cancel' h1] at hx⟩

/-- Every entry of `EXP` is an element of the field other than 0. -/
theorem mem_expTable_range {v : Nat} : v ∈ expTable → 0 < v ∧ v < 256 := by
  have h : ∀ v ∈ expTable, 0 < v ∧ v < 256 := by decide +kernel
  exact h v

theorem lt_255_of_expTable {e v : Nat} (h : expTable[e]? = some v) : e < 255 := by
  obtain ⟨hlt, -⟩ := List.getElem?_eq_some_iff.mp h
  rwa [length_expTable] at hlt

/-! ### `gexp` (R125) -/

theorem toNat_emod_255_lt (e : Int) : (e % 255).toNat < 255 := by omega

/-- `gexp(e)` is the entry of `EXP` at `e mod 255`. -/
theorem expTable_getElem?_emod (e : Int) : expTable[(e % 255).toNat]? = some (gexp e).toNat := by
  have hv := expTable_getElem? (toNat_emod_255_lt e)
  have hlt := (mem_expTable_range (List.mem_of_getElem? hv)).2
  rw [gexp, List.getD_eq_getElem?_getD, hv, Option.getD_some, BitVec.toNat_ofNat, Nat.mod_eq_of_lt hlt]

theorem gexp_ne_zero (e : Int) : gexp e ≠ 0 := by
  have hpos := (mem_expTable_range (List.mem_of_getElem? (expTable_getElem?_emod e))).1
  intro h
  simp [h] at hpos

/-- At an exponent of the table no modulus is taken. -/
theorem toNat_gexp_of_expTable {l v : Nat} (h : expTable[l]? = some v) : (gexp l).toNat = v := by
  have hmod : ((l : Int) % 255).toNat = l := by have := lt_255_of_expTable h; omega
  have hg := expTable_getElem?_emod l
  rw [hmod, h] at hg
  exact (Option.some.inj hg).symm

/-! ### `glog` (R126) -/

theorem glog_outside {v : Int} (h : v < 1 ∨ v > 255) : glog v = raise .glogDomain := by
  rw [glog, raiseIf_pos h, Act.raise_bind]

theorem glog_inside {v : Int} (h1 : 1 ≤ v) (h2 : v ≤ 255) : glog v = .ok (logOf (BitVec.ofInt 8 v)) := by
  rw [glog, raiseIf_neg (by omega), Act.ok_bind]

/-- Inside 1 to 255 `glog(x)` is `LOG[x]`, an exponent below 255 whose power is `x`. -/
theorem glog_spec {v : Int} (h1 : 1 ≤ v) (h2 : v ≤ 255) :
    ∃ l, logTable[v.toNat - 1]? = some l ∧ l < 255 ∧ glog v = .ok l ∧ (gexp l).toNat = v.toNat := by
  obtain ⟨l, hl, hv⟩ := exists_logTable_getElem? (x := v.toNat) (by omega) (by omega)
  have hbyte : (BitVec.ofInt 8 v).toNat = v.toNat := by rw [BitVec.toNat_ofInt]; omega
  have hlog : logOf (BitVec.ofInt 8 v) = l := by
    rw [logOf, hbyte, List.getD_eq_getElem?_getD, hl, Option.getD_some]
  exact ⟨l, hl, lt_255_of_expTable hv, (glog_inside h1 h2).trans (by rw [hlog]),
    toNat_gexp_of_expTable hv⟩

/-- An element has a logarithm exactly when it is not 0, and then it is `LOG`'s. -/
theorem glog_toNat_eq_ok {b : Byte} {l : Nat} : glog b.toNat = .ok l ↔ b ≠ 0 ∧ logOf b = l := by
  have hlt := b.isLt
  by_cases hb : b = 0
  · subst hb
    rw [glog_outside (by decide)]
    simp [raise_ne_ok]
  · have hpos : b.toNat ≠ 0 := fun h => hb (BitVec.eq_of_toNat_eq h)
    rw [glog_inside (by omega) (by omega), BitVec.ofInt_natCast, BitVec.ofNat_toNat, BitVec.setWidth_eq]
    simp only [Except.ok.injEq, ne_eq, hb, not_false_eq_true, true_and]

/-! ### `gfmul` (R127) -/

theorem gfmul_of_zero {a b : Byte} (h : a = 0 ∨ b = 0) : gfmul a b = 0 := if_pos h

theorem gfmul_of_ne_zero {a b : Byte} (ha : a ≠ 0) (hb : b ≠ 0) :
    gfmul a b = gexp ((logOf a : Int) + (logOf b : Int)) := if_neg (not_or.mpr ⟨ha, hb⟩)

/-- Settles O22: `EXP` lists the iterates of the loop's turn, `LOG` inverts it both ways, and the functions
read the two tables. -/
theorem gfTables : Obligations.GfTables := by
  refine ⟨length_expTable, length_logTable, expByLoop_255,
    fun e he => ⟨expTable_getElem? he, logTable_getElem?_expByLoop he⟩, fun x h1 h2 => ?_,
    fun e => ⟨expTable_getElem?_emod e, gexp_ne_zero e⟩,
    fun x => ⟨glog_outside, fun h1 h2 => ?_⟩, fun a b => ⟨gfmul_of_zero, fun l k hl hk => ?_⟩⟩
  · obtain ⟨e, -, hx⟩ := exists_logTable_getElem? h1 (Nat.le_of_lt_succ h2)
    have he := lt_255_of_expTable hx
    exact ⟨e, he, Option.some.inj ((expTable_getElem? he).symm.trans hx)⟩
  · obtain ⟨l, hl, hlt, hglog, -⟩ := glog_spec h1 h2
    exact ⟨l, hl, hlt, hglog⟩
  · obtain ⟨ha, rfl⟩ := glog_toNat_eq_ok.mp hl
    obtain ⟨hb, rfl⟩ := glog_toNat_eq_ok.mp hk
    exact gfmul_of_ne_zero ha hb

end Sys2Proof.Machine
end

section
/-! `GEXP` and `GLOG`: their rules on each outcome of their checks, and the obligation O46 (R128, R129). -/

namespace Sys2Proof.Machine

theorem decode_gexp {w : Word} (h : opField w = 0x10) : decode w = fmtXX .gexp w := by
  rw [decode, h]; rfl
theorem decode_glog {w : Word} (h : opField w = 0x11) : decode w = fmtXX .glog w := by
  rw [decode, h]; rfl

/-- A natural number written to a register is its word. -/
theorem State.setX_natCast (s : State) (r : XReg) (n : Nat) :
    s.setX r (n : Int) = { s with x := s.x.set r (some (BitVec.ofNat 32 n)) } := by
  rw [State.setX, BitVec.ofInt_natCast]

/-- An element written to a register is extended with zeros. -/
theorem State.setX_toNat (s : State) (r : XReg) (b : Byte) :
    s.setX r (b.toNat : Int) = { s with x := s.x.set r (some (b.setWidth 32)) } := by
  rw [State.setX_natCast, BitVec.ofNat_toNat]

theorem gexpRule_unwritten {rd ra : XReg} {s : State} (h : s.x[ra] = none) :
    gexpRule rd ra s = raise .unwritten := by
  rw [gexpRule, State.readX_none h, Act.raise_bind]

theorem gexpRule_of_operand {rd ra : XReg} {s : State} {a : Word} (h : s.x[ra] = some a) :
    gexpRule rd ra s = .ok { s with x := s.x.set rd (some ((gexp a.toInt).setWidth 32)) } := by
  rw [gexpRule, State.readX_some h, Act.ok_bind, State.setX_toNat]

theorem glogRule_unwritten {rd ra : XReg} {s : State} (h : s.x[ra] = none) :
    glogRule rd ra s = raise .unwritten := by
  rw [glogRule, State.readX_none h, Act.raise_bind]

/-- `GLOG` with its register written takes the logarithm, or its fault. -/
theorem glogRule_of_operand {rd ra : XReg} {s : State} {a : Word} (h : s.x[ra] = some a) :
    glogRule rd ra s = (glog a.toInt >>= fun l => .ok (s.setX rd l)) := by
  rw [glogRule, State.readX_some h, Act.ok_bind]

/-- Settles O46: once the register is read, `GEXP` has no check and the domain of `glog` decides `GLOG`. -/
theorem gexpGlogResults : Obligations.GexpGlogResults := by
  constructor
  · intro rd ra s
    exact ⟨(decode_gexp (opField_packR ..)).trans (fmtXX_packR ..),
      fun hx => raises_of_ruleOf (gexpRule_unwritten hx),
      fun a ha => ⟨gexp_ne_zero a.toInt, exec_of_ruleOf (gexpRule_of_operand ha)⟩⟩
  · intro rd ra s
    refine ⟨(decode_glog (opField_packR ..)).trans (fmtXX_packR ..),
      fun hx => raises_of_ruleOf (glogRule_unwritten hx),
      fun a ha => ⟨fun hout => raises_of_ruleOf ?_, fun h1 h2 => ?_⟩⟩
    · show glogRule rd ra s = _
      rw [glogRule_of_operand ha, glog_outside hout, Act.raise_bind]
    · obtain ⟨l, -, hlt, hglog, hpow⟩ := glog_spec h1 h2
      rw [toNat_toInt_of_nonneg (by omega)] at hpow
      refine ⟨l, hlt, hpow, exec_of_ruleOf ?_⟩
      show glogRule rd ra s = _
      rw [glogRule_of_operand ha, hglog, Act.ok_bind, State.setX_natCast]

end Sys2Proof.Machine
end

section
/-! `GFMUL` and `GFADD`: the operands they share, and the obligation O47 (R130, R131). -/

namespace Sys2Proof.Machine

theorem fmtXXX_packR (mk : XReg → XReg → XReg → Instr) (op : BitVec 8) (rd ra rb : XReg) :
    fmtXXX mk (packR op (xBits rd) (xBits ra) (xBits rb) 0) = .ok (mk rd ra rb) := by
  simp only [fmtXXX, xRd, xRa, xRb, noImm, rdField_packR, raField_packR, rbField_packR,
    imm12Field_packR, xField_xBits]
  rfl

theorem decode_gfmul {w : Word} (h : opField w = 0x12) : decode w = fmtXXX .gfmul w := by
  rw [decode, h]; rfl
theorem decode_gfadd {w : Word} (h : opField w = 0x13) : decode w = fmtXXX .gfadd w := by
  rw [decode, h]; rfl

/-- A pair of registers of which one is unwritten raises `UNWRITTEN`, whichever of the two it is. -/
theorem State.readXX_unwritten {s : State} {ra rb : XReg} (h : s.x[ra] = none ∨ s.x[rb] = none) :
    s.readXX ra rb = raise .unwritten := by
  rcases State.readX_cases s ra with ⟨v, hv⟩ | hv
  · have hb : s.x[rb] = none := h.resolve_left fun ha => raise_ne_ok ((State.readX_none ha).symm.trans hv)
    rw [State.readXX, hv, Act.ok_bind, State.readX_none hb, Act.raise_bind]
  · rw [State.readXX, hv, Act.raise_bind]

theorem State.readXX_some {s : State} {ra rb : XReg} {a b : Word} (ha : s.x[ra] = some a)
    (hb : s.x[rb] = some b) : s.readXX ra rb = .ok (a.toInt, b.toInt) :=
  State.readXX_eq_ok.mpr ⟨State.readX_some ha, State.readX_some hb⟩

theorem State.readElems_unwritten {s : State} {ra rb : XReg} (h : s.x[ra] = none ∨ s.x[rb] = none) :
    s.readElems ra rb = raise .unwritten := by
  rw [State.readElems, State.readXX_unwritten h, Act.raise_bind]

/-- Two written registers give the elements of their low bytes, once both operands pass the range check
(R130). -/
theorem State.readElems_of_operands {s : State} {ra rb : XReg} {a b : Word} (ha : s.x[ra] = some a)
    (hb : s.x[rb] = some b) :
    s.readElems ra rb =
      (raiseIf (a.toInt < 0 ∨ a.toInt > 255 ∨ b.toInt < 0 ∨ b.toInt > 255) .elemRange >>= fun _ =>
        .ok (a.setWidth 8, b.setWidth 8)) := by
  rw [State.readElems, State.readXX_some ha hb, Act.ok_bind,
    ← ofInt_toInt_eq_setWidth (by decide), ← ofInt_toInt_eq_setWidth (by decide)]

/-- Two operands of which one is outside 0 to 255 raise `ELEM_RANGE` (R130). -/
theorem State.readElems_outOfRange {s : State} {ra rb : XReg} {a b : Word} (ha : s.x[ra] = some a)
    (hb : s.x[rb] = some b) (h : a.toInt < 0 ∨ a.toInt > 255 ∨ b.toInt < 0 ∨ b.toInt > 255) :
    s.readElems ra rb = raise .elemRange := by
  rw [State.readElems_of_operands ha hb, raiseIf_pos h, Act.raise_bind]

/-- Two operands in 0 to 255 are the elements of their low bytes (R130). -/
theorem State.readElems_inRange {s : State} {ra rb : XReg} {a b : Word} (ha : s.x[ra] = some a)
    (hb : s.x[rb] = some b) (h : ¬(a.toInt < 0 ∨ a.toInt > 255 ∨ b.toInt < 0 ∨ b.toInt > 255)) :
    s.readElems ra rb = .ok (a.setWidth 8, b.setWidth 8) := by
  rw [State.readElems_of_operands ha hb, raiseIf_neg h, Act.ok_bind]

/-- The exclusive-or of two words below 256 is that of their low bytes (R131). -/
theorem setWidth_gfadd {a b : Word} (ha : 0 ≤ a.toInt) (ha' : a.toInt ≤ 255) (hb : 0 ≤ b.toInt)
    (hb' : b.toInt ≤ 255) : (gfadd (a.setWidth 8) (b.setWidth 8)).setWidth 32 = a ^^^ b := by
  have hlow {v : Word} (h0 : 0 ≤ v.toInt) (h1 : v.toInt ≤ 255) : (v.setWidth 8).setWidth 32 = v := by
    have := toNat_toInt_of_nonneg h0
    apply BitVec.eq_of_toNat_eq
    simp only [BitVec.toNat_setWidth]
    omega
  rw [gfadd, BitVec.setWidth_xor, hlow ha ha', hlow hb hb']

/-! Both rules apply a function of the field to the two elements they read. -/

section
variable {i : Instr} {f : Byte → Byte → Byte} {rd ra rb : XReg} {s : State}
  (hrule : ruleOf i s = s.readElems ra rb >>= fun v => .ok (s.setX rd (f v.1 v.2).toNat))
include hrule

theorem raises_unwritten_of_readElems (h : s.x[ra] = none ∨ s.x[rb] = none) :
    Raises i .unwritten s :=
  raises_of_ruleOf (by rw [hrule, State.readElems_unwritten h, Act.raise_bind])

theorem raises_elemRange_of_readElems {a b : Word} (ha : s.x[ra] = some a) (hb : s.x[rb] = some b)
    (h : a.toInt < 0 ∨ a.toInt > 255 ∨ b.toInt < 0 ∨ b.toInt > 255) : Raises i .elemRange s :=
  raises_of_ruleOf (by rw [hrule, State.readElems_outOfRange ha hb h, Act.raise_bind])

theorem exec_of_readElems {a b : Word} (ha : s.x[ra] = some a) (hb : s.x[rb] = some b)
    (h : ¬(a.toInt < 0 ∨ a.toInt > 255 ∨ b.toInt < 0 ∨ b.toInt > 255)) :
    exec i s = .next { s with
      x := s.x.set rd (some ((f (a.setWidth 8) (b.setWidth 8)).setWidth 32)) } :=
  exec_of_ruleOf (by rw [hrule, State.readElems_inRange ha hb h, Act.ok_bind, State.setX_toNat])

end

theorem ruleOf_gfmul (rd ra rb : XReg) (s : State) : ruleOf (.gfmul rd ra rb) s =
    s.readElems ra rb >>= fun v => .ok (s.setX rd (gfmul v.1 v.2).toNat) := rfl

theorem ruleOf_gfadd (rd ra rb : XReg) (s : State) : ruleOf (.gfadd rd ra rb) s =
    s.readElems ra rb >>= fun v => .ok (s.setX rd (gfadd v.1 v.2).toNat) := rfl

/-- Settles O47: reading the two elements makes every check of both commands. -/
theorem gfmulGfaddResults : Obligations.GfmulGfaddResults := by
  intro rd ra rb s
  have hmul := ruleOf_gfmul rd ra rb s
  have hadd := ruleOf_gfadd rd ra rb s
  refine ⟨(decode_gfmul (opField_packR ..)).trans (fmtXXX_packR ..),
    (decode_gfadd (opField_packR ..)).trans (fmtXXX_packR ..),
    fun h => ⟨raises_unwritten_of_readElems hmul h, raises_unwritten_of_readElems hadd h⟩,
    fun a b ha hb => ⟨fun h => ⟨raises_elemRange_of_readElems hmul ha hb h,
      raises_elemRange_of_readElems hadd ha hb h⟩, fun ha0 ha1 hb0 hb1 => ?_⟩⟩
  have hin : ¬(a.toInt < 0 ∨ a.toInt > 255 ∨ b.toInt < 0 ∨ b.toInt > 255) := by omega
  have hsum := exec_of_readElems hadd ha hb hin
  rw [setWidth_gfadd ha0 ha1 hb0 hb1] at hsum
  exact ⟨exec_of_readElems hmul ha hb hin, hsum⟩

end Sys2Proof.Machine
end

section
/-! Polynomials as coefficient sequences: the trim, the coefficient at each power of `x`, the product, and the
obligation O25 (R140 to R143). -/

namespace Sys2Proof.Machine

/-! ### Sums and trimmed sequences (R121, R141) -/

@[simp] theorem gfadd_zero (a : Byte) : gfadd a 0 = a := BitVec.xor_zero

@[simp] theorem zero_gfadd (a : Byte) : gfadd 0 a = a := BitVec.zero_xor

@[simp] theorem gfadd_self (a : Byte) : gfadd a a = 0 := BitVec.xor_self

theorem gfadd_comm (a b : Byte) : gfadd a b = gfadd b a := BitVec.xor_comm a b

theorem gfadd_assoc (a b c : Byte) : gfadd (gfadd a b) c = gfadd a (gfadd b c) := BitVec.xor_assoc a b c

/-- A trimmed sequence is `[0]` or has a leading coefficient (R141). -/
theorem trimmed_iff {s : Poly} : trimmed s = true ↔ s = [0] ∨ ∃ x t, x ≠ 0 ∧ s = x :: t := by
  match s with
  | [] => simp [trimmed]
  | [a] => simp [trimmed, em]
  | a :: b :: t => simp [trimmed]

theorem trimmed_cons {x : Byte} (t : List Byte) (h : x ≠ 0) : trimmed (x :: t) = true :=
  trimmed_iff.mpr (.inr ⟨x, t, h, rfl⟩)

theorem exists_cons_of_trimmed {s : Poly} (h : trimmed s = true) (hs : s ≠ [0]) :
    ∃ x t, x ≠ 0 ∧ s = x :: t :=
  (trimmed_iff.mp h).resolve_left hs

theorem ne_nil_of_trimmed {s : Poly} (h : trimmed s = true) : s ≠ [] := by
  rintro rfl
  cases h

theorem trimmed_trim {s : List Byte} (h : s ≠ []) : trimmed (trim s) = true := by
  induction s using trim.induct with
  | case1 => exact absurd rfl h
  | case2 a => rfl
  | case3 b s ih => simpa [trim] using ih (List.cons_ne_nil b s)
  | case4 a b s ha => rw [trim, if_neg ha]; exact trimmed_cons _ ha

theorem trim_of_trimmed {s : Poly} (h : trimmed s = true) : trim s = s := by
  match s with
  | [] => rfl
  | [a] => rfl
  | a :: b :: t => exact if_neg (of_decide_eq_true h)

theorem trim_zero_cons {s : List Byte} (h : s ≠ []) : trim (0 :: s) = trim s := by
  obtain ⟨a, t, rfl⟩ := List.exists_cons_of_ne_nil h
  exact if_pos rfl

theorem zeros_succ (n : Nat) : zeros (n + 1) = 0 :: zeros n := rfl

@[simp] theorem length_zeros (n : Nat) : (zeros n).length = n := List.length_replicate

/-- Leading zeros do not change the trim. -/
theorem trim_zeros_append (n : Nat) {s : List Byte} (h : s ≠ []) : trim (zeros n ++ s) = trim s := by
  induction n with
  | zero => rfl
  | succ n ih => rw [zeros_succ, List.cons_append, trim_zero_cons (List.append_ne_nil_of_right_ne_nil _ h), ih]

/-- The trim takes leading zeros away and nothing else. -/
theorem exists_zeros_append_trim (s : List Byte) : ∃ n, s = zeros n ++ trim s := by
  induction s using trim.induct with
  | case1 => exact ⟨0, rfl⟩
  | case2 a => exact ⟨0, rfl⟩
  | case3 b s ih =>
    obtain ⟨n, hn⟩ := ih
    exact ⟨n + 1, by rw [trim, if_pos rfl, zeros_succ, List.cons_append, ← hn]⟩
  | case4 a b s ha => exact ⟨0, by rw [trim, if_neg ha]; rfl⟩

theorem length_trim_le (s : List Byte) : (trim s).length ≤ s.length := by
  obtain ⟨n, hn⟩ := exists_zeros_append_trim s
  have hlen := congrArg List.length hn
  rw [List.length_append] at hlen
  omega

/-! ### The coefficient at a power of `x` (R140) -/

/-- The coefficient of `x^k`: the sequence has the highest power first. -/
def coeff (s : List Byte) (k : Nat) : Byte := s.reverse.getD k 0

theorem coeff_of_length_le {s : List Byte} {k : Nat} (h : s.length ≤ k) : coeff s k = 0 :=
  List.getD_eq_default _ _ (by rwa [List.length_reverse])

theorem coeff_append (s t : List Byte) (k : Nat) :
    coeff (s ++ t) k = if k < t.length then coeff t k else coeff s (k - t.length) := by
  rw [coeff, List.reverse_append]
  split
  · exact List.getD_append _ _ _ _ (by rwa [List.length_reverse])
  · rw [List.getD_append_right _ _ _ _ (by rw [List.length_reverse]; omega), List.length_reverse]
    rfl

/-- The first of `n + 1` coefficients is that of `x^n`. -/
theorem coeff_cons (a : Byte) (s : List Byte) (k : Nat) :
    coeff (a :: s) k = if k = s.length then a else coeff s k := by
  rw [← List.singleton_append, coeff_append]
  rcases Nat.lt_trichotomy k s.length with h | rfl | h
  · rw [if_pos h, if_neg h.ne]
  · rw [if_neg (lt_irrefl _), if_pos rfl, Nat.sub_self]
    rfl
  · rw [if_neg h.not_gt, if_neg h.ne', coeff_of_length_le h.le, coeff_of_length_le (by simpa using by omega)]

@[simp] theorem coeff_zero_cons (s : List Byte) (k : Nat) : coeff (0 :: s) k = coeff s k := by
  rw [coeff_cons]
  split
  · next h => rw [coeff_of_length_le h.ge]
  · rfl

theorem coeff_zeros_append (n : Nat) (s : List Byte) (k : Nat) : coeff (zeros n ++ s) k = coeff s k := by
  induction n with
  | zero => rfl
  | succ n ih => rw [zeros_succ, List.cons_append, coeff_zero_cons, ih]

@[simp] theorem coeff_zeros (n k : Nat) : coeff (zeros n) k = 0 := by
  rw [← List.append_nil (zeros n), coeff_zeros_append]
  rfl

@[simp] theorem coeff_trim (s : List Byte) (k : Nat) : coeff (trim s) k = coeff s k := by
  obtain ⟨n, hn⟩ := exists_zeros_append_trim s
  conv_rhs => rw [hn, coeff_zeros_append]

@[simp] theorem coeff_padleft (s : List Byte) (n k : Nat) : coeff (padleft s n) k = coeff s k :=
  coeff_zeros_append _ _ _

/-- A sequence is its length and its coefficients. -/
theorem eq_of_coeff {s t : List Byte} (hlen : s.length = t.length) (h : ∀ k, coeff s k = coeff t k) :
    s = t := by
  induction s generalizing t with
  | nil => exact (List.length_eq_zero_iff.mp hlen.symm).symm
  | cons a s ih =>
    obtain ⟨b, t, rfl⟩ := List.exists_cons_of_length_eq_add_one hlen.symm
    have hst : s.length = t.length := Nat.succ.inj hlen
    have hab : a = b := by simpa [coeff_cons, hst] using h s.length
    refine congrArg₂ _ hab (ih hst fun k => ?_)
    by_cases hk : k < s.length
    · simpa [coeff_cons, hk.ne, (hst ▸ hk).ne] using h k
    · rw [coeff_of_length_le (not_lt.mp hk), coeff_of_length_le (hst ▸ not_lt.mp hk)]

/-- The trim of a sequence is decided by its coefficients. -/
theorem trim_congr {s t : List Byte} (hs : s ≠ []) (ht : t ≠ []) (h : ∀ k, coeff s k = coeff t k) :
    trim s = trim t := by
  wlog hle : s.length ≤ t.length generalizing s t with hswap
  · exact (hswap ht hs (fun k => (h k).symm) (Nat.le_of_not_le hle)).symm
  · have hpad : padleft s t.length = t :=
      eq_of_coeff (length_padleft hle) fun k => (coeff_padleft s t.length k).trans (h k)
    rw [← hpad, padleft, trim_zeros_append _ hs]

theorem trim_eq_zero_of_coeff {s : List Byte} (hs : s ≠ []) (h : ∀ k, coeff s k = 0) : trim s = [0] :=
  trim_congr (t := [0]) hs (List.cons_ne_nil _ _) fun k => (h k).trans (coeff_zeros 1 k).symm

/-! ### The row sums of a product (R143) -/

theorem length_addInto (r b : List Byte) : (addInto r b).length = r.length := by
  induction r generalizing b with
  | nil => rfl
  | cons a r ih =>
    cases b with
    | nil => rfl
    | cons c b => exact congrArg (· + 1) (ih b)

/-- Sequences added from their first elements on are added index by index. -/
theorem getD_addInto {r b : List Byte} (h : b.length ≤ r.length) (k : Nat) :
    (addInto r b).getD k 0 = gfadd (r.getD k 0) (b.getD k 0) := by
  induction r generalizing b k with
  | nil => rw [List.length_eq_zero_iff.mp (Nat.le_zero.mp h)]; exact (gfadd_self 0).symm
  | cons a r ih =>
    cases b with
    | nil => exact (gfadd_zero _).symm
    | cons c b =>
      cases k with
      | zero => rfl
      | succ k => exact ih (Nat.le_of_succ_le_succ h) k

/-- Adding `b` into the first elements of `r` adds `b` shifted to the leading power of `r`. -/
theorem coeff_addInto {r b : List Byte} (h : b.length ≤ r.length) (k : Nat) :
    coeff (addInto r b) k = gfadd (coeff r k) (coeff (b ++ zeros (r.length - b.length)) k) := by
  induction r generalizing b with
  | nil => rw [List.length_eq_zero_iff.mp (Nat.le_zero.mp h)]; exact (gfadd_self 0).symm
  | cons a r ih =>
    cases b with
    | nil => rw [List.nil_append, coeff_zeros, gfadd_zero]; rfl
    | cons c b =>
      have hle : b.length ≤ r.length := Nat.le_of_succ_le_succ h
      have hlen : (b ++ zeros (r.length - b.length)).length = r.length := by
        rw [List.length_append, length_zeros]; omega
      rw [addInto, List.length_cons, List.length_cons, Nat.add_sub_add_right, List.cons_append, coeff_cons,
        coeff_cons a, coeff_cons c, length_addInto, hlen, ih hle]
      split <;> rfl

/-- Sequences of one length are added coefficient by coefficient (R146). -/
theorem coeff_addInto_of_length_eq {r b : List Byte} (h : b.length = r.length) (k : Nat) :
    coeff (addInto r b) k = gfadd (coeff r k) (coeff b k) := by
  rw [coeff_addInto h.le, h, Nat.sub_self]
  exact congrArg (fun t => gfadd _ (coeff t k)) (List.append_nil b)

theorem length_convolve_cons (x : Byte) (s b : List Byte) :
    (convolve (x :: s) b).length = b.length + s.length := by
  rw [convolve, length_addInto, List.length_append, List.length_map, length_zeros]

theorem length_convolve (a b : List Byte) : (convolve a b).length = a.length + b.length - 1 := by
  cases a with
  | nil => rw [convolve, length_zeros, List.length_nil, Nat.zero_add]
  | cons x s => rw [length_convolve_cons, List.length_cons]; omega

theorem convolve_ne_nil {a b : List Byte} (ha : a ≠ []) (hb : b ≠ []) : convolve a b ≠ [] := by
  have hla := List.length_pos_iff.mpr ha
  have hlb := List.length_pos_iff.mpr hb
  rw [← List.length_pos_iff, length_convolve]
  omega

/-- The rows of the coefficients after the first, moved by one, are as long as the first row with its
zeros. -/
theorem length_zero_cons_convolve {s b : List Byte} (x : Byte) (hb : b ≠ []) :
    (0 :: convolve s b).length = (b.map (gfmul x) ++ zeros s.length).length := by
  have hlb := List.length_pos_iff.mpr hb
  rw [List.length_cons, length_convolve, List.length_append, List.length_map, length_zeros]
  omega

/-- A product by `x * X^n + s` is the row of `x` at the power `n` and the product by `s`. -/
theorem coeff_convolve_cons (x : Byte) (s : List Byte) {b : List Byte} (hb : b ≠ []) (k : Nat) :
    coeff (convolve (x :: s) b) k =
      gfadd (coeff (b.map (gfmul x) ++ zeros s.length) k) (coeff (convolve s b) k) := by
  rw [convolve, coeff_addInto_of_length_eq (length_zero_cons_convolve x hb), coeff_zero_cons]

theorem map_gfmul_eq_zeros {x : Byte} {b : List Byte} (h : ∀ y ∈ b, x = 0 ∨ y = 0) :
    b.map (gfmul x) = zeros b.length :=
  List.map_eq_replicate_iff.mpr fun y hy => gfmul_of_zero (h y hy)

theorem coeff_map_gfmul_append_zeros {x : Byte} {b : List Byte} (h : ∀ y ∈ b, x = 0 ∨ y = 0) (n k : Nat) :
    coeff (b.map (gfmul x) ++ zeros n) k = 0 := by
  rw [map_gfmul_eq_zeros h, coeff_zeros_append, coeff_zeros]

/-- Leading zeros of a factor do not change the coefficients of the product. -/
theorem coeff_convolve_zeros_append (n : Nat) (q : List Byte) {b : List Byte} (hb : b ≠ []) (k : Nat) :
    coeff (convolve (zeros n ++ q) b) k = coeff (convolve q b) k := by
  induction n with
  | zero => rfl
  | succ n ih =>
    rw [zeros_succ, List.cons_append, coeff_convolve_cons _ _ hb,
      coeff_map_gfmul_append_zeros fun _ _ => .inl rfl, ih]
    exact zero_gfadd _

/-- Trimming a factor does not change the coefficients of the product. -/
theorem coeff_convolve_trim (q : List Byte) {b : List Byte} (hb : b ≠ []) (k : Nat) :
    coeff (convolve (trim q) b) k = coeff (convolve q b) k := by
  obtain ⟨n, hn⟩ := exists_zeros_append_trim q
  conv_rhs => rw [hn, coeff_convolve_zeros_append n _ hb]

/-- Where every term-product has a zero factor, every coefficient of the product is 0. -/
theorem coeff_convolve_eq_zero {a b : List Byte} (hb : b ≠ []) (h : ∀ x ∈ a, ∀ y ∈ b, x = 0 ∨ y = 0)
    (k : Nat) : coeff (convolve a b) k = 0 := by
  induction a with
  | nil => exact coeff_zeros _ _
  | cons x s ih =>
    rw [coeff_convolve_cons _ _ hb, coeff_map_gfmul_append_zeros (h x List.mem_cons_self),
      ih fun x' hx' => h x' (List.mem_cons_of_mem _ hx'), gfadd_self]

/-! ### The product (R143) -/

/-- The sum of the term-products `a[i] * b[k-i]`, in the words of R143. -/
def termSum (a b : List Byte) (k : Nat) : Byte :=
  (List.range a.length).foldl (fun acc i =>
    if i ≤ k ∧ k - i < b.length then gfadd acc (gfmul (a.getD i 0) (b.getD (k - i) 0)) else acc) 0

/-- A sum of terms from any start is the start and the sum from 0. -/
theorem foldl_gfadd (p : Nat → Prop) [DecidablePred p] (f : Nat → Byte) (l : List Nat) (c : Byte) :
    l.foldl (fun acc i => if p i then gfadd acc (f i) else acc) c =
      gfadd c (l.foldl (fun acc i => if p i then gfadd acc (f i) else acc) 0) := by
  induction l generalizing c with
  | nil => exact (gfadd_zero c).symm
  | cons i l ih =>
    rw [List.foldl_cons, List.foldl_cons, ih]
    conv_rhs => rw [ih]
    split
    · rw [gfadd_assoc, zero_gfadd]
    · rw [zero_gfadd]

/-- The terms of the first coefficient, then those of the others one power lower. -/
theorem termSum_cons (x : Byte) (s b : List Byte) (k : Nat) :
    termSum (x :: s) b k =
      gfadd (gfmul x (b.getD k 0)) (match k with | 0 => 0 | j + 1 => termSum s b j) := by
  have hfirst : (if 0 ≤ k ∧ k - 0 < b.length then gfadd 0 (gfmul x (b.getD k 0)) else 0) =
      gfmul x (b.getD k 0) := by
    by_cases hk : k < b.length
    · rw [if_pos ⟨Nat.zero_le k, hk⟩]
      exact zero_gfadd _
    · rw [if_neg fun h => hk h.2, List.getD_eq_default _ _ (not_lt.mp hk), gfmul_of_zero (.inr rfl)]
  rw [termSum, List.length_cons, List.range_succ_eq_map, List.foldl_cons, List.foldl_map, foldl_gfadd]
  refine congrArg₂ gfadd hfirst ?_
  cases k with
  | zero => exact List.foldl_fixed' (fun i => if_neg (by omega)) _
  | succ j => simp only [termSum, Nat.succ_eq_add_one, Nat.add_le_add_iff_right, Nat.add_sub_add_right,
      List.getD_cons_succ]

/-- The rows of the product sum up, index by index, to the terms of R143. -/
theorem getD_convolve (a : List Byte) {b : List Byte} (hb : b ≠ []) (k : Nat) :
    (convolve a b).getD k 0 = termSum a b k := by
  induction a generalizing k with
  | nil => simp [convolve, zeros, termSum]
  | cons x s ih =>
    have hrow : (b.map (gfmul x) ++ zeros s.length).getD k 0 = gfmul x (b.getD k 0) := by
      have hx : gfmul x 0 = 0 := gfmul_of_zero (.inr rfl)
      by_cases hk : k < b.length
      · rw [List.getD_append _ _ _ _ (by rwa [List.length_map]), ← List.getD_map (f := gfmul x), hx]
      · rw [List.getD_append_right _ _ _ _ (by rw [List.length_map]; omega),
          List.getD_eq_default b _ (not_lt.mp hk), hx, List.getD_eq_getElem?_getD]
        exact List.getElem?_getD_replicate_default_eq ..
    rw [convolve, getD_addInto (length_zero_cons_convolve x hb).le, hrow, termSum_cons]
    cases k with
    | zero => rfl
    | succ j => rw [List.getD_cons_succ, ih]

theorem convolve_eq_map_termSum (a : List Byte) {b : List Byte} (hb : b ≠ []) :
    convolve a b = (List.range (a.length + b.length - 1)).map (termSum a b) := by
  refine List.ext_getElem (by rw [length_convolve, List.length_map, List.length_range]) fun k hk _ => ?_
  rw [List.getElem_map, List.getElem_range, ← getD_convolve a hb, List.getD_eq_getElem _ _ hk]

theorem gfmul_ne_zero {x y : Byte} (hx : x ≠ 0) (hy : y ≠ 0) : gfmul x y ≠ 0 := by
  rw [gfmul_of_ne_zero hx hy]
  exact gexp_ne_zero _

/-- The product of two nonzero polynomials starts with the product of their leading coefficients, so nothing
is trimmed. -/
theorem trimmed_convolve {a b : Poly} (ha : trimmed a = true) (hb : trimmed b = true) (ha0 : a ≠ [0])
    (hb0 : b ≠ [0]) : trimmed (convolve a b) = true := by
  obtain ⟨x, s, hx, rfl⟩ := exists_cons_of_trimmed ha ha0
  obtain ⟨y, t, hy, rfl⟩ := exists_cons_of_trimmed hb hb0
  exact trimmed_cons _ ((gfadd_zero _).trans_ne (gfmul_ne_zero hx hy))

/-- Settles O25: the rows added up by `convolve` give the terms of R143 at every index; the leading product of
two nonzero polynomials stops the trim, and a zero factor makes every row zero. -/
theorem pmulConvolves : Obligations.PmulConvolves := by
  intro a b ha hb
  have hane := ne_nil_of_trimmed ha
  have hbne := ne_nil_of_trimmed hb
  refine ⟨congrArg trim (convolve_eq_map_termSum a hbne), fun ha0 hb0 => ?_, fun hzero => ?_⟩
  · rw [pmul, trim_of_trimmed (trimmed_convolve ha hb ha0 hb0), length_convolve]
  · refine trim_eq_zero_of_coeff (convolve_ne_nil hane hbne) (coeff_convolve_eq_zero hbne fun x hx y hy => ?_)
    rcases hzero with rfl | rfl
    · exact .inl (List.mem_singleton.mp hx)
    · exact .inr (List.mem_singleton.mp hy)

end Sys2Proof.Machine
end

section
/-! The remainder: one pass of the division loop, what the loop ends with, and the obligation O26 (R145,
R146). -/

namespace Sys2Proof.Machine

/-! ### The ratio of leading coefficients (R145) -/

theorem gexp_congr {e e' : Int} (h : e % 255 = e' % 255) : gexp e = gexp e' := by rw [gexp, gexp, h]

theorem glog_toNat {b : Byte} (hb : b ≠ 0) : glog b.toNat = .ok (logOf b) :=
  glog_toNat_eq_ok.mpr ⟨hb, rfl⟩

theorem glog_toNat_zero : glog (0 : Byte).toNat = raise .glogDomain := glog_outside (.inl (by decide))

/-- `EXP` undoes `LOG` on the elements other than 0. -/
theorem gexp_logOf {b : Byte} (hb : b ≠ 0) : gexp (logOf b) = b := by
  have hpos : b.toNat ≠ 0 := fun h => hb (BitVec.eq_of_toNat_eq h)
  have hlt := b.isLt
  obtain ⟨l, -, -, hglog, hpow⟩ := glog_spec (v := b.toNat) (by omega) (by omega)
  obtain ⟨-, rfl⟩ := glog_toNat_eq_ok.mp hglog
  exact BitVec.eq_of_toNat_eq hpow

/-- `LOG` undoes `gexp` up to the modulus (R125). -/
theorem logOf_gexp (e : Int) : (logOf (gexp e) : Int) = e % 255 := by
  have hlt := toNat_emod_255_lt e
  have hexp : expByLoop (e % 255).toNat = (gexp e).toNat :=
    Option.some.inj ((expTable_getElem? hlt).symm.trans (expTable_getElem?_emod e))
  have hlog := logTable_getElem?_expByLoop hlt
  rw [hexp] at hlog
  rw [logOf, List.getD_eq_getElem?_getD, hlog, Option.getD_some]
  omega

/-- Adding a ratio in log-space multiplies by its power (R145). -/
theorem scaleByLog_eq_gfmul (ratio : Int) : scaleByLog ratio = gfmul (gexp ratio) := by
  funext c
  by_cases hc : c = 0
  · rw [gfmul_of_zero (.inr hc)]
    exact if_pos hc
  · rw [gfmul_of_ne_zero (gexp_ne_zero ratio) hc, scaleByLog, if_neg hc]
    refine gexp_congr ?_
    rw [logOf_gexp]
    omega

/-! ### One pass of the loop (R145) -/

/-- The power by which one pass multiplies the divisor: the ratio of the leading coefficients. -/
def leadRatio (r b : Poly) : Int := (logOf (r.headD 0) : Int) - (logOf (b.headD 0) : Int)

/-- The array `t` of one pass before the trim. -/
def cancelLead (r b : Poly) : List Byte := addInto r (b.map (gfmul (gexp (leadRatio r b))))

theorem length_cancelLead (r b : Poly) : (cancelLead r b).length = r.length := length_addInto _ _

theorem cancelLead_ne_nil {r b : Poly} (hr : trimmed r = true) : cancelLead r b ≠ [] := by
  rw [← List.length_pos_iff, length_cancelLead, List.length_pos_iff]
  exact ne_nil_of_trimmed hr

/-- A pass adds the divisor, scaled and shifted to the leading power. -/
theorem coeff_cancelLead {r b : Poly} (h : b.length ≤ r.length) (k : Nat) :
    coeff (cancelLead r b) k =
      gfadd (coeff r k) (coeff (b.map (gfmul (gexp (leadRatio r b))) ++ zeros (r.length - b.length)) k) := by
  have hlen : (b.map (gfmul (gexp (leadRatio r b)))).length = b.length := List.length_map _
  rw [cancelLead, coeff_addInto (hlen.trans_le h), hlen]

/-- A pass cancels the leading coefficient. -/
theorem exists_cancelLead_eq_zero_cons {r b : Poly} (hr : trimmed r = true) (hr0 : r ≠ [0])
    (hb : trimmed b = true) (hb0 : b ≠ [0]) : ∃ t, cancelLead r b = 0 :: t := by
  obtain ⟨x, r, hx, rfl⟩ := exists_cons_of_trimmed hr hr0
  obtain ⟨y, b, hy, rfl⟩ := exists_cons_of_trimmed hb hb0
  have hlead : gfmul (gexp (leadRatio (x :: r) (y :: b))) y = x := by
    rw [← scaleByLog_eq_gfmul, scaleByLog, if_neg hy, leadRatio, List.headD_cons, List.headD_cons,
      add_sub_cancel, gexp_logOf hx]
  rw [cancelLead, List.map_cons, hlead, addInto, gfadd_self]
  exact ⟨_, rfl⟩

theorem pmodLoop_of_done {r b : Poly} (fuel : Nat) (h : ¬(b.length ≤ r.length ∧ r ≠ [0])) :
    pmodLoop fuel r b = .ok r := by
  cases fuel with
  | zero => rfl
  | succ fuel => exact if_neg h

theorem pmodLoop_of_pass {r b : Poly} (fuel : Nat) (hlen : b.length ≤ r.length) (hr : trimmed r = true)
    (hr0 : r ≠ [0]) (hb : trimmed b = true) (hb0 : b ≠ [0]) :
    pmodLoop (fuel + 1) r b = pmodLoop fuel (trim (cancelLead r b)) b := by
  obtain ⟨x, s, hx, rfl⟩ := exists_cons_of_trimmed hr hr0
  obtain ⟨y, t, hy, rfl⟩ := exists_cons_of_trimmed hb hb0
  rw [pmodLoop, if_pos ⟨hlen, hr0⟩, List.headD_cons, List.headD_cons, glog_toNat hx, glog_toNat hy,
    Act.ok_bind, Act.ok_bind, scaleByLog_eq_gfmul]
  rfl

/-- A pass with the zero divisor raises `GLOG_DOMAIN` (R146). -/
theorem pmodLoop_zero_divisor {r : Poly} (fuel : Nat) (hr : trimmed r = true) (hr0 : r ≠ [0]) :
    pmodLoop (fuel + 1) r [0] = raise .glogDomain := by
  obtain ⟨x, s, hx, rfl⟩ := exists_cons_of_trimmed hr hr0
  have hlen : [(0 : Byte)].length ≤ (x :: s).length := Nat.le_add_left 1 s.length
  rw [pmodLoop, if_pos ⟨hlen, hr0⟩, List.headD_cons, List.headD_cons, glog_toNat hx, glog_toNat_zero,
    Act.ok_bind, Act.raise_bind]

/-! ### The whole loop (R146) -/

/-- How many powers of `x` a trimmed sequence reaches: none for the zero polynomial. -/
def reach (r : Poly) : Nat := if r = [0] then 0 else r.length

theorem reach_of_ne_zero {r : Poly} (h : r ≠ [0]) : reach r = r.length := if_neg h

theorem reach_le_length (r : Poly) : reach r ≤ r.length := by
  rw [reach]
  split
  · exact Nat.zero_le _
  · exact le_rfl

theorem reach_trim_zero_cons_le (t : List Byte) : reach (trim (0 :: t)) ≤ t.length := by
  by_cases ht : t = []
  · subst ht
    exact le_rfl
  · rw [trim_zero_cons ht]
    exact (reach_le_length _).trans (length_trim_le t)

/-- Each pass shortens the dividend, or makes it zero (R145). -/
theorem reach_trim_cancelLead_lt {r b : Poly} (hr : trimmed r = true) (hr0 : r ≠ [0]) (hb : trimmed b = true)
    (hb0 : b ≠ [0]) : reach (trim (cancelLead r b)) < reach r := by
  obtain ⟨t, ht⟩ := exists_cancelLead_eq_zero_cons hr hr0 hb hb0
  have hlen := length_cancelLead r b
  rw [ht, List.length_cons] at hlen
  rw [ht, reach_of_ne_zero hr0, ← hlen]
  exact Nat.lt_succ_of_le (reach_trim_zero_cons_le t)

/-- The division of `a` by `b` has the quotient `q`, of which leading zeros are allowed, and the remainder
`r`. -/
structure Division (a b q r : Poly) : Prop where
  trimmed_remainder : trimmed r = true
  remainder_small : r = [0] ∨ r.length < b.length
  remainder_le : r.length ≤ a.length
  quotient_le : q.length ≤ reach a + 1 - b.length
  sum_eq : ∀ k, gfadd (coeff a k) (coeff r k) = coeff (convolve q b) k

/-- A dividend that is `[0]` or shorter than the divisor is its own remainder. -/
theorem Division.of_done {a b : Poly} (ha : trimmed a = true) (h : ¬(b.length ≤ a.length ∧ a ≠ [0])) :
    Division a b [] a where
  trimmed_remainder := ha
  remainder_small := (em (a = [0])).imp_right fun h0 => lt_of_not_ge fun hle => h ⟨hle, h0⟩
  remainder_le := le_rfl
  quotient_le := Nat.zero_le _
  sum_eq _ := (gfadd_self _).trans (coeff_zeros _ _).symm

/-- A summand that occurs twice cancels. -/
theorem gfadd_cancel (s a r : Byte) : gfadd s (gfadd (gfadd a s) r) = gfadd a r := by
  rw [gfadd_comm a s, gfadd_assoc s a, ← gfadd_assoc s s, gfadd_self, zero_gfadd]

/-- The quotient of a division is the ratio of its first pass, at the power where that pass aligned the
divisor, and below it the quotient of what the pass left. -/
theorem Division.of_pass {a b q r : Poly} (hlen : b.length ≤ a.length) (ha : trimmed a = true)
    (ha0 : a ≠ [0]) (hb : trimmed b = true) (hb0 : b ≠ [0])
    (h : Division (trim (cancelLead a b)) b q r) :
    Division a b (gexp (leadRatio a b) :: padleft q (a.length - b.length)) r := by
  have hq : q.length ≤ a.length - b.length := by
    have hreach := reach_trim_cancelLead_lt ha ha0 hb hb0
    have hquot := h.quotient_le
    rw [reach_of_ne_zero ha0] at hreach
    omega
  refine ⟨h.trimmed_remainder, h.remainder_small, ?_, ?_, fun k => ?_⟩
  · exact h.remainder_le.trans ((length_trim_le _).trans (length_cancelLead a b).le)
  · rw [List.length_cons, length_padleft hq, reach_of_ne_zero ha0]
    omega
  · have hsum := h.sum_eq k
    rw [coeff_trim, coeff_cancelLead hlen] at hsum
    rw [coeff_convolve_cons _ _ (ne_nil_of_trimmed hb), length_padleft hq, padleft,
      coeff_convolve_zeros_append _ _ (ne_nil_of_trimmed hb), ← hsum, gfadd_cancel]

/-- With a nonzero divisor and enough fuel the loop answers the remainder of a division. -/
theorem pmodLoop_division {b : Poly} (hb : trimmed b = true) (hb0 : b ≠ [0]) (fuel : Nat) :
    ∀ a : Poly, trimmed a = true → reach a ≤ fuel →
      ∃ q r, pmodLoop fuel a b = .ok r ∧ Division a b q r := by
  induction fuel with
  | zero =>
    intro a ha hfuel
    have ha0 : a = [0] := by
      by_contra h
      rw [reach_of_ne_zero h, Nat.le_zero, List.length_eq_zero_iff] at hfuel
      exact ne_nil_of_trimmed ha hfuel
    exact ⟨[], a, rfl, Division.of_done ha fun h => h.2 ha0⟩
  | succ fuel ih =>
    intro a ha hfuel
    by_cases hpass : b.length ≤ a.length ∧ a ≠ [0]
    · obtain ⟨hlen, ha0⟩ := hpass
      have hfuel' := (reach_trim_cancelLead_lt ha ha0 hb hb0).trans_le hfuel
      obtain ⟨q, r, hr, hdiv⟩ := ih _ (trimmed_trim (cancelLead_ne_nil ha)) (Nat.le_of_lt_succ hfuel')
      exact ⟨_, r, (pmodLoop_of_pass fuel hlen ha ha0 hb hb0).trans hr, hdiv.of_pass hlen ha ha0 hb hb0⟩
    · exact ⟨[], a, pmodLoop_of_done _ hpass, Division.of_done ha hpass⟩

theorem pmod_division {a b : Poly} (ha : trimmed a = true) (hb : trimmed b = true) (hb0 : b ≠ [0]) :
    ∃ q r, pmod a b = .ok r ∧ Division a b q r :=
  pmodLoop_division hb hb0 _ a ha ((reach_le_length a).trans (Nat.le_succ _))

theorem pmod_of_done {a b : Poly} (h : ¬(b.length ≤ a.length ∧ a ≠ [0])) : pmod a b = .ok a :=
  pmodLoop_of_done _ h

theorem pmod_zero_dividend (b : Poly) : pmod [0] b = .ok [0] := pmod_of_done fun h => h.2 rfl

theorem pmod_zero_divisor {a : Poly} (ha : trimmed a = true) (ha0 : a ≠ [0]) :
    pmod a [0] = raise .glogDomain :=
  pmodLoop_zero_divisor _ ha ha0

/-- The dividend and the remainder differ by a multiple of the divisor (R146). -/
theorem Division.polyAdd_eq_pmul {a b q r : Poly} (h : Division a b q r) (ha : trimmed a = true)
    (hb : trimmed b = true) : polyAdd a r = pmul (trim (0 :: q)) b := by
  have hbne := ne_nil_of_trimmed hb
  have hane := List.length_pos_iff.mpr (ne_nil_of_trimmed ha)
  have hlen : (padleft r (max a.length r.length)).length = (padleft a (max a.length r.length)).length := by
    rw [length_padleft (le_max_left ..), length_padleft (le_max_right ..)]
  refine trim_congr ?_
    (convolve_ne_nil (ne_nil_of_trimmed (trimmed_trim (List.cons_ne_nil 0 q))) hbne) fun k => ?_
  · rw [← List.length_pos_iff, length_addInto, length_padleft (le_max_left ..)]
    exact hane.trans_le (le_max_left ..)
  · rw [coeff_addInto_of_length_eq hlen, coeff_padleft, coeff_padleft, h.sum_eq k,
      coeff_convolve_trim _ hbne, ← coeff_convolve_zeros_append 1 q hbne]
    rfl

/-- Settles O26: the loop ends with the remainder of a division, whose quotient, trimmed, is the factor. -/
theorem pmodDivides : Obligations.PmodDivides := by
  intro a b ha hb
  refine ⟨fun hb0 => ?_, ?_, ?_⟩
  · obtain ⟨q, r, hr, hdiv⟩ := pmod_division ha hb hb0
    refine ⟨r, hr, hdiv.trimmed_remainder, hdiv.remainder_small,
      ⟨trim (0 :: q), trimmed_trim (List.cons_ne_nil 0 q), hdiv.polyAdd_eq_pmul ha hb⟩,
      fun hshort => ?_, fun hone => ?_⟩
    · exact Except.ok.inj (hr.symm.trans (pmod_of_done fun h => absurd h.1 hshort.not_ge))
    · refine hdiv.remainder_small.resolve_right fun hlt => ?_
      exact ne_nil_of_trimmed hdiv.trimmed_remainder (List.length_eq_zero_iff.mp (by omega))
  · rintro rfl rfl
    exact pmod_zero_dividend [0]
  · rintro rfl ha0
    exact pmod_zero_divisor ha ha0

end Sys2Proof.Machine
end

section
/-! The commands on polynomials: decoding, their rules on each outcome of their checks, and the obligations
O48 to O52 (R147 to R153). -/

namespace Sys2Proof.Machine

/-! ### Decoding (R85, R86) -/

theorem fmtPXX_packR (mk : PReg → XReg → XReg → Instr) (op : BitVec 8) (rd : PReg) (ra rb : XReg) :
    fmtPXX mk (packR op (pBits rd) (xBits ra) (xBits rb) 0) = .ok (mk rd ra rb) := by
  simp only [fmtPXX, pRd, xRa, xRb, noImm, rdField_packR, raField_packR, rbField_packR,
    imm12Field_packR, xField_xBits, pField_pBits]
  rfl

theorem fmtXP_packR (mk : XReg → PReg → Instr) (op : BitVec 8) (rd : XReg) (ra : PReg) :
    fmtXP mk (packR op (xBits rd) (pBits ra) 0 0) = .ok (mk rd ra) := by
  simp only [fmtXP, xRd, pRa, noRb, noImm, rdField_packR, raField_packR, rbField_packR,
    imm12Field_packR, xField_xBits, pField_pBits, noField_zero]
  rfl

theorem fmtXPX_packR (mk : XReg → PReg → XReg → Instr) (op : BitVec 8) (rd : XReg) (ra : PReg)
    (rb : XReg) : fmtXPX mk (packR op (xBits rd) (pBits ra) (xBits rb) 0) = .ok (mk rd ra rb) := by
  simp only [fmtXPX, xRd, pRa, xRb, noImm, rdField_packR, raField_packR, rbField_packR,
    imm12Field_packR, xField_xBits, pField_pBits]
  rfl

theorem fmtPPP_packR (mk : PReg → PReg → PReg → Instr) (op : BitVec 8) (rd ra rb : PReg) :
    fmtPPP mk (packR op (pBits rd) (pBits ra) (pBits rb) 0) = .ok (mk rd ra rb) := by
  simp only [fmtPPP, pRd, pRa, pRb, noImm, rdField_packR, raField_packR, rbField_packR,
    imm12Field_packR, pField_pBits]
  rfl

theorem fmtPPX_packR (mk : PReg → PReg → XReg → Instr) (op : BitVec 8) (rd ra : PReg) (rb : XReg) :
    fmtPPX mk (packR op (pBits rd) (pBits ra) (xBits rb) 0) = .ok (mk rd ra rb) := by
  simp only [fmtPPX, pRd, pRa, xRb, noImm, rdField_packR, raField_packR, rbField_packR,
    imm12Field_packR, xField_xBits, pField_pBits]
  rfl

theorem decode_pld {w : Word} (h : opField w = 0x20) : decode w = fmtPXX .pld w := by
  rw [decode, h]; rfl
theorem decode_pst {w : Word} (h : opField w = 0x21) : decode w = fmtPXX .pst w := by
  rw [decode, h]; rfl
theorem decode_plen {w : Word} (h : opField w = 0x22) : decode w = fmtXP .plen w := by
  rw [decode, h]; rfl
theorem decode_pget {w : Word} (h : opField w = 0x23) : decode w = fmtXPX .pget w := by
  rw [decode, h]; rfl
theorem decode_pmul {w : Word} (h : opField w = 0x24) : decode w = fmtPPP .pmul w := by
  rw [decode, h]; rfl
theorem decode_pmod {w : Word} (h : opField w = 0x25) : decode w = fmtPPP .pmod w := by
  rw [decode, h]; rfl
theorem decode_pshift {w : Word} (h : opField w = 0x26) : decode w = fmtPPX .pshift w := by
  rw [decode, h]; rfl

/-! ### Operands (R273) -/

/-- Of two reads in sequence that can raise only `c`, one that raises it decides the outcome. -/
theorem Act.bind_bind_raise {α β γ : Type} {m : Act α} {n : Act β} {c : SubCause} {k : α → β → Act γ}
    (hm : (∃ a, m = .ok a) ∨ m = raise c) (h : m = raise c ∨ n = raise c) :
    (m >>= fun a => n >>= k a) = raise c := by
  rcases hm with ⟨a, rfl⟩ | rfl
  · rw [Act.ok_bind, h.resolve_left fun h => raise_ne_ok h.symm, Act.raise_bind]
  · rw [Act.raise_bind]

/-- A polynomial and a scalar register are read one after the other, whatever is done with them. -/
theorem State.readP_readX_unwritten {γ : Type} {s : State} {ra : PReg} {rb : XReg} {k : Poly → Int → Act γ}
    (h : s.p[ra] = none ∨ s.x[rb] = none) :
    (s.readP ra >>= fun q => s.readX rb >>= k q) = raise .unwritten :=
  Act.bind_bind_raise (s.readP_cases ra) (h.imp State.readP_none State.readX_none)

theorem State.readPP_unwritten {s : State} {ra rb : PReg} (h : s.p[ra] = none ∨ s.p[rb] = none) :
    s.readPP ra rb = raise .unwritten :=
  Act.bind_bind_raise (s.readP_cases ra) (h.imp State.readP_none State.readP_none)

theorem State.readPP_some {s : State} {ra rb : PReg} {a b : Poly} (ha : s.p[ra] = some a)
    (hb : s.p[rb] = some b) : s.readPP ra rb = .ok (a, b) := by
  rw [State.readPP, State.readP_some ha, Act.ok_bind, State.readP_some hb, Act.ok_bind]

/-! ### `PLD` (R147) -/

theorem pldRule_unwritten {rd : PReg} {ra rb : XReg} {s : State} (h : s.x[ra] = none ∨ s.x[rb] = none) :
    pldRule rd ra rb s = raise .unwritten := by
  rw [pldRule, State.readXX_unwritten h, Act.raise_bind]

/-- `PLD` with its registers written checks the length, reads the bytes and trims them. -/
theorem pldRule_of_operands {rd : PReg} {ra rb : XReg} {s : State} {a n : Word} (ha : s.x[ra] = some a)
    (hn : s.x[rb] = some n) :
    pldRule rd ra rb s =
      (raiseIf (n.toInt < 1 ∨ n.toInt > 256) .range >>= fun _ =>
        s.memRead a.toInt n.toInt.toNat >>= fun bs => .ok (s.setP rd (trim bs))) := by
  rw [pldRule, State.readXX_some ha hn, Act.ok_bind]

/-- Settles O48: once the length has passed its check, `MemRead` decides. -/
theorem pldResult : Obligations.PldResult := by
  intro rd ra rb s
  refine ⟨(decode_pld (opField_packR ..)).trans (fmtPXX_packR ..),
    fun h => raises_of_ruleOf (pldRule_unwritten h), fun a n ha hn => ⟨fun hbad => raises_of_ruleOf ?_,
    fun h1 h256 => ?_⟩⟩
  · show pldRule rd ra rb s = _
    rw [pldRule_of_operands ha hn, raiseIf_pos hbad, Act.raise_bind]
  have hrule : pldRule rd ra rb s =
      s.memRead a.toInt n.toInt.toNat >>= fun bs => .ok (s.setP rd (trim bs)) := by
    rw [pldRule_of_operands ha hn, raiseIf_neg (by omega), Act.ok_bind]
  have hraises {c : SubCause} (h : s.memRead a.toInt n.toInt.toNat = raise c) :
      Raises (.pld rd ra rb) c s :=
    raises_of_ruleOf (hrule.trans (by rw [h, Act.raise_bind]))
  refine ⟨fun hout => hraises (State.memRead_outside ?_), fun h0 hin => ?_⟩
  · rw [outsideM_iff]; omega
  have hinM : ¬outsideM a.toInt n.toInt.toNat := by rw [outsideM_iff]; omega
  rw [← toNat_toInt_of_nonneg h0, ← toNat_toInt_of_nonneg (show 0 ≤ n.toInt by omega)]
  refine ⟨?_, fun bs hlen hget => exec_of_ruleOf (hrule.trans ?_)⟩
  · rintro ⟨i, hi, hnone⟩
    exact hraises (State.memRead_unwritten hinM (Memory.bytes_eq_none_of_unwritten hi hnone))
  · rw [State.memRead_eq_ok.mpr ⟨hinM, Memory.bytes_eq_some.mpr ⟨hlen, hget⟩⟩, Act.ok_bind]
    rfl

/-! ### `PST` (R148) -/

/-- `PST` with a register unwritten raises `UNWRITTEN`, whichever of the three it is. -/
theorem pstRule_unwritten {rd : PReg} {ra rb : XReg} {s : State}
    (h : s.p[rd] = none ∨ s.x[ra] = none ∨ s.x[rb] = none) : pstRule rd ra rb s = raise .unwritten :=
  Act.bind_bind_raise (s.readP_cases rd) (h.imp State.readP_none State.readXX_unwritten)

/-- `PST` with its registers written checks the length and stores the padded coefficients. -/
theorem pstRule_of_operands {rd : PReg} {ra rb : XReg} {s : State} {q : Poly} {a n : Word}
    (hq : s.p[rd] = some q) (ha : s.x[ra] = some a) (hn : s.x[rb] = some n) :
    pstRule rd ra rb s =
      (raiseIf (n.toInt < (q.length : Int) ∨ n.toInt > 256) .range >>= fun _ =>
        s.memWrite a.toInt (padleft q n.toInt.toNat)) := by
  rw [pstRule, State.readP_some hq, Act.ok_bind, State.readXX_some ha hn, Act.ok_bind]

/-- Settles O49: once the length has passed its check, `MemWrite` of the padded coefficients decides. -/
theorem pstResult : Obligations.PstResult := by
  intro rd ra rb s
  refine ⟨(decode_pst (opField_packR ..)).trans (fmtPXX_packR ..),
    fun h => raises_of_ruleOf (pstRule_unwritten h), fun q a n hq ha hn =>
    ⟨fun hbad => raises_of_ruleOf ?_, fun hlo h256 => ?_⟩⟩
  · show pstRule rd ra rb s = _
    rw [pstRule_of_operands hq ha hn, raiseIf_pos hbad, Act.raise_bind]
  have hrule : pstRule rd ra rb s = s.memWrite a.toInt (padleft q n.toInt.toNat) := by
    rw [pstRule_of_operands hq ha hn, raiseIf_neg (by omega), Act.ok_bind]
  have hlen : (padleft q n.toInt.toNat).length = n.toInt.toNat := length_padleft (by omega)
  refine ⟨fun hout => raises_of_ruleOf (hrule.trans (State.memWrite_outside ?_)), fun h0 hin => ?_⟩
  · rw [outsideM_iff, hlen]; omega
  have hinM : ¬outsideM a.toInt (padleft q n.toInt.toNat).length := by rw [outsideM_iff, hlen]; omega
  refine ⟨_, exec_of_ruleOf (hrule.trans (State.memWrite_eq_ok.mpr ⟨hinM, rfl⟩)), fun k => ?_⟩
  rw [Memory.byteAt_putBytes, hlen, toNat_toInt_of_nonneg h0,
    toNat_toInt_of_nonneg (show 0 ≤ n.toInt by omega)]
  rfl

/-! ### `PLEN` and `PGET` (R149, R150) -/

theorem plenRule_unwritten {rd : XReg} {ra : PReg} {s : State} (h : s.p[ra] = none) :
    plenRule rd ra s = raise .unwritten := by
  rw [plenRule, State.readP_none h, Act.raise_bind]

theorem plenRule_of_operand {rd : XReg} {ra : PReg} {s : State} {q : Poly} (h : s.p[ra] = some q) :
    plenRule rd ra s = .ok { s with x := s.x.set rd (some (BitVec.ofNat 32 q.length)) } := by
  rw [plenRule, State.readP_some h, Act.ok_bind, State.setX_natCast]

theorem pgetRule_unwritten {rd : XReg} {ra : PReg} {rb : XReg} {s : State}
    (h : s.p[ra] = none ∨ s.x[rb] = none) : pgetRule rd ra rb s = raise .unwritten :=
  State.readP_readX_unwritten h

/-- `PGET` with its registers written checks the index and extends the coefficient there. -/
theorem pgetRule_of_operands {rd : XReg} {ra : PReg} {rb : XReg} {s : State} {q : Poly} {i : Word}
    (hq : s.p[ra] = some q) (hi : s.x[rb] = some i) :
    pgetRule rd ra rb s =
      (raiseIf (i.toInt < 0 ∨ i.toInt ≥ (q.length : Int)) .range >>= fun _ =>
        .ok (s.setX rd (q.getD i.toInt.toNat 0).toNat)) := by
  rw [pgetRule, State.readP_some hq, Act.ok_bind, State.readX_some hi, Act.ok_bind]

/-- Settles O50: `PLEN` has no check after its read, and the index decides `PGET`. -/
theorem plenPgetResults : Obligations.PlenPgetResults := by
  intro rd ra rb s
  refine ⟨(decode_plen (opField_packR ..)).trans (fmtXP_packR ..),
    (decode_pget (opField_packR ..)).trans (fmtXPX_packR ..),
    fun h => raises_of_ruleOf (plenRule_unwritten h), fun h => raises_of_ruleOf (pgetRule_unwritten h),
    fun q hq => ⟨exec_of_ruleOf (plenRule_of_operand hq), fun i hi =>
    ⟨fun hbad => raises_of_ruleOf ?_, fun c h0 hc => exec_of_ruleOf ?_⟩⟩⟩
  · show pgetRule rd ra rb s = _
    rw [pgetRule_of_operands hq hi, raiseIf_pos hbad, Act.raise_bind]
  · show pgetRule rd ra rb s = _
    rw [← toNat_toInt_of_nonneg h0] at hc
    obtain ⟨hlt, -⟩ := List.getElem?_eq_some_iff.mp hc
    rw [pgetRule_of_operands hq hi, raiseIf_neg (by omega), Act.ok_bind, List.getD_eq_getElem?_getD, hc,
      Option.getD_some, State.setX_toNat]

/-! ### `PMUL` and `PSHIFT` (R151, R153) -/

theorem pmulRule_unwritten {rd ra rb : PReg} {s : State} (h : s.p[ra] = none ∨ s.p[rb] = none) :
    pmulRule rd ra rb s = raise .unwritten := by
  rw [pmulRule, State.readPP_unwritten h, Act.raise_bind]

/-- `PMUL` with its registers written checks the untrimmed length and multiplies. -/
theorem pmulRule_of_operands {rd ra rb : PReg} {s : State} {a b : Poly} (ha : s.p[ra] = some a)
    (hb : s.p[rb] = some b) :
    pmulRule rd ra rb s =
      (raiseIf (a.length + b.length - 1 > 256) .range >>= fun _ => .ok (s.setP rd (pmul a b))) := by
  rw [pmulRule, State.readPP_some ha hb, Act.ok_bind]

theorem pshiftRule_unwritten {rd ra : PReg} {rb : XReg} {s : State}
    (h : s.p[ra] = none ∨ s.x[rb] = none) : pshiftRule rd ra rb s = raise .unwritten :=
  State.readP_readX_unwritten h

/-- `PSHIFT` with its registers written checks the count and the untrimmed length, and shifts. -/
theorem pshiftRule_of_operands {rd ra : PReg} {rb : XReg} {s : State} {a : Poly} {n : Word}
    (ha : s.p[ra] = some a) (hn : s.x[rb] = some n) :
    pshiftRule rd ra rb s =
      (raiseIf (n.toInt < 0 ∨ (a.length : Int) + n.toInt > 256) .range >>= fun _ =>
        .ok (s.setP rd (pshift a n.toInt.toNat))) := by
  rw [pshiftRule, State.readP_some ha, Act.ok_bind, State.readX_some hn, Act.ok_bind]

/-- Settles O51: after the reads one check decides each of the two commands. -/
theorem pmulPshiftResults : Obligations.PmulPshiftResults := by
  constructor
  · intro rd ra rb s
    refine ⟨(decode_pmul (opField_packR ..)).trans (fmtPPP_packR ..),
      fun h => raises_of_ruleOf (pmulRule_unwritten h),
      fun a b ha hb => ⟨fun hbad => raises_of_ruleOf ?_, fun hok => exec_of_ruleOf ?_⟩⟩
    · show pmulRule rd ra rb s = _
      rw [pmulRule_of_operands ha hb, raiseIf_pos hbad, Act.raise_bind]
    · show pmulRule rd ra rb s = _
      rw [pmulRule_of_operands ha hb, raiseIf_neg (by omega), Act.ok_bind, State.setP]
  · intro rd ra rb s
    refine ⟨(decode_pshift (opField_packR ..)).trans (fmtPPX_packR ..),
      fun h => raises_of_ruleOf (pshiftRule_unwritten h),
      fun a n ha hn => ⟨fun hbad => raises_of_ruleOf ?_, fun h0 hok => exec_of_ruleOf ?_⟩⟩
    · show pshiftRule rd ra rb s = _
      rw [pshiftRule_of_operands ha hn, raiseIf_pos hbad, Act.raise_bind]
    · show pshiftRule rd ra rb s = _
      rw [pshiftRule_of_operands ha hn, raiseIf_neg (by omega), Act.ok_bind, toNat_toInt_of_nonneg h0]
      rfl

/-! ### `PMOD` (R152) -/

theorem pmodRule_unwritten {rd ra rb : PReg} {s : State} (h : s.p[ra] = none ∨ s.p[rb] = none) :
    pmodRule rd ra rb s = raise .unwritten := by
  rw [pmodRule, State.readPP_unwritten h, Act.raise_bind]

/-- `PMOD` with its registers written takes the remainder, or its fault. -/
theorem pmodRule_of_operands {rd ra rb : PReg} {s : State} {a b : Poly} (ha : s.p[ra] = some a)
    (hb : s.p[rb] = some b) : pmodRule rd ra rb s = (pmod a b >>= fun r => .ok (s.setP rd r)) := by
  rw [pmodRule, State.readPP_some ha hb, Act.ok_bind]

/-- The remainder of a division with a nonzero divisor, or of the zero polynomial by anything, is no longer
than the dividend (R152). -/
theorem exists_pmod_eq_ok {a b : Poly} (ha : trimmed a = true) (hb : trimmed b = true)
    (h : b ≠ [0] ∨ a = [0]) : ∃ r, pmod a b = .ok r ∧ r.length ≤ a.length := by
  rcases h with hb0 | rfl
  · obtain ⟨q, r, hr, hdiv⟩ := pmod_division ha hb hb0
    exact ⟨r, hr, hdiv.remainder_le⟩
  · exact ⟨[0], pmod_zero_dividend b, le_rfl⟩

/-- Settles O52: `pmod` itself decides the command. -/
theorem pmodResult : Obligations.PmodResult := by
  intro rd ra rb s
  refine ⟨(decode_pmod (opField_packR ..)).trans (fmtPPP_packR ..),
    fun h => raises_of_ruleOf (pmodRule_unwritten h),
    fun a b ha hb hat hbt => ⟨?_, fun hok => ?_⟩⟩
  · rintro rfl ha0
    refine raises_of_ruleOf ?_
    show pmodRule rd ra rb s = _
    rw [pmodRule_of_operands ha hb, pmod_zero_divisor hat ha0, Act.raise_bind]
  · obtain ⟨r, hr, hlen⟩ := exists_pmod_eq_ok hat hbt hok
    refine ⟨r, hr, hlen, exec_of_ruleOf ?_⟩
    show pmodRule rd ra rb s = _
    rw [pmodRule_of_operands ha hb, hr, Act.ok_bind, State.setP]

end Sys2Proof.Machine
end

section
/-! `BCHFMT` and `BCHVER`: their rules on each outcome of their checks, and the obligation O56 (R172, R173). -/

namespace Sys2Proof.Machine

theorem decode_bchfmt {w : Word} (h : opField w = 0x38) : decode w = fmtXXX .bchfmt w := by
  rw [decode, h]; rfl
theorem decode_bchver {w : Word} (h : opField w = 0x39) : decode w = fmtXX .bchver w := by
  rw [decode, h]; rfl

theorem bchfmtRule_unwritten {rd ra rb : XReg} {s : State} (h : s.x[ra] = none ∨ s.x[rb] = none) :
    bchfmtRule rd ra rb s = raise .unwritten := by
  rw [bchfmtRule, State.readXX_unwritten h, Act.raise_bind]

/-- `BCHFMT` with its registers written checks the level code and the pattern, and encodes them. -/
theorem bchfmtRule_of_operands {rd ra rb : XReg} {s : State} {e k : Word} (he : s.x[ra] = some e)
    (hk : s.x[rb] = some k) :
    bchfmtRule rd ra rb s =
      (raiseIf (e.toInt < 0 ∨ e.toInt > 3 ∨ k.toInt < 0 ∨ k.toInt > 7) .badConfig >>= fun _ =>
        .ok (s.setX rd (bchfmt e.toInt.toNat k.toInt.toNat))) := by
  rw [bchfmtRule, State.readXX_some he hk, Act.ok_bind]

theorem bchverRule_unwritten {rd ra : XReg} {s : State} (h : s.x[ra] = none) :
    bchverRule rd ra s = raise .unwritten := by
  rw [bchverRule, State.readX_none h, Act.raise_bind]

/-- `BCHVER` with its register written checks the type number and encodes it. -/
theorem bchverRule_of_operand {rd ra : XReg} {s : State} {v : Word} (hv : s.x[ra] = some v) :
    bchverRule rd ra s =
      (raiseIf (v.toInt < 7 ∨ v.toInt > 40) .badConfig >>= fun _ =>
        .ok (s.setX rd (bchver v.toInt.toNat))) := by
  rw [bchverRule, State.readX_some hv, Act.ok_bind]

/-- Settles O56: after the reads one check decides each of the two commands. -/
theorem bchfmtBchverResults : Obligations.BchfmtBchverResults := by
  intro rd ra rb s
  refine ⟨(decode_bchfmt (opField_packR ..)).trans (fmtXXX_packR ..),
    (decode_bchver (opField_packR ..)).trans (fmtXX_packR ..),
    fun h => raises_of_ruleOf (bchfmtRule_unwritten h), fun h => raises_of_ruleOf (bchverRule_unwritten h),
    fun a ha => ⟨fun k hk => ⟨fun hbad => raises_of_ruleOf ?_, fun ha0 ha3 hk0 hk7 => exec_of_ruleOf ?_⟩,
      fun hbad => raises_of_ruleOf ?_, fun h7 h40 => exec_of_ruleOf ?_⟩⟩
  · show bchfmtRule rd ra rb s = _
    rw [bchfmtRule_of_operands ha hk, raiseIf_pos hbad, Act.raise_bind]
  · show bchfmtRule rd ra rb s = _
    rw [bchfmtRule_of_operands ha hk, raiseIf_neg (by omega), Act.ok_bind, toNat_toInt_of_nonneg ha0,
      toNat_toInt_of_nonneg hk0, State.setX_natCast]
  · show bchverRule rd ra s = _
    rw [bchverRule_of_operand ha, raiseIf_pos hbad, Act.raise_bind]
  · show bchverRule rd ra s = _
    rw [bchverRule_of_operand ha, raiseIf_neg (by omega), Act.ok_bind,
      toNat_toInt_of_nonneg (show 0 ≤ a.toInt by omega), State.setX_natCast]

end Sys2Proof.Machine
end

section
/-! The automatic choice of a mask: the least of a run of scores, and the obligation O32 (R190). -/

namespace Sys2Proof.Machine

/-- `k` is below `n`, no number below `n` has a lower score, and every number below `k` has a higher one. -/
structure IsLeastBelow (score : Nat → Nat) (n k : Nat) : Prop where
  lt : k < n
  least : ∀ j, j < n → score k ≤ score j
  lowest : ∀ j, j < k → score k < score j

/-- One more number is taken exactly when its score is strictly lower. -/
theorem IsLeastBelow.succ {score : Nat → Nat} {n k : Nat} (h : IsLeastBelow score n k) :
    IsLeastBelow score (n + 1) (if score n < score k then n else k) := by
  split
  · next hlt =>
    have hbelow : ∀ j, j < n → score n < score j := fun j hj => hlt.trans_le (h.least j hj)
    exact ⟨n.lt_succ_self, Nat.forall_lt_succ_right.mpr ⟨fun j hj => (hbelow j hj).le, le_rfl⟩, hbelow⟩
  · next hge =>
    exact ⟨Nat.lt_succ_of_lt h.lt, Nat.forall_lt_succ_right.mpr ⟨h.least, not_lt.mp hge⟩, h.lowest⟩

/-- Going on through the next `len` numbers keeps the lowest number of the least score. -/
theorem isLeastBelow_leastScore {score : Nat → Nat} {n best : Nat} (len : Nat)
    (h : IsLeastBelow score n best) :
    IsLeastBelow score (n + len) (leastScore score best (List.range' n len)) := by
  induction len generalizing n best with
  | zero => exact h
  | succ len ih =>
    rw [List.range'_succ, leastScore, Nat.add_succ, ← Nat.succ_add]
    exact ih h.succ

theorem isLeastBelow_choosemask (m : Mat) :
    IsLeastBelow (fun k => penalty (applymask m k)) 8 (choosemask m) :=
  isLeastBelow_leastScore 7 ⟨Nat.one_pos, Nat.forall_lt_succ_right.mpr ⟨nofun, le_rfl⟩, nofun⟩

/-- Settles O32: `choosemask` walks the patterns from 0 upward and keeps the lowest of the least penalty. -/
theorem choosemaskLeast : Obligations.ChoosemaskLeast := fun m =>
  have h := isLeastBelow_choosemask m
  ⟨Nat.le_of_lt_succ h.lt, fun j hj => h.least j (Nat.lt_succ_of_le hj), h.lowest⟩

end Sys2Proof.Machine
end

section
/-! `MAPPLY`, `MMASK` and `MMETA`: their rules on each outcome of their checks, and the obligation O58 (R192,
R194, R244). -/

namespace Sys2Proof.Machine

theorem fmtImm_packR (mk : Nat → Instr) (op : BitVec 8) (n : BitVec 12) :
    fmtImm mk (packR op 0 0 0 n) = .ok (mk n.toNat) := by
  simp only [fmtImm, noRd, noRa, noRb, imm12, rdField_packR, raField_packR, rbField_packR,
    imm12Field_packR, noField_zero]
  rfl

theorem decode_mapply {w : Word} (h : opField w = 0x49) : decode w = fmtImm .mapply w := by
  rw [decode, h]; rfl
theorem decode_mmask : decode 0x4B000000 = .ok .mmask := rfl
theorem decode_mmeta : decode 0x43000000 = .ok .mmeta := rfl

theorem State.atStage_of_eq {s : State} {g : Stage} (h : s.stage = g) : s.atStage g = .ok () :=
  State.atStage_eq_ok.mpr h

theorem State.atStage_of_ne {s : State} {g : Stage} (h : s.stage ≠ g) : s.atStage g = raise .badStage :=
  raiseIf_pos h

/-- `RESMASK[2:0]` as a number (R42). -/
theorem State.resPattern_eq (s : State) : s.resPattern = s.resmask.toNat % 8 := by
  rw [State.resPattern, BitVec.extractLsb'_toNat, Nat.shiftRight_zero]

theorem mapplyRule_badStage {k : Nat} {s : State} (h : s.stage ≠ .placed) :
    mapplyRule k s = raise .badStage := by
  rw [mapplyRule, State.atStage_of_ne h, Act.raise_bind]

theorem mapplyRule_badConfig {k : Nat} {s : State} (h : s.stage = .placed) (hk : k > 7) :
    mapplyRule k s = raise .badConfig := by
  rw [mapplyRule, State.atStage_of_eq h, Act.ok_bind, raiseIf_pos hk, Act.raise_bind]

theorem mapplyRule_of_pattern {k : Nat} {s : State} {m : Mat} (h : s.stage = .placed) (hk : k ≤ 7)
    (hm : s.mat = some m) : mapplyRule k s = .ok { s with mat := some (applymask m k) } := by
  rw [mapplyRule, State.atStage_of_eq h, Act.ok_bind, raiseIf_neg (not_lt.mpr hk), Act.ok_bind,
    State.readMat_eq_ok.mpr hm, Act.ok_bind, State.setMat]

theorem mmaskRule_badStage {s : State} (h : s.stage ≠ .placed) : mmaskRule s = raise .badStage := by
  rw [mmaskRule, State.atStage_of_ne h, Act.raise_bind]

theorem mmaskRule_of_mat {s : State} {m : Mat} (h : s.stage = .placed) (hm : s.mat = some m) :
    mmaskRule s = .ok { s with
      mat := some (applymask m (maskChoice s m))
      resmask := BitVec.ofNat 4 (8 ||| maskChoice s m)
      score := BitVec.ofNat 31 (penalty (applymask m (maskChoice s m)))
      stage := .masked } := by
  rw [mmaskRule, State.atStage_of_eq h, Act.ok_bind, State.readMat_eq_ok.mpr hm, Act.ok_bind]

theorem mmetaRule_badStage {s : State} (h : s.stage ≠ .masked) : mmetaRule s = raise .badStage := by
  rw [mmetaRule, State.atStage_of_ne h, Act.raise_bind]

theorem mmetaRule_of_mat {s : State} {m : Mat} (h : s.stage = .masked) (hm : s.mat = some m) :
    mmetaRule s =
      .ok { s with mat := some (writemeta m s.ecl (s.resmask.toNat % 8)), stage := .done } := by
  rw [mmetaRule, State.atStage_of_eq h, Act.ok_bind, State.readMat_eq_ok.mpr hm, Act.ok_bind,
    State.resPattern_eq, State.setMat, State.setStage]

/-- Settles O58: `STAGE`, and for `MAPPLY` the pattern, decide each command; with the matrix present the rule
gives its whole update. -/
theorem mapplyMmaskMmetaResults : Obligations.MapplyMmaskMmetaResults := by
  constructor
  · intro k s
    refine ⟨(decode_mapply (opField_packR ..)).trans (fmtImm_packR ..), decode_mmask,
      fun h => ⟨raises_of_ruleOf (mapplyRule_badStage h), raises_of_ruleOf (mmaskRule_badStage h)⟩,
      fun h hk => raises_of_ruleOf (mapplyRule_badConfig h hk),
      fun m h hm => ⟨fun hk => exec_of_ruleOf (mapplyRule_of_pattern h hk hm), ?_⟩⟩
    exact exec_of_ruleOf (mmaskRule_of_mat h hm)
  · intro s
    exact ⟨decode_mmeta, fun h => raises_of_ruleOf (mmetaRule_badStage h),
      fun m h hm => exec_of_ruleOf (mmetaRule_of_mat h hm)⟩

end Sys2Proof.Machine
end

section
/-! `MRD` and `MSCORE`: their rules on each outcome of their checks, the stages at which a cell can be unset,
and the obligation O60 (R193, R243). -/

namespace Sys2Proof.Machine

theorem decode_mrd {w : Word} (h : opField w = 0x42) : decode w = fmtXXX .mrd w := by
  rw [decode, h]; rfl
theorem decode_mscore {w : Word} (h : opField w = 0x4A) : decode w = fmtXI .mscore w := by
  rw [decode, h]; rfl

theorem State.fromStage_of_le {s : State} {g : Stage} (h : g.code ≤ s.stage.code) :
    s.fromStage g = .ok () :=
  State.fromStage_eq_ok.mpr h

theorem State.fromStage_of_lt {s : State} {g : Stage} (h : s.stage.code < g.code) :
    s.fromStage g = raise .badStage :=
  raiseIf_pos h

/-! ### `MRD` -/

/-- The two fields of a cell's code share no bit (R243). -/
theorem Cell.code_eq_or (e : Cell) : e.code = e.val.code ||| ((if e.fn then 1 else 0) <<< 2) := by
  obtain ⟨val, fn⟩ := e
  cases val <;> cases fn <;> rfl

theorem Cell.code_mem (e : Cell) : e.code ∈ [0, 1, 2, 4, 5, 6] := by
  obtain ⟨val, fn⟩ := e
  cases val <;> cases fn <;> decide

theorem Cell.code_eq_two_iff {e : Cell} : e.code = 2 ↔ e.fn = false ∧ e.val = .unset := by
  obtain ⟨val, fn⟩ := e
  cases val <;> cases fn <;> decide

theorem Cell.code_eq_six_iff {e : Cell} : e.code = 6 ↔ e.fn = true ∧ e.val = .unset := by
  obtain ⟨val, fn⟩ := e
  cases val <;> cases fn <;> decide

theorem mrdRule_unwritten {rd ra rb : XReg} {s : State} (h : s.x[ra] = none ∨ s.x[rb] = none) :
    mrdRule rd ra rb s = raise .unwritten := by
  rw [mrdRule, State.readXX_unwritten h, Act.raise_bind]

section
variable {rd ra rb : XReg} {s : State} {r c : Word} (hr : s.x[ra] = some r) (hc : s.x[rb] = some c)
include hr hc

theorem mrdRule_badStage (h : s.stage.code < Stage.layout.code) : mrdRule rd ra rb s = raise .badStage := by
  rw [mrdRule, State.readXX_some hr hc, Act.ok_bind]
  exact congrArg (· >>= _) (State.fromStage_of_lt h)

/-- `MRD` of a matrix that is present checks the coordinates and reads the cell. -/
theorem mrdRule_of_mat {m : Mat} (h : Stage.layout.code ≤ s.stage.code) (hm : s.mat = some m) :
    mrdRule rd ra rb s =
      (raiseIf (r.toInt < 0 ∨ r.toInt ≥ (m.side : Int) ∨ c.toInt < 0 ∨ c.toInt ≥ (m.side : Int)) .range >>=
        fun _ => .ok (s.setX rd (m.cell r.toInt.toNat c.toInt.toNat).code)) := by
  rw [mrdRule, State.readXX_some hr hc, Act.ok_bind]
  dsimp only
  rw [State.fromStage_of_le h, Act.ok_bind, State.readMat_eq_ok.mpr hm, Act.ok_bind]

end

/-! ### Unset cells (R45, R226) -/

theorem or_ne_some {α : Type} {o o' : Option α} {a : α} (h : o ≠ some a) (h' : o' ≠ some a) :
    o.or o' ≠ some a := fun e =>
  (Option.or_eq_some_iff.mp e).elim h fun e => h' e.2

theorem ite_none_ne_some {α : Type} {o : Option α} {a : α} {p : Prop} [Decidable p] (h : o ≠ some a) :
    (if p then o else none) ≠ some a := fun e =>
  h (Option.ite_none_right_eq_some.mp e).2

theorem some_dark_light_ne_unset {p : Prop} [Decidable p] :
    some (if p then CellVal.dark else .light) ≠ some .unset := by
  split <;> decide

theorem finderAt_ne_unset (r0 c0 r c : Nat) : finderAt r0 c0 r c ≠ some .unset :=
  ite_none_ne_some some_dark_light_ne_unset

theorem finderCell_ne_unset (n r c : Nat) : finderCell n r c ≠ some .unset :=
  or_ne_some (finderAt_ne_unset 0 0 r c)
    (or_ne_some (finderAt_ne_unset (n - 7) 0 r c) (finderAt_ne_unset 0 (n - 7) r c))

theorem timingCell_ne_unset (n r c : Nat) : timingCell n r c ≠ some .unset :=
  or_ne_some (ite_none_ne_some (ite_none_ne_some some_dark_light_ne_unset))
    (ite_none_ne_some (ite_none_ne_some some_dark_light_ne_unset))

theorem alignAt_ne_unset (r0 c0 r c : Nat) : alignAt r0 c0 r c ≠ some .unset :=
  ite_none_ne_some some_dark_light_ne_unset

theorem alignCell_ne_unset (v r c : Nat) : alignCell v r c ≠ some .unset := by
  intro h
  obtain ⟨r0, -, h⟩ := List.exists_of_findSome?_eq_some h
  obtain ⟨c0, -, h⟩ := List.exists_of_findSome?_eq_some h
  split at h
  · cases h
  · exact alignAt_ne_unset r0 c0 r c h

/-- No pattern leaves a cell it draws unset (R228 to R230). -/
theorem patternVal_ne_unset (v r c : Nat) : patternVal v r c ≠ some .unset :=
  or_ne_some (alignCell_ne_unset v r c)
    (or_ne_some (timingCell_ne_unset _ r c) (finderCell_ne_unset _ r c))

/-- An unset data cell occurs before `MPLACE` alone (R239). -/
theorem Mat.cellsOk.stage_of_unset_data {g : Stage} {m : Mat} {r c : Nat} (h : m.cellsOk g) (hr : r < m.side)
    (hc : c < m.side) (hfn : (m.cell r c).fn = false) (hval : (m.cell r c).val = .unset) : g = .layout := by
  obtain ⟨-, -, -, hdata⟩ := h r c hr hc
  exact (hdata hfn).mp hval

/-- An unset function cell is one that no pattern draws, and occurs before `MMETA` alone (R226). -/
theorem Mat.cellsOk.stage_of_unset_fn {g : Stage} {m : Mat} {r c : Nat} (h : m.cellsOk g) (hr : r < m.side)
    (hc : c < m.side) (hfn : (m.cell r c).fn = true) (hval : (m.cell r c).val = .unset) : g ≠ .done := by
  obtain ⟨-, hdrawn, hreserved, -⟩ := h r c hr hc
  have hnone : patternVal m.v r c = none := by
    rw [Option.eq_none_iff_forall_ne_some]
    intro x hx
    rw [← hdrawn x hx, hval] at hx
    exact patternVal_ne_unset m.v r c hx
  exact (hreserved hnone hfn).mp hval

theorem Stage.code_le_five_iff {g : Stage} : g.code ≤ 5 ↔ g ≠ .done := by
  cases g <;> decide

theorem MatOk.stage_and_cells {s : State} {m : Mat} (h : MatOk s) (hm : s.mat = some m) :
    3 ≤ s.stage.code ∧ m.cellsOk s.stage := by
  rw [MatOk, hm] at h
  obtain ⟨hstage, -, hcells⟩ := h
  exact ⟨hstage, hcells⟩

/-! ### `MSCORE` -/

/-- The selector picks the penalty or one of its four parts (R193). -/
theorem scoreBy_of_getElem? {m : Mat} {sel v : Nat}
    (h : [penalty m, penA (scoreGrid m), penB (scoreGrid m), penC (scoreGrid m), penD (scoreGrid m)][sel]? =
      some v) : sel ≤ 4 ∧ scoreBy sel m = v := by
  have hsel : sel < 5 := (List.getElem?_eq_some_iff.mp h).1
  interval_cases sel <;> exact ⟨by decide, Option.some.inj h⟩

theorem mscoreRule_badStage {rd : XReg} {sel : Nat} {s : State} (h : s.stage.code < Stage.placed.code) :
    mscoreRule rd sel s = raise .badStage := by
  rw [mscoreRule, State.fromStage_of_lt h, Act.raise_bind]

theorem mscoreRule_badConfig {rd : XReg} {sel : Nat} {s : State} (h : Stage.placed.code ≤ s.stage.code)
    (hsel : sel > 4) : mscoreRule rd sel s = raise .badConfig := by
  rw [mscoreRule, State.fromStage_of_le h, Act.ok_bind, raiseIf_pos hsel, Act.raise_bind]

theorem mscoreRule_of_mat {rd : XReg} {sel : Nat} {s : State} {m : Mat}
    (h : Stage.placed.code ≤ s.stage.code) (hsel : sel ≤ 4) (hm : s.mat = some m) :
    mscoreRule rd sel s = .ok { s with x := s.x.set rd (some (BitVec.ofNat 32 (scoreBy sel m))) } := by
  rw [mscoreRule, State.fromStage_of_le h, Act.ok_bind, raiseIf_neg (not_lt.mpr hsel), Act.ok_bind,
    State.readMat_eq_ok.mpr hm, Act.ok_bind, State.setX_natCast]

/-- Settles O60: each check of the two commands in its order; a code 2 or 6 is an unset cell, which the
invariant ties to its stages. -/
theorem mrdMscoreResults : Obligations.MrdMscoreResults := by
  refine ⟨fun rd ra rb s => ?_, fun s m r c hok hm hr hc => ?_, fun rd sel s => ?_⟩
  · refine ⟨(decode_mrd (opField_packR ..)).trans (fmtXXX_packR ..),
      fun h => raises_of_ruleOf (mrdRule_unwritten h), fun r c hr hc =>
        ⟨fun h => raises_of_ruleOf (mrdRule_badStage hr hc h), fun m h hm =>
          ⟨fun hbad => raises_of_ruleOf ?_, fun hr0 hrn hc0 hcn => exec_of_ruleOf ?_⟩⟩⟩
    · show mrdRule rd ra rb s = _
      rw [mrdRule_of_mat hr hc h hm, raiseIf_pos hbad, Act.raise_bind]
    · show mrdRule rd ra rb s = _
      rw [mrdRule_of_mat hr hc h hm, raiseIf_neg (by omega), Act.ok_bind, toNat_toInt_of_nonneg hr0,
        toNat_toInt_of_nonneg hc0, State.setX_natCast, Cell.code_eq_or]
  · obtain ⟨hstage, hcells⟩ := hok.stage_and_cells hm
    rw [← Cell.code_eq_or]
    refine ⟨Cell.code_mem _, fun h2 => ?_, fun h6 => ⟨hstage, ?_⟩⟩
    · obtain ⟨hfn, hval⟩ := Cell.code_eq_two_iff.mp h2
      rw [hcells.stage_of_unset_data hr hc hfn hval]
      rfl
    · obtain ⟨hfn, hval⟩ := Cell.code_eq_six_iff.mp h6
      exact Stage.code_le_five_iff.mpr (hcells.stage_of_unset_fn hr hc hfn hval)
  · refine ⟨(decode_mscore (opField_packR ..)).trans (fmtXI_packR ..),
      fun h => raises_of_ruleOf (mscoreRule_badStage h),
      fun h hsel => raises_of_ruleOf (mscoreRule_badConfig h hsel), fun m v h hm hv => ?_⟩
    obtain ⟨hsel, rfl⟩ := scoreBy_of_getElem? hv
    exact exec_of_ruleOf (mscoreRule_of_mat h hsel hm)

end Sys2Proof.Machine
end

section
/-! The generator polynomial, the EC codewords of one block, `PGEN` and the obligation O53 (R205, R207, R212). -/

namespace Sys2Proof.Machine

/-! ### The generator polynomial (R205) -/

/-- `genpoly(n)` has the leading coefficient 1 and `n` more: no product by `[1, gexp(i)]` is trimmed. -/
theorem exists_genpoly_eq_cons (n : Nat) : ∃ t : List Byte, genpoly n = 1 :: t ∧ t.length = n := by
  have hone : (1 : Byte) ≠ 0 := by decide
  induction n with
  | zero => exact ⟨[], rfl, rfl⟩
  | succ n ih =>
    obtain ⟨t, ht, hlen⟩ := ih
    have hmul : genpoly (n + 1) = convolve (1 :: t) [1, gexp n] := by
      rw [genpoly, ht, pmul, trim_of_trimmed]
      exact trimmed_convolve (trimmed_cons t hone) (trimmed_cons _ hone)
        (fun h => hone (List.cons.inj h).1) fun h => hone (List.cons.inj h).1
    have hlead : gfadd (gfmul 1 1) 0 = 1 := by decide
    obtain ⟨u, hu⟩ : ∃ u, convolve (1 :: t) [1, gexp n] = gfadd (gfmul 1 1) 0 :: u := ⟨_, rfl⟩
    have hlenu := length_convolve_cons 1 t [1, gexp n]
    rw [hu, List.length_cons, List.length_cons, List.length_singleton] at hlenu
    exact ⟨u, by rw [hmul, hu, hlead], by omega⟩

theorem length_genpoly (n : Nat) : (genpoly n).length = n + 1 := by
  obtain ⟨t, ht, hlen⟩ := exists_genpoly_eq_cons n
  rw [ht, List.length_cons, hlen]

theorem trimmed_genpoly (n : Nat) : trimmed (genpoly n) = true := by
  obtain ⟨t, ht, -⟩ := exists_genpoly_eq_cons n
  rw [ht]
  exact trimmed_cons t (by decide)

theorem genpoly_ne_zero (n : Nat) : genpoly n ≠ [0] := by
  obtain ⟨t, ht, -⟩ := exists_genpoly_eq_cons n
  rw [ht]
  exact fun h => absurd (List.cons.inj h).1 (by decide)

/-! ### The EC codewords of one block (R207) -/

theorem trimmed_pshift (a : Poly) {n : Nat} (hn : 1 ≤ n) : trimmed (pshift a n) = true :=
  trimmed_trim (List.append_ne_nil_of_right_ne_nil _ (List.ne_nil_of_length_pos (by rwa [length_zeros])))

/-- `rsec(data, n)` never fails and has `n` bytes: the divisor `genpoly(n)` is not zero and has degree `n`. -/
theorem exists_rsec_eq_ok (data : List Byte) {n : Nat} (hn : 1 ≤ n) :
    ∃ e, rsec data n = .ok e ∧ e.length = n := by
  obtain ⟨q, r, hr, hdiv⟩ :=
    pmod_division (trimmed_pshift (trim data) hn) (trimmed_genpoly n) (genpoly_ne_zero n)
  have hle : r.length ≤ n := by
    rcases hdiv.remainder_small with rfl | hlt
    · exact hn
    · rw [length_genpoly] at hlt
      exact Nat.le_of_lt_succ hlt
  exact ⟨padleft r n, by rw [rsec, hr, Act.ok_bind], length_padleft hle⟩

/-! ### `PGEN` (R212) -/

theorem fmtPX_packR (mk : PReg → XReg → Instr) (op : BitVec 8) (rd : PReg) (ra : XReg) :
    fmtPX mk (packR op (pBits rd) (xBits ra) 0 0) = .ok (mk rd ra) := by
  simp only [fmtPX, pRd, xRa, noRb, noImm, rdField_packR, raField_packR, rbField_packR,
    imm12Field_packR, pField_pBits, xField_xBits, noField_zero]
  rfl

theorem decode_pgen {w : Word} (h : opField w = 0x27) : decode w = fmtPX .pgen w := by
  rw [decode, h]; rfl

theorem pgenRule_unwritten {rd : PReg} {ra : XReg} {s : State} (h : s.x[ra] = none) :
    pgenRule rd ra s = raise .unwritten := by
  rw [pgenRule, State.readX_none h, Act.raise_bind]

/-- `PGEN` with its register written checks the degree and writes the generator polynomial. -/
theorem pgenRule_of_operand {rd : PReg} {ra : XReg} {s : State} {n : Word} (hn : s.x[ra] = some n) :
    pgenRule rd ra s =
      (raiseIf (n.toInt < 0 ∨ n.toInt > 255) .range >>= fun _ =>
        .ok (s.setP rd (genpoly n.toInt.toNat))) := by
  rw [pgenRule, State.readX_some hn, Act.ok_bind]

/-- Settles O53: after the read the range of the degree decides the command. -/
theorem pgenResult : Obligations.PgenResult := by
  intro rd ra s
  refine ⟨(decode_pgen (opField_packR ..)).trans (fmtPX_packR ..),
    fun h => raises_of_ruleOf (pgenRule_unwritten h),
    fun n hn => ⟨fun hbad => raises_of_ruleOf ?_, fun h0 h255 => ⟨length_genpoly _, exec_of_ruleOf ?_⟩⟩⟩
  · show pgenRule rd ra s = _
    rw [pgenRule_of_operand hn, raiseIf_pos hbad, Act.raise_bind]
  · show pgenRule rd ra s = _
    rw [pgenRule_of_operand hn, raiseIf_neg (by omega), Act.ok_bind, toNat_toInt_of_nonneg h0, State.setP]

end Sys2Proof.Machine
end

section
/-! The block list: its descriptors, its checks, and the obligation O28 (R208, R209). -/

namespace Sys2Proof.Machine

/-! ### Accesses to `M` at an address register (R62, R63) -/

section
variable {s : State} {a n : Nat}

theorem not_outsideM_natCast (h : a + n ≤ 8192) : ¬outsideM (a : Int) n := by
  rw [outsideM_iff]; omega

theorem State.memRead_natCast_outside (h : a + n > 8192) : s.memRead a n = raise .addrRange :=
  State.memRead_outside (outsideM_iff.mpr (by omega))

theorem State.memRead_natCast_unwritten (h : a + n ≤ 8192) (hbytes : Memory.bytes s.mem a n = none) :
    s.memRead a n = raise .unwritten :=
  State.memRead_unwritten (not_outsideM_natCast h) hbytes

theorem State.memRead_natCast_eq_ok {bs : List Byte} (h : a + n ≤ 8192)
    (hbytes : Memory.bytes s.mem a n = some bs) : s.memRead a n = .ok bs :=
  State.memRead_eq_ok.mpr ⟨not_outsideM_natCast h, hbytes⟩

theorem State.memWrite_natCast_eq_ok {bs : List Byte} (h : a + bs.length ≤ 8192) :
    s.memWrite a bs = .ok { s with mem := Memory.putBytes s.mem a bs } :=
  State.memWrite_eq_ok.mpr ⟨not_outsideM_natCast h, rfl⟩

end

/-- `MemRead` gives as many bytes as were asked for. -/
theorem State.length_of_memRead_eq_ok {s : State} {a : Int} {n : Nat} {bs : List Byte}
    (h : s.memRead a n = .ok bs) : bs.length = n := by
  obtain ⟨-, hbytes⟩ := State.memRead_eq_ok.mp h
  obtain ⟨hlen, -⟩ := Memory.bytes_eq_some.mp hbytes
  exact hlen

/-! ### The descriptors (R208) -/

/-- The block whose descriptor stands at index `b` of the bytes `raw` (R208). -/
def blockAt (raw : List Byte) (b : Nat) : Block :=
  ⟨(raw.getD (2 * b) 0).toNat, (raw.getD (2 * b + 1) 0).toNat⟩

/-- `2 * n` bytes hold the descriptors of the blocks 0 to `n - 1`. -/
theorem parseBlocks_eq_map_blockAt {n : Nat} {raw : List Byte} (h : raw.length = 2 * n) :
    parseBlocks raw = (List.range n).map (blockAt raw) := by
  induction n generalizing raw with
  | zero =>
    rw [List.length_eq_zero_iff.mp h]
    rfl
  | succ n ih =>
    obtain ⟨t, raw, rfl⟩ := List.exists_cons_of_length_eq_add_one h
    obtain ⟨d, raw, rfl⟩ := List.exists_cons_of_length_eq_add_one (Nat.succ.inj h)
    rw [parseBlocks, ih (Nat.succ.inj (Nat.succ.inj h)), List.range_succ_eq_map, List.map_cons, List.map_map]
    rfl

/-! ### The checks (R209) -/

theorem Block.bad_iff {b : Block} : b.bad = true ↔ b.data < 1 ∨ b.data ≥ b.total := decide_eq_true_iff

/-- Two checks in sequence that raise the same sub-cause are one check. -/
theorem raiseIf_raiseIf {α : Type} (p q : Prop) [Decidable p] [Decidable q] (c : SubCause) (m : Act α) :
    (raiseIf p c >>= fun _ => raiseIf q c >>= fun _ => m) = if p ∨ q then raise c else m := by
  by_cases hp : p
  · rw [raiseIf_pos hp, Act.raise_bind, if_pos (.inl hp)]
  · rw [raiseIf_neg hp, Act.ok_bind]
    by_cases hq : q
    · rw [raiseIf_pos hq, Act.raise_bind, if_pos (.inr hq)]
    · rw [raiseIf_neg hq, Act.ok_bind, if_neg (not_or.mpr ⟨hp, hq⟩)]

theorem State.blocks_of_nblk_eq_zero {s : State} (h : s.nblk = 0) : s.blocks = raise .badBlocks := by
  rw [State.blocks, h, raiseIf_pos (by decide), Act.raise_bind]

/-- With a block to read, `blocks()` reads the descriptors and checks them. -/
theorem State.blocks_of_nblk_ne_zero {s : State} (h : s.nblk ≠ 0) :
    s.blocks = (s.memRead s.baddr.toNat (2 * s.nblk.toNat) >>= fun raw =>
      if (parseBlocks raw).any Block.bad = true ∨ dataTotal (parseBlocks raw) ≠ s.dlen.toNat then
        raise .badBlocks
      else .ok (parseBlocks raw)) := by
  have hpos : s.nblk.toNat ≠ 0 := fun h0 => h (BitVec.eq_of_toNat_eq h0)
  rw [State.blocks, raiseIf_neg (by omega), Act.ok_bind]
  simp only [raiseIf_raiseIf]

theorem State.blocks_of_memRead_raise {s : State} {c : SubCause} (h : s.nblk ≠ 0)
    (hread : s.memRead s.baddr.toNat (2 * s.nblk.toNat) = raise c) : s.blocks = raise c := by
  rw [State.blocks_of_nblk_ne_zero h, hread, Act.raise_bind]

/-- Settles O28: `NBLK` and then `MemRead` of the descriptors decide, and then the two checks of the list, which
raise alike. -/
theorem blocksValidated : Obligations.BlocksValidated := by
  intro s
  refine ⟨State.blocks_of_nblk_eq_zero,
    fun h hout => State.blocks_of_memRead_raise h (State.memRead_natCast_outside hout),
    fun h hin => ⟨fun hnone => State.blocks_of_memRead_raise h (State.memRead_natCast_unwritten hin hnone),
      fun raw hraw => ?_⟩⟩
  obtain ⟨hlen, -⟩ := Memory.bytes_eq_some.mp hraw
  rw [State.blocks_of_nblk_ne_zero h, State.memRead_natCast_eq_ok hin hraw, Act.ok_bind,
    parseBlocks_eq_map_blockAt hlen]
  simp only [List.any_eq_true, Block.bad_iff]
  rfl

/-- What a validated block list satisfies: every block has an EC codeword, and the data counts add up to `DLEN`
(R209). -/
theorem State.blocks_eq_ok {s : State} {bl : List Block} (h : s.blocks = .ok bl) :
    (∀ b ∈ bl, 1 ≤ b.ec) ∧ dataTotal bl = s.dlen.toNat := by
  by_cases h0 : s.nblk = 0
  · exact absurd ((State.blocks_of_nblk_eq_zero h0).symm.trans h) raise_ne_ok
  · rw [State.blocks_of_nblk_ne_zero h0] at h
    obtain ⟨raw, -, h⟩ := Act.bind_eq_ok.mp h
    split at h
    · exact absurd h raise_ne_ok
    · next hgood =>
      cases h
      obtain ⟨hany, hsum⟩ := not_or.mp hgood
      refine ⟨fun b hb => ?_, not_not.mp hsum⟩
      have hb : ¬(b.data < 1 ∨ b.data ≥ b.total) :=
        fun hbad => hany (List.any_eq_true.mpr ⟨b, hb, Block.bad_iff.mpr hbad⟩)
      rw [Block.ec]
      omega

end Sys2Proof.Machine
end

section
/-! The interleaver: the passes over the sequences, the place of every element, and the obligation O29 (R211). -/

namespace Sys2Proof.Machine

/-- The elements of index `i`, of every sequence that has one (R211). -/
def pass (ls : List (List Byte)) (i : Nat) : List Byte := ls.filterMap fun l => l[i]?

/-- The first `n` passes of the round robin. -/
def passes (ls : List (List Byte)) (n : Nat) : List Byte := (List.range n).flatMap (pass ls)

theorem roundRobin_eq_passes (ls : List (List Byte)) : roundRobin ls = passes ls (maxLen ls) := rfl

theorem length_le_maxLen {ls : List (List Byte)} {l : List Byte} (h : l ∈ ls) : l.length ≤ maxLen ls := by
  rw [maxLen, List.foldl_eq_foldr]
  exact List.le_max_of_le' 0 (List.mem_map_of_mem h) le_rfl

/-! ### Lengths -/

/-- A pass has an element for every sequence longer than its index. -/
theorem length_pass (ls : List (List Byte)) (i : Nat) :
    (pass ls i).length = ls.countP fun l => decide (i < l.length) := by
  rw [pass, List.length_filterMap_eq_countP]
  exact List.countP_congr fun l _ => by rw [isSome_getElem?, decide_eq_true_iff]

theorem passes_succ (ls : List (List Byte)) (n : Nat) : passes ls (n + 1) = passes ls n ++ pass ls n := by
  rw [passes, List.range_succ, List.flatMap_append, List.flatMap_singleton]
  rfl

/-- The bound on the index rises by one for exactly the sequences longer than it. -/
theorem sum_min_length_succ (ls : List (List Byte)) (n : Nat) :
    (ls.map fun l => min l.length (n + 1)).sum =
      (ls.map fun l => min l.length n).sum + ls.countP fun l => decide (n < l.length) := by
  induction ls with
  | nil => rfl
  | cons l ls ih =>
    have hmin : min l.length (n + 1) = min l.length n + if n < l.length then 1 else 0 := by
      split <;> omega
    rw [List.map_cons, List.sum_cons, ih, List.map_cons, List.sum_cons, List.countP_cons, hmin]
    simp only [decide_eq_true_eq]
    omega

/-- The first `n` passes take from every sequence its elements below index `n`. -/
theorem length_passes (ls : List (List Byte)) (n : Nat) :
    (passes ls n).length = (ls.map fun l => min l.length n).sum := by
  induction n with
  | zero => simp [passes]
  | succ n ih => rw [passes_succ, List.length_append, ih, length_pass, sum_min_length_succ]

theorem length_roundRobin (ls : List (List Byte)) : (roundRobin ls).length = (ls.map List.length).sum := by
  rw [roundRobin_eq_passes, length_passes]
  exact congrArg List.sum (List.map_congr_left fun l hl => min_eq_left (length_le_maxLen hl))

theorem length_interleave (datas ecs : List (List Byte)) :
    (interleave datas ecs).length = (datas.map List.length).sum + (ecs.map List.length).sum := by
  rw [interleave, List.length_append, length_roundRobin, length_roundRobin]

/-! ### Places -/

/-- In a pass the element of sequence `b` stands after those of the earlier sequences that have one. -/
theorem getElem?_pass {ls : List (List Byte)} {b i : Nat} {l : List Byte} {x : Byte} (hl : ls[b]? = some l)
    (hx : l[i]? = some x) :
    (pass ls i)[(ls.take b).countP fun l => decide (i < l.length)]? = some x := by
  obtain ⟨hb, rfl⟩ := List.getElem?_eq_some_iff.mp hl
  have hsplit : pass ls i = pass (ls.take b) i ++ pass (ls.drop b) i := by
    rw [pass, pass, pass, ← List.filterMap_append, List.take_append_drop]
  have hfirst : pass (ls.drop b) i = x :: pass (ls.drop (b + 1)) i := by
    rw [List.drop_eq_getElem_cons hb]
    exact List.filterMap_cons_some hx
  rw [hsplit, hfirst, ← length_pass, List.getElem?_append_right le_rfl, Nat.sub_self, List.getElem?_cons_zero]

/-- Later passes only append. -/
theorem passes_prefix {ls : List (List Byte)} {n m : Nat} (h : n ≤ m) : passes ls n <+: passes ls m := by
  induction m, h using Nat.le_induction with
  | base => exact List.prefix_rfl
  | succ m _ ih => exact ih.trans (passes_succ ls m ▸ List.prefix_append ..)

/-- In the round robin the element `i` of sequence `b` stands after the elements below index `i` of every
sequence and the elements `i` of the earlier sequences. -/
theorem getElem?_roundRobin {ls : List (List Byte)} {b i : Nat} {l : List Byte} {x : Byte}
    (hl : ls[b]? = some l) (hx : l[i]? = some x) :
    (roundRobin ls)[(ls.map fun l => min l.length i).sum +
      (ls.take b).countP fun l => decide (i < l.length)]? = some x := by
  obtain ⟨hi, -⟩ := List.getElem?_eq_some_iff.mp hx
  have hmax : i + 1 ≤ maxLen ls := hi.trans_le (length_le_maxLen (List.mem_of_getElem? hl))
  obtain ⟨later, hlater⟩ := passes_prefix (ls := ls) hmax
  have hpass := getElem?_pass hl hx
  obtain ⟨hlt, -⟩ := List.getElem?_eq_some_iff.mp hpass
  rw [roundRobin_eq_passes, ← hlater, passes_succ, ← length_passes, List.append_assoc,
    List.getElem?_append_right (Nat.le_add_right ..), Nat.add_sub_cancel_left, List.getElem?_append_left hlt,
    hpass]

/-- Settles O29: the stream is two round robins, one after the other, and in each the passes come in the order of
their index. -/
theorem interleaveOrder : Obligations.InterleaveOrder := by
  intro datas ecs
  refine ⟨length_interleave datas ecs, fun b i l x hl hx => ?_, fun b i l x hl hx => ?_⟩
  · have hplace := getElem?_roundRobin hl hx
    obtain ⟨hlt, -⟩ := List.getElem?_eq_some_iff.mp hplace
    rw [interleave, List.getElem?_append_left hlt, hplace]
  · rw [interleave, ← length_roundRobin datas, List.getElem?_append_right (Nat.le_add_right ..),
      Nat.add_sub_cancel_left, getElem?_roundRobin hl hx]

end Sys2Proof.Machine
end

section
/-! `RSGEN` and `ILV`: the slices of the blocks, the rules on each outcome of their checks, and the obligations
O54 and O55 (R210, R213, R214). -/

namespace Sys2Proof.Machine

/-! ### The slices of the blocks (R210) -/

@[simp] theorem length_cut (ns : List Nat) (seq : List Byte) : (cut ns seq).length = ns.length := by
  induction ns generalizing seq with
  | nil => rfl
  | cons n ns ih => exact congrArg (· + 1) (ih (seq.drop n))

/-- Piece `b` starts where the pieces before it end. -/
theorem getElem?_cut {ns : List Nat} {b n : Nat} (seq : List Byte) (h : ns[b]? = some n) :
    (cut ns seq)[b]? = some ((seq.drop (ns.take b).sum).take n) := by
  induction ns generalizing b seq with
  | nil => cases h
  | cons k ns ih =>
    cases b with
    | zero => cases h; rfl
    | succ b =>
      rw [cut, List.getElem?_cons_succ, ih (seq.drop k) h, List.drop_drop, List.take_succ_cons, List.sum_cons]

/-- A sequence long enough is cut into pieces of exactly the lengths asked for. -/
theorem map_length_cut {ns : List Nat} {seq : List Byte} (h : ns.sum ≤ seq.length) :
    (cut ns seq).map List.length = ns := by
  induction ns generalizing seq with
  | nil => rfl
  | cons n ns ih =>
    rw [List.sum_cons] at h
    rw [cut, List.map_cons, List.length_take, ih (by rw [List.length_drop]; omega), min_eq_left (by omega)]

theorem getElem?_cut_data {bl : List Block} {b : Nat} {x : Block} (d : List Byte) (h : bl[b]? = some x) :
    (cut (bl.map Block.data) d)[b]? = some ((d.drop (dataTotal (bl.take b))).take x.data) := by
  rw [getElem?_cut d (by rw [List.getElem?_map, h]; rfl), dataTotal, List.map_take]

theorem getElem?_cut_ec {bl : List Block} {b : Nat} {x : Block} (c : List Byte) (h : bl[b]? = some x) :
    (cut (bl.map Block.ec) c)[b]? = some ((c.drop (ecTotal (bl.take b))).take x.ec) := by
  rw [getElem?_cut c (by rw [List.getElem?_map, h]; rfl), ecTotal, List.map_take]

/-- The stream of the slices of all data and EC codewords has their number of bytes. -/
theorem length_interleave_cut {bl : List Block} {d c : List Byte} (hd : d.length = dataTotal bl)
    (hc : c.length = ecTotal bl) :
    (interleave (cut (bl.map Block.data) d) (cut (bl.map Block.ec) c)).length = dataTotal bl + ecTotal bl := by
  rw [length_interleave, map_length_cut hd.ge, map_length_cut hc.ge, dataTotal, ecTotal]

/-! ### The EC codewords of all blocks (R210) -/

/-- The sequences `ecs` are the EC codewords of the blocks `bl` of the data `d`, a sequence for each block. -/
def AreEcs (bl : List Block) (d : List Byte) (ecs : List (List Byte)) : Prop :=
  ecs.length = bl.length ∧ ∀ (b : Nat) (x : Block), bl[b]? = some x →
    ∃ e, ecs[b]? = some e ∧ e.length = x.ec ∧
      rsec ((d.drop (dataTotal (bl.take b))).take x.data) x.ec = .ok e

theorem AreEcs.nil (d : List Byte) : AreEcs [] d [] := ⟨rfl, fun _ _ h => by cases h⟩

theorem AreEcs.cons {x : Block} {bl : List Block} {d e : List Byte} {ecs : List (List Byte)}
    (he : rsec (d.take x.data) x.ec = .ok e) (hlen : e.length = x.ec) (h : AreEcs bl (d.drop x.data) ecs) :
    AreEcs (x :: bl) d (e :: ecs) := by
  obtain ⟨hecs, hslice⟩ := h
  refine ⟨congrArg (· + 1) hecs, fun b y hy => ?_⟩
  cases b with
  | zero => cases hy; exact ⟨e, rfl, hlen, he⟩
  | succ b =>
    obtain ⟨e', he', hlen', hrsec⟩ := hslice b y hy
    rw [List.drop_drop] at hrsec
    exact ⟨e', he', hlen', hrsec⟩

theorem AreEcs.map_length {bl : List Block} {d : List Byte} {ecs : List (List Byte)} (h : AreEcs bl d ecs) :
    ecs.map List.length = bl.map Block.ec := by
  obtain ⟨hecs, hslice⟩ := h
  refine List.ext_getElem (by simpa using hecs) fun b _ hb => ?_
  rw [List.length_map] at hb
  obtain ⟨e, he, hlen, -⟩ := hslice b bl[b] (List.getElem?_eq_getElem hb)
  obtain ⟨hb', rfl⟩ := List.getElem?_eq_some_iff.mp he
  rw [List.getElem_map, List.getElem_map, hlen]

/-- Back to back the EC codewords of all blocks are as many bytes as the EC total. -/
theorem AreEcs.length_flatten {bl : List Block} {d : List Byte} {ecs : List (List Byte)}
    (h : AreEcs bl d ecs) : ecs.flatten.length = ecTotal bl := by
  rw [List.length_flatten, h.map_length, ecTotal]

/-- Where every block has an EC codeword, the codewords of all blocks are computed without a fault and follow
each other in block order. -/
theorem exists_rsecAll_eq_ok_flatten {bl : List Block} (hbl : ∀ b ∈ bl, 1 ≤ b.ec) (d : List Byte) :
    ∃ ecs, AreEcs bl d ecs ∧ rsecAll bl d = .ok ecs.flatten := by
  induction bl generalizing d with
  | nil => exact ⟨[], AreEcs.nil d, rfl⟩
  | cons x bl ih =>
    obtain ⟨hx, hbl⟩ := List.forall_mem_cons.mp hbl
    obtain ⟨e, he, hlen⟩ := exists_rsec_eq_ok (d.take x.data) hx
    obtain ⟨ecs, hecs, hrest⟩ := ih hbl (d.drop x.data)
    exact ⟨e :: ecs, hecs.cons he hlen, by
      rw [rsecAll, he, Act.ok_bind, hrest, Act.ok_bind, List.flatten_cons]⟩

/-! ### `RSGEN` (R213) -/

theorem decode_rsgen : decode 0x30000000 = .ok .rsgen := rfl

theorem rsgenRule_badStage {s : State} (h : s.stage ≠ .idle) : rsgenRule s = raise .badStage := by
  rw [rsgenRule, State.atStage_of_ne h, Act.raise_bind]

theorem rsgenRule_of_blocks_raise {s : State} {c : SubCause} (h : s.stage = .idle)
    (hbl : s.blocks = raise c) : rsgenRule s = raise c := by
  rw [rsgenRule, State.atStage_of_eq h, Act.ok_bind, hbl, Act.raise_bind]

section
variable {s : State} {bl : List Block} (h : s.stage = .idle) (hbl : s.blocks = .ok bl)
include h hbl

theorem rsgenRule_of_data_raise {c : SubCause} (hd : s.memRead s.daddr.toNat s.dlen.toNat = raise c) :
    rsgenRule s = raise c := by
  rw [rsgenRule, State.atStage_of_eq h, Act.ok_bind, hbl, Act.ok_bind, hd, Act.raise_bind]

/-- `RSGEN` with its data read checks the EC area, computes the EC codewords and stores them. -/
theorem rsgenRule_of_data {d : List Byte} (hd : s.memRead s.daddr.toNat s.dlen.toNat = .ok d) :
    rsgenRule s =
      (raiseIf (s.eaddr.toNat + ecTotal bl > Config.msize) .addrRange >>= fun _ =>
        rsecAll bl d >>= fun e => s.memWrite s.eaddr.toNat e >>= fun t =>
          .ok { t with elen := BitVec.ofNat 14 (ecTotal bl), stage := .ecDone }) := by
  rw [rsgenRule, State.atStage_of_eq h, Act.ok_bind, hbl, Act.ok_bind, hd, Act.ok_bind]

/-- `RSGEN` past its checks stores the EC codewords of all blocks, back to back. -/
theorem rsgenRule_of_ecs {d : List Byte} {ecs : List (List Byte)}
    (hd : s.memRead s.daddr.toNat s.dlen.toNat = .ok d) (hin : s.eaddr.toNat + ecTotal bl ≤ 8192)
    (hecs : AreEcs bl d ecs) (hall : rsecAll bl d = .ok ecs.flatten) :
    rsgenRule s = .ok { s with
      mem := Memory.putBytes s.mem s.eaddr.toNat ecs.flatten
      elen := BitVec.ofNat 14 (ecTotal bl)
      stage := .ecDone } := by
  rw [rsgenRule_of_data h hbl hd, raiseIf_neg (not_lt.mpr hin), Act.ok_bind, hall, Act.ok_bind,
    State.memWrite_natCast_eq_ok (by rwa [hecs.length_flatten]), Act.ok_bind]

end

/-- Settles O54: `STAGE`, `blocks()`, `MemRead` of the data and the place of the EC area decide in turn; the
validated blocks have EC codewords, so `rsec` of each slice succeeds. -/
theorem rsgenResult : Obligations.RsgenResult := by
  intro s
  refine ⟨decode_rsgen, fun h => raises_of_ruleOf (rsgenRule_badStage h), fun h =>
    ⟨fun c hbl => raises_of_ruleOf (rsgenRule_of_blocks_raise h hbl), fun bl hbl =>
    ⟨fun hout => raises_of_ruleOf (rsgenRule_of_data_raise h hbl (State.memRead_natCast_outside hout)),
    fun hdin => ⟨fun hnone => raises_of_ruleOf
      (rsgenRule_of_data_raise h hbl (State.memRead_natCast_unwritten hdin hnone)),
    fun d hd => ?_⟩⟩⟩⟩
  have hread := State.memRead_natCast_eq_ok hdin hd
  refine ⟨fun hout => raises_of_ruleOf ?_, fun hin => ?_⟩
  · show rsgenRule s = _
    rw [rsgenRule_of_data h hbl hread, raiseIf_pos hout, Act.raise_bind]
  · obtain ⟨hec, -⟩ := State.blocks_eq_ok hbl
    obtain ⟨ecs, hecs, hall⟩ := exists_rsecAll_eq_ok_flatten hec d
    exact ⟨ecs, hecs, exec_of_ruleOf (rsgenRule_of_ecs h hbl hread hin hecs hall)⟩

/-! ### `ILV` (R214) -/

theorem decode_ilv : decode 0x31000000 = .ok .ilv := rfl

theorem ilvRule_badStage {s : State} (h : s.stage ≠ .ecDone) : ilvRule s = raise .badStage := by
  rw [ilvRule, State.atStage_of_ne h, Act.raise_bind]

theorem ilvRule_of_blocks_raise {s : State} {c : SubCause} (h : s.stage = .ecDone)
    (hbl : s.blocks = raise c) : ilvRule s = raise c := by
  rw [ilvRule, State.atStage_of_eq h, Act.ok_bind, hbl, Act.raise_bind]

section
variable {s : State} {bl : List Block} (h : s.stage = .ecDone) (hbl : s.blocks = .ok bl)
include h hbl

theorem ilvRule_badBlocks (helen : ecTotal bl ≠ s.elen.toNat) : ilvRule s = raise .badBlocks := by
  rw [ilvRule, State.atStage_of_eq h, Act.ok_bind, hbl, Act.ok_bind, raiseIf_pos helen, Act.raise_bind]

variable (helen : ecTotal bl = s.elen.toNat)
include helen

/-- `ILV` of a block list that agrees with `ELEN` reads the data and the EC area, checks the area of the stream
and stores the stream. -/
theorem ilvRule_of_blocks :
    ilvRule s =
      (s.memRead s.daddr.toNat s.dlen.toNat >>= fun d =>
        s.memRead s.eaddr.toNat (ecTotal bl) >>= fun c =>
        raiseIf (s.faddr.toNat + (s.dlen.toNat + ecTotal bl) > Config.msize) .addrRange >>= fun _ =>
        s.memWrite s.faddr.toNat (interleave (cut (bl.map Block.data) d) (cut (bl.map Block.ec) c)) >>= fun t =>
          .ok { t with flen := BitVec.ofNat 14 (s.dlen.toNat + ecTotal bl), stage := .ilvDone }) := by
  rw [ilvRule, State.atStage_of_eq h, Act.ok_bind, hbl, Act.ok_bind, raiseIf_neg (not_not.mpr helen),
    Act.ok_bind]

theorem ilvRule_of_data_raise {c : SubCause} (hd : s.memRead s.daddr.toNat s.dlen.toNat = raise c) :
    ilvRule s = raise c := by
  rw [ilvRule_of_blocks h hbl helen, hd, Act.raise_bind]

variable {d : List Byte} (hd : s.memRead s.daddr.toNat s.dlen.toNat = .ok d)
include hd

theorem ilvRule_of_ec_raise {c : SubCause} (hc : s.memRead s.eaddr.toNat (ecTotal bl) = raise c) :
    ilvRule s = raise c := by
  rw [ilvRule_of_blocks h hbl helen, hd, Act.ok_bind, hc, Act.raise_bind]

variable {c : List Byte} (hc : s.memRead s.eaddr.toNat (ecTotal bl) = .ok c)
include hc

theorem ilvRule_of_stream_outside (hout : s.faddr.toNat + (s.dlen.toNat + ecTotal bl) > 8192) :
    ilvRule s = raise .addrRange := by
  rw [ilvRule_of_blocks h hbl helen, hd, Act.ok_bind, hc, Act.ok_bind, raiseIf_pos hout, Act.raise_bind]

/-- `ILV` past its checks stores the interleaved slices. -/
theorem ilvRule_of_stream (hin : s.faddr.toNat + (s.dlen.toNat + ecTotal bl) ≤ 8192) :
    ilvRule s = .ok { s with
      mem := Memory.putBytes s.mem s.faddr.toNat
        (interleave (cut (bl.map Block.data) d) (cut (bl.map Block.ec) c))
      flen := BitVec.ofNat 14 (s.dlen.toNat + ecTotal bl)
      stage := .ilvDone } := by
  obtain ⟨-, hsum⟩ := State.blocks_eq_ok hbl
  have hstream := length_interleave_cut ((State.length_of_memRead_eq_ok hd).trans hsum.symm)
    (State.length_of_memRead_eq_ok hc)
  rw [hsum] at hstream
  rw [ilvRule_of_blocks h hbl helen, hd, Act.ok_bind, hc, Act.ok_bind, raiseIf_neg (not_lt.mpr hin),
    Act.ok_bind, State.memWrite_natCast_eq_ok (by rwa [hstream]), Act.ok_bind]

end

/-- Settles O55: `STAGE`, `blocks()`, `ELEN`, the two reads and the place of the stream decide in turn; the
pieces interleaved are the slices of R210. -/
theorem ilvResult : Obligations.IlvResult := by
  intro s
  refine ⟨decode_ilv, fun h => raises_of_ruleOf (ilvRule_badStage h), fun h =>
    ⟨fun c hbl => raises_of_ruleOf (ilvRule_of_blocks_raise h hbl), fun bl hbl =>
    ⟨fun helen => raises_of_ruleOf (ilvRule_badBlocks h hbl helen), fun helen =>
    ⟨fun hout => raises_of_ruleOf (ilvRule_of_data_raise h hbl helen (State.memRead_natCast_outside hout)),
    fun hdin => ⟨fun hnone => raises_of_ruleOf
      (ilvRule_of_data_raise h hbl helen (State.memRead_natCast_unwritten hdin hnone)),
    fun d hd => ?_⟩⟩⟩⟩⟩
  have hdata := State.memRead_natCast_eq_ok hdin hd
  refine ⟨fun hout => raises_of_ruleOf
      (ilvRule_of_ec_raise h hbl helen hdata (State.memRead_natCast_outside hout)),
    fun hcin => ⟨fun hnone => raises_of_ruleOf
      (ilvRule_of_ec_raise h hbl helen hdata (State.memRead_natCast_unwritten hcin hnone)),
    fun c hc => ?_⟩⟩
  have hec := State.memRead_natCast_eq_ok hcin hc
  exact ⟨fun hout => raises_of_ruleOf (ilvRule_of_stream_outside h hbl helen hdata hec hout),
    fun hin => ⟨cut (bl.map Block.data) d, cut (bl.map Block.ec) c,
      ⟨by simp, by simp, fun b x hx => ⟨getElem?_cut_data d hx, getElem?_cut_ec c hx⟩⟩,
      exec_of_ruleOf (ilvRule_of_stream h hbl helen hdata hec hin)⟩⟩

end Sys2Proof.Machine
end

section
/-! Data placement: the walk meets no cell twice and stays inside the square, so each cell keeps the one colour
written to it, and the obligation O37 (R238, R239). -/

namespace Sys2Proof.Machine

/-! ### The walk of R238 -/

/-- The loop over the pairs, one pair at a time: column 6 is no right column, and the next pair starts two
columns to the left. -/
theorem pairCols_succ_of_pos {col : Nat} (fuel : Nat) (h : 0 < col) :
    ∃ x, 1 ≤ x ∧ x ≤ col ∧ pairCols (fuel + 1) col = x :: pairCols fuel (x - 2) := by
  refine ⟨if col = 6 then col - 1 else col, ?_, ?_, by rw [pairCols, if_neg h.ne']⟩ <;> split <;> omega

theorem bounds_of_mem_pairCols {fuel col x : Nat} (h : x ∈ pairCols fuel col) : 1 ≤ x ∧ x ≤ col := by
  induction fuel generalizing col with
  | zero => cases h
  | succ fuel ih =>
    rcases Nat.eq_zero_or_pos col with rfl | hcol
    · cases h
    · obtain ⟨y, hy1, hy, heq⟩ := pairCols_succ_of_pos fuel hcol
      rw [heq, List.mem_cons] at h
      rcases h with rfl | h
      · exact ⟨hy1, hy⟩
      · have := ih h
        omega

/-- The pairs of the walk are apart: a later right column is two or more columns to the left. -/
theorem pairwise_pairCols (fuel col : Nat) : (pairCols fuel col).Pairwise fun a b => b + 2 ≤ a := by
  induction fuel generalizing col with
  | zero => exact .nil
  | succ fuel ih =>
    rcases Nat.eq_zero_or_pos col with rfl | hcol
    · exact .nil
    · obtain ⟨y, -, -, heq⟩ := pairCols_succ_of_pos fuel hcol
      rw [heq]
      refine .cons (fun x hx => ?_) (ih _)
      have := bounds_of_mem_pairCols hx
      omega

@[simp] theorem mem_pairRows {n r : Nat} {up : Bool} : r ∈ pairRows n up ↔ r < n := by
  cases up <;> simp [pairRows]

theorem nodup_pairRows (n : Nat) (up : Bool) : (pairRows n up).Nodup := by
  cases up
  · exact List.nodup_range
  · exact List.nodup_reverse.mpr List.nodup_range

/-- The cells of the pair with right column `col`, in the order they are walked. -/
def pairCells (n col : Nat) (up : Bool) : List (Nat × Nat) :=
  (pairRows n up).flatMap fun r => [(r, col), (r, col - 1)]

theorem zigzag_cons (n col : Nat) (cols : List Nat) (up : Bool) :
    zigzag n (col :: cols) up = pairCells n col up ++ zigzag n cols (!up) := rfl

theorem mem_pairCells {n col : Nat} {up : Bool} {rc : Nat × Nat} :
    rc ∈ pairCells n col up ↔ rc.1 < n ∧ (rc.2 = col ∨ rc.2 = col - 1) := by
  obtain ⟨r, c⟩ := rc
  simp only [pairCells, List.mem_flatMap, mem_pairRows, List.mem_cons, List.not_mem_nil, or_false,
    Prod.mk.injEq]
  constructor
  · rintro ⟨r', hr, ⟨rfl, hc⟩ | ⟨rfl, hc⟩⟩
    · exact ⟨hr, .inl hc⟩
    · exact ⟨hr, .inr hc⟩
  · rintro ⟨hr, hc | hc⟩
    · exact ⟨r, hr, .inl ⟨rfl, hc⟩⟩
    · exact ⟨r, hr, .inr ⟨rfl, hc⟩⟩

/-- The two columns of a pair differ and its rows come once, so no cell of a pair comes twice. -/
theorem nodup_pairCells {n col : Nat} (up : Bool) (h : 1 ≤ col) : (pairCells n col up).Nodup := by
  refine List.nodup_flatMap.mpr ⟨fun r _ => ?_, (nodup_pairRows n up).imp fun hne => ?_⟩
  · have hcol : col ≠ col - 1 := by omega
    simpa using hcol
  · simp [List.disjoint_left, Function.onFun, hne]

theorem mem_zigzag {n : Nat} {cols : List Nat} {up : Bool} {rc : Nat × Nat} :
    rc ∈ zigzag n cols up ↔ rc.1 < n ∧ ∃ col ∈ cols, rc.2 = col ∨ rc.2 = col - 1 := by
  induction cols generalizing up with
  | nil => simp [zigzag]
  | cons col cols ih =>
    rw [zigzag_cons, List.mem_append, mem_pairCells, ih, ← and_or_left, List.exists_mem_cons_iff]

/-- Pairs that are apart share no cell, so a walk over them meets no cell twice. -/
theorem nodup_zigzag {n : Nat} {cols : List Nat} (up : Bool) (hpos : ∀ col ∈ cols, 1 ≤ col)
    (hapart : cols.Pairwise fun a b => b + 2 ≤ a) : (zigzag n cols up).Nodup := by
  induction cols generalizing up with
  | nil => exact .nil
  | cons col cols ih =>
    obtain ⟨hcol, hrest⟩ := List.forall_mem_cons.mp hpos
    obtain ⟨hleft, hapart⟩ := List.pairwise_cons.mp hapart
    rw [zigzag_cons]
    refine (nodup_pairCells up hcol).append (ih _ hrest hapart) fun rc hpair hlater => ?_
    obtain ⟨-, hc⟩ := mem_pairCells.mp hpair
    obtain ⟨-, col', hmem, hc'⟩ := mem_zigzag.mp hlater
    have := hleft col' hmem
    omega

theorem nodup_placeorder (m : Mat) : (placeorder m).Nodup :=
  (nodup_zigzag true (fun _ h => (bounds_of_mem_pairCols h).1) (pairwise_pairCols _ _)).filter _

/-- The walk stays inside the square. -/
theorem lt_side_of_mem_placeorder {m : Mat} {rc : Nat × Nat} (h : rc ∈ placeorder m) :
    rc.1 < m.side ∧ rc.2 < m.side := by
  obtain ⟨hr, col, hcol, hc⟩ := mem_zigzag.mp (List.mem_of_mem_filter h)
  have := bounds_of_mem_pairCols hcol
  omega

/-! ### The writes of R239 -/

/-- A cell inside a square that a list of writes names once has the colour of its write. -/
theorem Mat.cell_setVals_of_mem {n r c : Nat} {x : CellVal} {l : List ((Nat × Nat) × CellVal)} {m : Mat}
    (hlen : m.cells.length = n) (hrow : ∀ row ∈ m.cells, row.length = n) (hr : r < n) (hc : c < n)
    (hnd : (l.map Prod.fst).Nodup) (h : ((r, c), x) ∈ l) : ((m.setVals l).cell r c).val = x := by
  induction l generalizing m with
  | nil => cases h
  | cons e l ih =>
    obtain ⟨⟨r', c'⟩, y⟩ := e
    obtain ⟨hnot, hnd⟩ := List.nodup_cons.mp hnd
    rw [Mat.setVals]
    rcases List.mem_cons.mp h with heq | h
    · cases heq
      rw [Mat.cell_setVals_of_not_mem _ _ _ _ hnot, Mat.cell_setVal_self x hlen hrow hr hc]
    · obtain ⟨hlen', hrow'⟩ := Mat.setVal_square r' c' y hlen hrow
      exact ih hlen' hrow' hnd h

/-- Each cell of the walk with the colour of its bit of the stream. -/
def streamCells (m : Mat) (f : List Byte) : List ((Nat × Nat) × CellVal) :=
  (placeorder m).zipIdx.map fun e => (e.1, CellVal.ofBit (streamBit f e.2))

theorem place_eq_setVals (m : Mat) (f : List Byte) : place m f = m.setVals (streamCells m f) := rfl

theorem map_fst_streamCells (m : Mat) (f : List Byte) : (streamCells m f).map Prod.fst = placeorder m := by
  rw [streamCells, List.map_map]
  exact List.zipIdx_map_fst 0 _

theorem mem_streamCells {m : Mat} {f : List Byte} {k : Nat} {rc : Nat × Nat} (h : (placeorder m)[k]? = some rc) :
    (rc, CellVal.ofBit (streamBit f k)) ∈ streamCells m f :=
  List.mem_map.mpr ⟨(rc, k), List.mem_zipIdx_iff_getElem?.mpr h, rfl⟩

/-- Past the end of the stream every bit is 0 (R239). -/
theorem streamBit_of_le {f : List Byte} {k : Nat} (h : 8 * f.length ≤ k) : streamBit f k = false := by
  have hout : f.length ≤ k / 8 := by omega
  rw [streamBit, List.getD_eq_default _ _ hout]
  exact BitVec.getLsbD_zero

theorem CellVal.ofBit_streamBit (f : List Byte) (k : Nat) :
    CellVal.ofBit (streamBit f k) =
      if k < 8 * f.length ∧ (f.getD (k / 8) 0).getLsbD (7 - k % 8) = true then .dark else .light := by
  rcases lt_or_ge k (8 * f.length) with hk | hk
  · simp only [hk, true_and]
    rfl
  · rw [streamBit_of_le hk, if_neg fun h => hk.not_gt h.1]
    rfl

theorem shaped_place {m : Mat} (h : m.shaped) (f : List Byte) : (place m f).shaped := by
  obtain ⟨hmin, hmax, hlen, hrow⟩ := h
  rw [Mat.shaped, Mat.side, place_v]
  exact ⟨hmin, hmax, Mat.setVals_square _ hlen hrow⟩

/-- Settles O37: `place` writes the cells of the walk, each once, with the bits of the stream, and a write changes
neither `fn` nor any other cell. -/
theorem placeWritesStream : Obligations.PlaceWritesStream := by
  intro m f hm
  have ⟨_, _, hlen, hrow⟩ := hm
  have hcells := map_fst_streamCells m f
  refine ⟨fun k rc hk => ?_, fun r c => ?_, fun r c hout => ?_, place_v m f, shaped_place hm f⟩
  · obtain ⟨hr, hc⟩ := lt_side_of_mem_placeorder (List.mem_of_getElem? hk)
    rw [← CellVal.ofBit_streamBit, place_eq_setVals]
    exact Mat.cell_setVals_of_mem hlen hrow hr hc (hcells ▸ nodup_placeorder m) (mem_streamCells hk)
  · exact Mat.cell_setVals_fn _ m r c
  · exact Mat.cell_setVals_of_not_mem _ m r c (hcells.symm ▸ hout)

end Sys2Proof.Machine
end

section
/-! The stage discipline: what a command whose rule succeeds leaves in `STAGE`, which `STAGE` its rule refuses, and
the obligation O14 (R256). -/

namespace Sys2Proof.Machine

/-! ### The `STAGE` a command leaves -/

/-- A rule with a scalar destination writes that register and nothing else (R22). -/
theorem exists_setX_of_ruleOf_eq_ok {i : Instr} {rd : XReg} {s t : State} (hd : scalarDest i = some rd)
    (h : ruleOf i s = .ok t) : ∃ v, t = s.setX rd v := by
  cases i
  case li => cases hd; cases h; exact ⟨_, rfl⟩
  case lb => cases hd; exact lbRule_eq_ok h
  case csrr => cases hd; obtain ⟨v, -, ht⟩ := csrrRule_eq_ok h; exact ⟨_, ht⟩
  case gexp => cases hd; obtain ⟨e, -, ht⟩ := gexpRule_eq_ok h; exact ⟨_, ht⟩
  case glog => cases hd; obtain ⟨v, l, -, -, ht⟩ := glogRule_eq_ok h; exact ⟨_, ht⟩
  case gfmul => cases hd; obtain ⟨a, b, -, ht⟩ := gfmulRule_eq_ok h; exact ⟨_, ht⟩
  case gfadd => cases hd; obtain ⟨a, b, -, ht⟩ := gfaddRule_eq_ok h; exact ⟨_, ht⟩
  case plen => cases hd; obtain ⟨q, -, ht⟩ := plenRule_eq_ok h; exact ⟨_, ht⟩
  case pget => cases hd; obtain ⟨q, n, -, -, -, -, ht⟩ := pgetRule_eq_ok h; exact ⟨_, ht⟩
  case bchfmt => cases hd; obtain ⟨e, k, -, -, -, -, -, -, ht⟩ := bchfmtRule_eq_ok h; exact ⟨_, ht⟩
  case bchver => cases hd; obtain ⟨v, -, -, -, ht⟩ := bchverRule_eq_ok h; exact ⟨_, ht⟩
  case mrd => cases hd; obtain ⟨r, c, m, -, -, -, -, -, -, -, -, ht⟩ := mrdRule_eq_ok h; exact ⟨_, ht⟩
  case mskbit => cases hd; obtain ⟨r, c, -, -, -, -, -, -, -, ht⟩ := mskbitRule_eq_ok h; exact ⟨_, ht⟩
  case mscore => cases hd; obtain ⟨m, -, -, -, ht⟩ := mscoreRule_eq_ok h; exact ⟨_, ht⟩
  all_goals cases hd

/-- A rule with a polynomial destination writes that register and nothing else (R25). -/
theorem exists_setP_of_ruleOf_eq_ok {i : Instr} {rd : PReg} {s t : State} (hd : polyDest i = some rd)
    (h : ruleOf i s = .ok t) : ∃ q, t = s.setP rd q := by
  cases i
  case pld => cases hd; obtain ⟨a, n, bs, -, -, -, -, -, ht⟩ := pldRule_eq_ok h; exact ⟨_, ht⟩
  case pmul => cases hd; obtain ⟨a, b, -, -, -, ht⟩ := pmulRule_eq_ok h; exact ⟨_, ht⟩
  case pmod => cases hd; obtain ⟨a, b, r, -, -, -, ht⟩ := pmodRule_eq_ok h; exact ⟨_, ht⟩
  case pshift => cases hd; obtain ⟨a, n, -, -, -, -, ht⟩ := pshiftRule_eq_ok h; exact ⟨_, ht⟩
  case pgen => cases hd; obtain ⟨n, -, -, -, ht⟩ := pgenRule_eq_ok h; exact ⟨_, ht⟩
  all_goals cases hd

/-- `CSRW` writes no `STAGE` (R108). -/
theorem State.writeCsr_stage {s t : State} {n : Nat} {v : Int} (h : s.writeCsr n v = some t) :
    t.stage = s.stage := by
  obtain ⟨-, rfl⟩ | ⟨-, rfl | rfl | rfl | rfl⟩ | ⟨-, rfl⟩ | ⟨-, rfl⟩ := State.writeCsr_cases h <;> rfl

/-- A rule that succeeds leaves the `STAGE` of its command's row (R256). -/
theorem stage_of_ruleOf_eq_ok {i : Instr} {s t : State} (h : ruleOf i s = .ok t) :
    t.stage = stageAfter i s.stage := by
  cases i
  case li | lb | csrr | gexp | glog | gfmul | gfadd | plen | pget | bchfmt | bchver | mrd | mskbit | mscore =>
    obtain ⟨v, rfl⟩ := exists_setX_of_ruleOf_eq_ok rfl h
    rfl
  case pld | pmul | pmod | pshift | pgen =>
    obtain ⟨q, rfl⟩ := exists_setP_of_ruleOf_eq_ok rfl h
    rfl
  case nop | rst | clr => cases h; rfl
  case sb => obtain ⟨v, a, -, -, -, -, -, -, rfl⟩ := sbRule_eq_ok h; rfl
  case csrw => obtain ⟨v, -, hv⟩ := csrwRule_eq_ok h; exact State.writeCsr_stage hv
  case pst => obtain ⟨q, a, n, -, -, -, -, -, -, -, rfl⟩ := pstRule_eq_ok h; rfl
  case rsgen => obtain ⟨bl, d, e, -, -, -, -, -, -, rfl⟩ := rsgenRule_eq_ok h; rfl
  case ilv => obtain ⟨bl, d, c, f, -, -, -, -, -, -, -, -, rfl⟩ := ilvRule_eq_ok h; rfl
  case minit => obtain ⟨-, -, -, rfl⟩ := minitRule_eq_ok h; rfl
  case mplace => obtain ⟨f, m, -, -, -, -, rfl⟩ := mplaceRule_eq_ok h; rfl
  case mmeta => obtain ⟨m, -, -, rfl⟩ := mmetaRule_eq_ok h; rfl
  case mapply => obtain ⟨m, hg, -, -, rfl⟩ := mapplyRule_eq_ok h; exact hg
  case mmask => obtain ⟨m, -, -, rfl⟩ := mmaskRule_eq_ok h; rfl
  case encode =>
    obtain ⟨s1, s2, s3, s4, s5, -, -, -, -, -, h⟩ := encodeRule_eq_ok h
    obtain ⟨m, -, -, rfl⟩ := mmetaRule_eq_ok h
    rfl

/-! ### The `STAGE` a command is refused at -/

theorem minitRule_badStage {s : State} (h : s.stage ≠ .ilvDone) : minitRule s = raise .badStage := by
  rw [minitRule, State.atStage_of_ne h, Act.raise_bind]

theorem mplaceRule_badStage {s : State} (h : s.stage ≠ .layout) : mplaceRule s = raise .badStage := by
  rw [mplaceRule, State.atStage_of_ne h, Act.raise_bind]

/-- `ENCODE` starts with `RSGEN`, whose `STAGE` is its own (R257). -/
theorem encodeRule_badStage {s : State} (h : s.stage ≠ .idle) : encodeRule s = raise .badStage := by
  rw [encodeRule, rsgenRule_badStage h, Act.raise_bind]

/-- A rule at a `STAGE` that its command's row does not allow raises `BAD_STAGE`; the rule of `MRD` does once its
registers are written (R243, R256). -/
theorem ruleOf_badStage {i : Instr} {s : State} (h : allowedAt i s.stage = false)
    (hregs : ∀ rd ra rb, i = .mrd rd ra rb → s.x[ra] ≠ none ∧ s.x[rb] ≠ none) :
    ruleOf i s = raise .badStage := by
  cases i
  case rsgen => exact rsgenRule_badStage (of_decide_eq_false h)
  case ilv => exact ilvRule_badStage (of_decide_eq_false h)
  case minit => exact minitRule_badStage (of_decide_eq_false h)
  case mplace => exact mplaceRule_badStage (of_decide_eq_false h)
  case mapply k => exact mapplyRule_badStage (of_decide_eq_false h)
  case mmask => exact mmaskRule_badStage (of_decide_eq_false h)
  case mmeta => exact mmetaRule_badStage (of_decide_eq_false h)
  case encode => exact encodeRule_badStage (of_decide_eq_false h)
  case mscore rd sel => exact mscoreRule_badStage (not_le.mp (of_decide_eq_false h))
  case mrd rd ra rb =>
    obtain ⟨hra, hrb⟩ := hregs rd ra rb rfl
    obtain ⟨r, hr⟩ := Option.ne_none_iff_exists'.mp hra
    obtain ⟨c, hc⟩ := Option.ne_none_iff_exists'.mp hrb
    exact mrdRule_badStage hr hc (not_le.mp (of_decide_eq_false h))
  all_goals cases h

/-- A rule succeeds only at a `STAGE` that its command's row allows (R256). -/
theorem allowedAt_of_ruleOf_eq_ok {i : Instr} {s t : State} (h : ruleOf i s = .ok t) :
    allowedAt i s.stage = true := by
  by_contra hbad
  refine raise_ne_ok ((ruleOf_badStage (Bool.eq_false_of_not_eq_true hbad) ?_).symm.trans h)
  rintro rd ra rb rfl
  obtain ⟨r, c, m, hr, hc, -⟩ := mrdRule_eq_ok h
  obtain ⟨wr, hwr, -⟩ := State.readX_eq_ok.mp hr
  obtain ⟨wc, hwc, -⟩ := State.readX_eq_ok.mp hc
  simp [hwr, hwc]

/-- A command that leaves the block without a fault ran its rule to the end. -/
theorem ruleOf_of_exec_noError {i : Instr} {s t : State} (h : exec i s = .next t) (ht : t.err = .noError) :
    ruleOf i s = .ok t := by
  obtain hok | ⟨c, -, rfl⟩ := exec_eq_next.mp h
  · exact hok
  · cases ht

/-- Settles O14: a rule refuses a `STAGE` outside its row with `BAD_STAGE`, and a command without a fault has run
its rule to the end. -/
theorem stageDiscipline : Obligations.StageDiscipline := by
  intro i s _
  refine ⟨fun hbad hregs => raises_of_ruleOf (ruleOf_badStage hbad hregs), fun t h ht => ?_⟩
  have hok := ruleOf_of_exec_noError h ht
  exact ⟨allowedAt_of_ruleOf_eq_ok hok, stage_of_ruleOf_eq_ok hok⟩

end Sys2Proof.Machine
end

section
/-! `ENCODE`: its rule as the rules of the six stage commands in sequence, and the obligation O39 (R257). -/

namespace Sys2Proof.Machine

/-- The rules of the commands `is`, each on the state that the one before it left; the first that stops stops the
sequence. -/
def rulesInSequence (is : List Instr) (s : State) : Act State := is.foldlM (fun s i => ruleOf i s) s

@[simp] theorem rulesInSequence_nil (s : State) : rulesInSequence [] s = .ok s := rfl

@[simp] theorem rulesInSequence_cons (i : Instr) (is : List Instr) (s : State) :
    rulesInSequence (i :: is) s = ruleOf i s >>= rulesInSequence is := rfl

/-- `encodeRule` is the six rules in sequence (R257). -/
theorem encodeRule_eq_rulesInSequence (s : State) : encodeRule s = rulesInSequence encodeStages s := by
  have hlast : rulesInSequence [.mmeta] = mmetaRule := funext fun s => bind_pure (mmetaRule s)
  rw [encodeRule, ← hlast]
  rfl

/-- A stage command that does not fault leaves `ERR` as it is. -/
theorem err_of_stageRule_eq_ok {i : Instr} {s t : State} (hi : i ∈ encodeStages) (h : ruleOf i s = .ok t) :
    t.err = s.err := by
  simp only [encodeStages, List.mem_cons, List.not_mem_nil, or_false] at hi
  obtain rfl | rfl | rfl | rfl | rfl | rfl := hi
  · obtain ⟨bl, d, e, -, -, -, -, -, -, rfl⟩ := rsgenRule_eq_ok h; rfl
  · obtain ⟨bl, d, c, f, -, -, -, -, -, -, -, -, rfl⟩ := ilvRule_eq_ok h; rfl
  · obtain ⟨-, -, -, rfl⟩ := minitRule_eq_ok h; rfl
  · obtain ⟨f, m, -, -, -, -, rfl⟩ := mplaceRule_eq_ok h; rfl
  · obtain ⟨m, -, -, rfl⟩ := mmaskRule_eq_ok h; rfl
  · obtain ⟨m, -, -, rfl⟩ := mmetaRule_eq_ok h; rfl

section
variable {w : Word} {s0 s : State} {i : Instr} {is : List Instr}

theorem allOrNothing_cons_of_ok {t : State} (h : ruleOf i s = .ok t) (ht : t.err = .noError) :
    allOrNothing w s0 (i :: is) s = allOrNothing w s0 is t := by
  simp only [allOrNothing, exec_of_ruleOf h, ht]

/-- The first fault keeps nothing of the commands before it (R257). -/
theorem allOrNothing_cons_of_raise {c : SubCause} (h : ruleOf i s = raise c) :
    allOrNothing w s0 (i :: is) s = .next (s0.latch c w) := by
  have hexec : exec i s = .next (s.latch c (encode i)) := raises_of_ruleOf h
  simp only [allOrNothing, hexec, State.latch_err, State.latch_info]

theorem allOrNothing_cons_of_stuck {f : Fault} (h : ruleOf i s = .error (.stuck f)) :
    allOrNothing w s0 (i :: is) s = .fault f := by
  simp only [allOrNothing, exec_eq_finish, h, finish]

end

/-- Stage commands issued all or nothing are one command whose rule is their rules in sequence. -/
theorem allOrNothing_eq_finish (w : Word) (s0 : State) {is : List Instr} (his : ∀ i ∈ is, i ∈ encodeStages)
    {s : State} (hs : s.err = .noError) : allOrNothing w s0 is s = finish w s0 (rulesInSequence is s) := by
  induction is generalizing s with
  | nil => rfl
  | cons i is ih =>
    obtain ⟨hi, his⟩ := List.forall_mem_cons.mp his
    rw [rulesInSequence_cons]
    match h : ruleOf i s with
    | .ok t =>
      have ht : t.err = .noError := (err_of_stageRule_eq_ok hi h).trans hs
      rw [allOrNothing_cons_of_ok h ht, Act.ok_bind, ih his ht]
    | .error (.raised c) => rw [allOrNothing_cons_of_raise h, Act.error_bind]; rfl
    | .error (.stuck f) => rw [allOrNothing_cons_of_stuck h, Act.error_bind]; rfl

/-- Settles O39: `ENCODE` ends with its own word whatever its rule gives, and its rule is the six rules in
sequence. -/
theorem encodeIsStagesInSequence : Obligations.EncodeIsStagesInSequence := by
  refine ⟨by decide, fun s hs => ?_⟩
  calc exec .encode s = finish (encode .encode) s (encodeRule s) := exec_eq_finish .encode s
    _ = finish (encode .encode) s (rulesInSequence encodeStages s) := by rw [encodeRule_eq_rulesInSequence]
    _ = allOrNothing (encode .encode) s encodeStages s :=
      (allOrNothing_eq_finish _ s (fun _ hi => hi) hs).symm

end Sys2Proof.Machine
end

section
/-! A legal word is the word of the command it decodes to (R89): the checks of a format read every field of the
word, and a field that passes its check is the encoder's (R85, R86). -/

namespace Sys2Proof

/-- The decoder's check `m` of the field `f` passes only with a result whose field, `bits`, is `f` (R85). -/
def ReadsField {α : Type} {n : Nat} (m : Except Illegal α) (f : BitVec n) (bits : α → BitVec n) : Prop :=
  ∀ a, m = .ok a → f = bits a

theorem ReadsField.scalar {f : BitVec 4} {e : Illegal} : ReadsField (xField f e) f xBits :=
  fun _ => xField_eq_ok.mp

theorem ReadsField.polynomial {f : BitVec 4} {e : Illegal} : ReadsField (pField f e) f pBits :=
  fun _ => pField_eq_ok.mp

theorem ReadsField.unused {f : BitVec 4} {e : Illegal} : ReadsField (noField f e) f fun _ => 0 :=
  fun _ => noField_eq_ok.mp

theorem ReadsField.unusedImm {w : Word} : ReadsField (noImm w) (imm12Field w) fun _ => 0 := by
  intro _ h
  unfold noImm at h
  split at h
  · next h0 => exact h0
  · cases h

theorem ReadsField.usedImm {w : Word} : ReadsField (.ok (imm12 w)) (imm12Field w) immBits := by
  rintro _ ⟨⟩
  rw [immBits, imm12, BitVec.ofNat_toNat, BitVec.setWidth_eq]

section
variable {w : Word} {op : BitVec 8} {i : Instr} (hop : opField w = op)
include hop

theorem encode_of_fmtN {j : Instr} (henc : encode j = packN op) (h : fmtN j w = .ok i) : encode i = w := by
  unfold fmtN at h
  split at h
  · next hlow => cases h; rw [henc, ← hop, packN_fields hlow]
  · cases h

theorem encode_of_fmtI {mk : XReg → Int → Instr}
    (henc : ∀ rd imm, encode (mk rd imm) = packI op (xBits rd) (BitVec.ofInt 20 imm))
    (h : fmtI mk w = .ok i) : encode i = w := by
  unfold fmtI at h
  match hrd : xRd w with
  | .error e => rw [hrd] at h; cases h
  | .ok rd =>
    rw [hrd] at h
    cases h
    rw [henc, ← hop, ← xField_eq_ok.mp hrd, BitVec.ofInt_toInt, packI_fields]

/-- Every format R (R82): four checks, one for each field after the opcode, then the command of their results. -/
theorem encode_of_fmtR {α β γ δ : Type} {mrd : Except Illegal α} {mra : Except Illegal β} {mrb : Except Illegal γ}
    {mimm : Except Illegal δ} {bd : α → BitVec 4} {ba : β → BitVec 4} {bb : γ → BitVec 4} {bi : δ → BitVec 12}
    {mk : α → β → γ → δ → Instr} (hrd : ReadsField mrd (rdField w) bd) (hra : ReadsField mra (raField w) ba)
    (hrb : ReadsField mrb (rbField w) bb) (himm : ReadsField mimm (imm12Field w) bi)
    (henc : ∀ a b c n, encode (mk a b c n) = packR op (bd a) (ba b) (bb c) (bi n))
    (h : (do let a ← mrd; let b ← mra; let c ← mrb; let n ← mimm; .ok (mk a b c n)) = .ok i) :
    encode i = w := by
  match mrd, mra, mrb, mimm with
  | .ok a, .ok b, .ok c, .ok n =>
    cases h
    rw [henc, ← hop, ← hrd a rfl, ← hra b rfl, ← hrb c rfl, ← himm n rfl, packR_fields]
  | .error _, _, _, _ => cases h
  | .ok _, .error _, _, _ => cases h
  | .ok _, .ok _, .error _, _ => cases h
  | .ok _, .ok _, .ok _, .error _ => cases h

end

/-- A legal word is the word of its command (R89). -/
theorem encode_of_decode {w : Word} {i : Instr} (h : decode w = .ok i) : encode i = w := by
  unfold decode at h
  generalize hn : (opField w).toNat = n at h
  have hop : opField w = BitVec.ofNat 8 n := by rw [← hn, BitVec.ofNat_toNat, BitVec.setWidth_eq]
  clear hn
  split at h
  -- `NOP`, `RST`, `CLR`, `RSGEN`, `ILV`, `MINIT`, `MPLACE`, `MMETA`, `MMASK`, `ENCODE`
  case h_1 | h_2 | h_3 | h_21 | h_22 | h_25 | h_26 | h_28 | h_32 | h_33 =>
    exact encode_of_fmtN hop rfl h
  case h_4 => -- `LI`
    exact encode_of_fmtI hop (fun _ _ => rfl) h
  case h_5 | h_6 | h_9 | h_10 | h_24 => -- `LB`, `SB`, `GEXP`, `GLOG`, `BCHVER`
    exact encode_of_fmtR hop .scalar .scalar .unused .unusedImm (fun _ _ _ _ => rfl) h
  case h_7 => -- `CSRR`
    exact encode_of_fmtR (mk := fun rd _ _ n => .csrr rd n) hop .scalar .unused .unused .usedImm
      (fun _ _ _ _ => rfl) h
  case h_31 => -- `MSCORE`
    exact encode_of_fmtR (mk := fun rd _ _ n => .mscore rd n) hop .scalar .unused .unused .usedImm
      (fun _ _ _ _ => rfl) h
  case h_8 => -- `CSRW`
    exact encode_of_fmtR (mk := fun _ ra _ n => .csrw n ra) hop .unused .scalar .unused .usedImm
      (fun _ _ _ _ => rfl) h
  case h_11 | h_12 | h_23 | h_27 => -- `GFMUL`, `GFADD`, `BCHFMT`, `MRD`
    exact encode_of_fmtR hop .scalar .scalar .scalar .unusedImm (fun _ _ _ _ => rfl) h
  case h_13 | h_14 => -- `PLD`, `PST`
    exact encode_of_fmtR hop .polynomial .scalar .scalar .unusedImm (fun _ _ _ _ => rfl) h
  case h_15 => -- `PLEN`
    exact encode_of_fmtR hop .scalar .polynomial .unused .unusedImm (fun _ _ _ _ => rfl) h
  case h_16 => -- `PGET`
    exact encode_of_fmtR hop .scalar .polynomial .scalar .unusedImm (fun _ _ _ _ => rfl) h
  case h_17 | h_18 => -- `PMUL`, `PMOD`
    exact encode_of_fmtR hop .polynomial .polynomial .polynomial .unusedImm (fun _ _ _ _ => rfl) h
  case h_19 => -- `PSHIFT`
    exact encode_of_fmtR hop .polynomial .polynomial .scalar .unusedImm (fun _ _ _ _ => rfl) h
  case h_20 => -- `PGEN`
    exact encode_of_fmtR hop .polynomial .scalar .unused .unusedImm (fun _ _ _ _ => rfl) h
  case h_29 => -- `MSKBIT`
    exact encode_of_fmtR (mk := .mskbit) hop .scalar .scalar .scalar .usedImm (fun _ _ _ _ => rfl) h
  case h_30 => -- `MAPPLY`
    exact encode_of_fmtR (mk := fun _ _ _ n => .mapply n) hop .unused .unused .unused .usedImm
      (fun _ _ _ _ => rfl) h
  case h_34 => cases h -- an opcode that R86 does not assign

end Sys2Proof
end

section
/-! Which sub-causes a rule raises: R268's table as a bound on the rule of every command, put together from a bound
on every shared operation of the rules. That a sub-cause is allowed is an argument with a default, which looks it up
in the command's row. -/

namespace Sys2Proof.Machine

/-- The rule, or part of a rule, `m` raises no sub-cause outside `cs`. -/
def RaisesIn {α : Type} (cs : List SubCause) (m : Act α) : Prop := ∀ c, m = raise c → c ∈ cs

namespace RaisesIn

variable {α β : Type} {cs : List SubCause} {s : State}

/-! ### Sequencing -/

theorem ok {a : α} : RaisesIn cs (.ok a : Act α) := fun _ h => absurd h.symm raise_ne_ok

theorem raise {c : SubCause} (h : c ∈ cs := by simp [causes, blockCauses]) :
    RaisesIn cs (Machine.raise c : Act α) := by
  rintro _ ⟨⟩
  exact h

theorem raiseIf {p : Prop} [Decidable p] {c : SubCause} (h : c ∈ cs := by simp [causes, blockCauses]) :
    RaisesIn cs (Machine.raiseIf p c) := by
  by_cases hp : p
  · rw [raiseIf_pos hp]; exact raise h
  · rw [raiseIf_neg hp]; exact ok

/-- A sequence raises what its first part raises, and what the second does on a result of the first. -/
theorem bind {m : Act α} {f : α → Act β} (hm : RaisesIn cs m) (hf : ∀ a, m = .ok a → RaisesIn cs (f a)) :
    RaisesIn cs (m >>= f) := by
  intro c h
  match m with
  | .ok a => exact hf a rfl c h
  | .error (.raised c') => cases h; exact hm _ rfl
  | .error (.stuck _) => cases h

theorem mono {cs' : List SubCause} {m : Act α} (hm : RaisesIn cs m) (h : cs ⊆ cs' := by decide) :
    RaisesIn cs' m := fun c hc => h (hm c hc)

/-! ### The shared operations -/

theorem readX {r : XReg} (h : .unwritten ∈ cs := by simp [causes, blockCauses]) : RaisesIn cs (s.readX r) := by
  rcases s.readX_cases r with ⟨v, hv⟩ | hv
  · rw [hv]; exact ok
  · rw [hv]; exact raise h

theorem readP {r : PReg} (h : .unwritten ∈ cs := by simp [causes, blockCauses]) : RaisesIn cs (s.readP r) := by
  rcases s.readP_cases r with ⟨q, hq⟩ | hq
  · rw [hq]; exact ok
  · rw [hq]; exact raise h

theorem readXX {ra rb : XReg} (h : .unwritten ∈ cs := by simp [causes, blockCauses]) : RaisesIn cs (s.readXX ra rb) :=
  bind (readX h) fun _ _ => bind (readX h) fun _ _ => ok

theorem readPP {ra rb : PReg} (h : .unwritten ∈ cs := by simp [causes, blockCauses]) : RaisesIn cs (s.readPP ra rb) :=
  bind (readP h) fun _ _ => bind (readP h) fun _ _ => ok

theorem readElems {ra rb : XReg}
    (h : .unwritten ∈ cs := by simp [causes, blockCauses])
    (h' : .elemRange ∈ cs := by simp [causes, blockCauses]) :
    RaisesIn cs (s.readElems ra rb) :=
  bind (readXX h) fun _ _ => bind (raiseIf h') fun _ _ => ok

theorem memRead {a : Int} {n : Nat}
    (h : .addrRange ∈ cs := by simp [causes, blockCauses])
    (h' : .unwritten ∈ cs := by simp [causes, blockCauses]) :
    RaisesIn cs (s.memRead a n) :=
  bind (raiseIf h) fun _ _ => by
    split
    · exact ok
    · exact raise h'

theorem memWrite {a : Int} {bs : List Byte} (h : .addrRange ∈ cs := by simp [causes, blockCauses]) :
    RaisesIn cs (s.memWrite a bs) :=
  bind (raiseIf h) fun _ _ => ok

theorem readMat : RaisesIn cs s.readMat := by
  intro c h
  cases hm : s.mat <;> rw [State.readMat, hm] at h <;> cases h

theorem atStage {g : Stage} (h : .badStage ∈ cs := by simp [causes, blockCauses]) :
    RaisesIn cs (s.atStage g) := raiseIf h

theorem fromStage {g : Stage} (h : .badStage ∈ cs := by simp [causes, blockCauses]) :
    RaisesIn cs (s.fromStage g) := raiseIf h

theorem glog {v : Int} (h : .glogDomain ∈ cs := by simp [causes, blockCauses]) : RaisesIn cs (Machine.glog v) :=
  bind (raiseIf h) fun _ _ => ok

theorem pmodLoop {b : Poly} (h : .glogDomain ∈ cs) (fuel : Nat) (r : Poly) :
    RaisesIn cs (Machine.pmodLoop fuel r b) := by
  induction fuel generalizing r with
  | zero => exact ok
  | succ fuel ih =>
    unfold Machine.pmodLoop
    split
    · exact bind (glog h) fun _ _ => bind (glog h) fun _ _ => ih _
    · exact ok

theorem pmod {a b : Poly} (h : .glogDomain ∈ cs := by simp [causes, blockCauses]) : RaisesIn cs (Machine.pmod a b) :=
  pmodLoop h _ _

theorem blocks (h : blockCauses ⊆ cs := by decide) : RaisesIn cs s.blocks :=
  have hbad : .badBlocks ∈ cs := h (by decide)
  bind (raiseIf hbad) fun _ _ => bind (memRead (h (by decide)) (h (by decide))) fun _ _ =>
    bind (raiseIf hbad) fun _ _ => bind (raiseIf hbad) fun _ _ => ok

end RaisesIn

/-! ### `CSRR` and `CSRW` -/

theorem csrrRule_raisesIn (rd : XReg) (n : Nat) (s : State) : RaisesIn (causes (.csrr rd n)) (csrrRule rd n s) := by
  unfold csrrRule
  split
  · exact .raise
  · exact .ok

theorem csrwRule_raisesIn (n : Nat) (ra : XReg) (s : State) : RaisesIn (causes (.csrw n ra)) (csrwRule n ra s) :=
  .bind .readX fun _ _ => by
    split
    · exact .raise
    · exact .ok

/-! ### The stage commands -/

theorem rsgenRule_raisesIn (s : State) : RaisesIn (causes .rsgen) (rsgenRule s) :=
  .bind .atStage fun _ _ => .bind .blocks fun bl hbl => .bind .memRead fun d _ => .bind .raiseIf fun _ _ => by
    obtain ⟨hec, -⟩ := State.blocks_eq_ok hbl
    obtain ⟨ecs, -, hall⟩ := exists_rsecAll_eq_ok_flatten hec d
    rw [hall, Act.ok_bind]
    exact .bind .memWrite fun _ _ => .ok

theorem ilvRule_raisesIn (s : State) : RaisesIn (causes .ilv) (ilvRule s) :=
  .bind .atStage fun _ _ => .bind .blocks fun _ _ => .bind .raiseIf fun _ _ => .bind .memRead fun _ _ =>
    .bind .memRead fun _ _ => .bind .raiseIf fun _ _ => .bind .memWrite fun _ _ => .ok

theorem minitRule_raisesIn (s : State) : RaisesIn (causes .minit) (minitRule s) :=
  .bind .atStage fun _ _ => .bind .raiseIf fun _ _ => .ok

theorem mplaceRule_raisesIn (s : State) : RaisesIn (causes .mplace) (mplaceRule s) :=
  .bind .atStage fun _ _ => .bind .memRead fun _ _ => .bind .readMat fun _ _ => .bind .raiseIf fun _ _ => .ok

theorem mmaskRule_raisesIn (s : State) : RaisesIn (causes .mmask) (mmaskRule s) :=
  .bind .atStage fun _ _ => .bind .readMat fun _ _ => .ok

theorem mmetaRule_raisesIn (s : State) : RaisesIn (causes .mmeta) (mmetaRule s) :=
  .bind .atStage fun _ _ => .bind .readMat fun _ _ => .ok

/-- `ENCODE` raises what its stages raise (R257). -/
theorem encodeRule_raisesIn (s : State) : RaisesIn (causes .encode) (encodeRule s) :=
  .bind (.mono (rsgenRule_raisesIn s)) fun s1 _ => .bind (.mono (ilvRule_raisesIn s1)) fun s2 _ =>
    .bind (.mono (minitRule_raisesIn s2)) fun s3 _ => .bind (.mono (mplaceRule_raisesIn s3)) fun s4 _ =>
      .bind (.mono (mmaskRule_raisesIn s4)) fun s5 _ => .mono (mmetaRule_raisesIn s5)

/-! ### Every command -/

/-- A command's rule raises nothing outside its row of the table of R268. -/
theorem ruleOf_raisesIn (i : Instr) (s : State) : RaisesIn (causes i) (ruleOf i s) := by
  cases i
  case nop | rst | clr | li => exact .ok
  case lb => exact .bind .readX fun _ _ => .bind .memRead fun _ _ => .ok
  case sb => exact .bind .readX fun _ _ => .bind .readX fun _ _ => .bind .raiseIf fun _ _ => .memWrite
  case csrr => exact csrrRule_raisesIn _ _ s
  case csrw => exact csrwRule_raisesIn _ _ s
  case gexp => exact .bind .readX fun _ _ => .ok
  case glog => exact .bind .readX fun _ _ => .bind .glog fun _ _ => .ok
  case gfmul | gfadd => exact .bind .readElems fun _ _ => .ok
  case pld => exact .bind .readXX fun _ _ => .bind .raiseIf fun _ _ => .bind .memRead fun _ _ => .ok
  case pst => exact .bind .readP fun _ _ => .bind .readXX fun _ _ => .bind .raiseIf fun _ _ => .memWrite
  case plen => exact .bind .readP fun _ _ => .ok
  case pget | pshift =>
    exact .bind .readP fun _ _ => .bind .readX fun _ _ => .bind .raiseIf fun _ _ => .ok
  case pmul => exact .bind .readPP fun _ _ => .bind .raiseIf fun _ _ => .ok
  case pmod => exact .bind .readPP fun _ _ => .bind .pmod fun _ _ => .ok
  case pgen | bchver => exact .bind .readX fun _ _ => .bind .raiseIf fun _ _ => .ok
  case bchfmt => exact .bind .readXX fun _ _ => .bind .raiseIf fun _ _ => .ok
  case mskbit => exact .bind .readXX fun _ _ => .bind .raiseIf fun _ _ => .bind .raiseIf fun _ _ => .ok
  case mrd =>
    exact .bind .readXX fun _ _ => .bind .fromStage fun _ _ => .bind .readMat fun _ _ =>
      .bind .raiseIf fun _ _ => .ok
  case mapply =>
    exact .bind .atStage fun _ _ => .bind .raiseIf fun _ _ => .bind .readMat fun _ _ => .ok
  case mscore =>
    exact .bind .fromStage fun _ _ => .bind .raiseIf fun _ _ => .bind .readMat fun _ _ => .ok
  case rsgen => exact rsgenRule_raisesIn s
  case ilv => exact ilvRule_raisesIn s
  case minit => exact minitRule_raisesIn s
  case mplace => exact mplaceRule_raisesIn s
  case mmask => exact mmaskRule_raisesIn s
  case mmeta => exact mmetaRule_raisesIn s
  case encode => exact encodeRule_raisesIn s

/-- `ILLEGAL_CMD` belongs to the word and to no command (R268). -/
theorem illegalCmd_not_mem_causes (i : Instr) : .illegalCmd ∉ causes i := by
  cases i <;> simp [causes, blockCauses]

end Sys2Proof.Machine
end

section
/-! The fault transition of a command word: what a word does to a block that is not faulted, and the obligation O8
(R92, R270). -/

namespace Sys2Proof.Machine

theorem commandPort_of_illegal {w : Word} {s : State} {e : Illegal} (hs : s.err = .noError)
    (hw : decode w = .error e) : commandPort w s = .next (s.latch .illegalCmd w) := by
  simp [commandPort, State.faulted, hs, hw]

theorem commandPort_of_legal {w : Word} {s : State} {i : Instr} (hs : s.err = .noError) (hw : decode w = .ok i) :
    commandPort w s = exec i s := by
  simp [commandPort, State.faulted, hs, hw]

theorem State.writeCsr_err {s t : State} {n : Nat} {v : Int} (h : s.writeCsr n v = some t) : t.err = s.err := by
  obtain ⟨-, rfl⟩ | ⟨-, rfl | rfl | rfl | rfl⟩ | ⟨-, rfl⟩ | ⟨-, rfl⟩ := State.writeCsr_cases h <;> rfl

theorem encodeRule_err {s t : State} (h : encodeRule s = .ok t) : t.err = s.err := by
  obtain ⟨s1, s2, s3, s4, s5, h1, h2, h3, h4, h5, h6⟩ := encodeRule_eq_ok h
  calc t.err = s5.err := err_of_stageRule_eq_ok (i := .mmeta) (by decide) h6
    _ = s4.err := err_of_stageRule_eq_ok (i := .mmask) (by decide) h5
    _ = s3.err := err_of_stageRule_eq_ok (i := .mplace) (by decide) h4
    _ = s2.err := err_of_stageRule_eq_ok (i := .minit) (by decide) h3
    _ = s1.err := err_of_stageRule_eq_ok (i := .ilv) (by decide) h2
    _ = s.err := err_of_stageRule_eq_ok (i := .rsgen) (by decide) h1

/-- A rule that succeeds leaves a block without a fault without one: only the fault transition writes `ERR`, and
reset clears it (R31). -/
theorem noError_of_ruleOf_eq_ok {i : Instr} {s t : State} (hs : s.err = .noError) (h : ruleOf i s = .ok t) :
    t.err = .noError := by
  cases i
  case li | lb | csrr | gexp | glog | gfmul | gfadd | plen | pget | bchfmt | bchver | mrd | mskbit | mscore =>
    obtain ⟨v, rfl⟩ := exists_setX_of_ruleOf_eq_ok rfl h
    exact hs
  case pld | pmul | pmod | pshift | pgen =>
    obtain ⟨q, rfl⟩ := exists_setP_of_ruleOf_eq_ok rfl h
    exact hs
  case rsgen | ilv | minit | mplace | mmask | mmeta => exact (err_of_stageRule_eq_ok (by decide) h).trans hs
  case nop | clr => cases h; exact hs
  case rst => cases h; rfl
  case sb => obtain ⟨v, a, -, -, -, -, -, -, rfl⟩ := sbRule_eq_ok h; exact hs
  case csrw => obtain ⟨v, -, hv⟩ := csrwRule_eq_ok h; exact (State.writeCsr_err hv).trans hs
  case pst => obtain ⟨q, a, n, -, -, -, -, -, -, -, rfl⟩ := pstRule_eq_ok h; exact hs
  case mapply => obtain ⟨m, -, -, -, rfl⟩ := mapplyRule_eq_ok h; exact hs
  case encode => exact (encodeRule_err h).trans hs

/-- Settles O8: a block is left faulted by an illegal word or by a rule that raises; the rule's sub-cause is one of
its command's, so not `ILLEGAL_CMD`, and the latched word of the command is the word presented. -/
theorem faultEntryChangesThree : Obligations.FaultEntryChangesThree := by
  intro w s t hs hport ht
  match hw : decode w with
  | .error e =>
    rw [commandPort_of_illegal hs hw] at hport
    cases hport
    exact ⟨.illegalCmd, rfl, iff_of_true rfl ⟨e, rfl⟩⟩
  | .ok i =>
    rw [commandPort_of_legal hs hw] at hport
    obtain hok | ⟨c, hc, rfl⟩ := exec_eq_next.mp hport
    · exact absurd (noError_of_ruleOf_eq_ok hs hok) ht
    · have hc : c ∈ causes i := ruleOf_raisesIn i s c hc
      rw [encode_of_decode hw]
      have hne : c ≠ .illegalCmd := ne_of_mem_of_not_mem hc (illegalCmd_not_mem_causes i)
      exact ⟨c, rfl, iff_of_false hne fun ⟨e, he⟩ => by cases he⟩

end Sys2Proof.Machine
end

section
/-! The decoder and the encoder: a command survives the round trip exactly when it is well formed, and the
obligations O1, O2 and O4 (R82 to R89). -/

namespace Sys2Proof

/-! ### The commands with an immediate (R84) -/

section
open Machine

theorem fmtXXXI_packR (mk : XReg → XReg → XReg → Nat → Instr) (op : BitVec 8) (rd ra rb : XReg) (n : BitVec 12) :
    fmtXXXI mk (packR op (xBits rd) (xBits ra) (xBits rb) n) = .ok (mk rd ra rb n.toNat) := by
  simp only [fmtXXXI, xRd, xRa, xRb, imm12, rdField_packR, raField_packR, rbField_packR, imm12Field_packR,
    xField_xBits]
  rfl

theorem decode_mskbit {w : Word} (h : opField w = 0x48) : decode w = fmtXXXI .mskbit w := by rw [decode, h]; rfl

theorem immBits_toNat_eq_iff {n : Nat} : (immBits n).toNat = n ↔ wfImm12 n = true := by
  refine ⟨fun h => decide_eq_true ?_, toNat_immBits⟩
  have hlt := (immBits n).isLt
  omega

theorem ofInt_toInt_eq_iff {n : Int} : (BitVec.ofInt 20 n).toInt = n ↔ wfImm20 n = true := by
  rw [wfImm20, decide_eq_true_iff, BitVec.toInt_ofInt, Int.bmod_def]
  omega

/-- What the word of a command holds of its immediate decides whether it survives the round trip. -/
theorem decode_encode_iff (i : Instr) : decode (encode i) = .ok i ↔ WellFormed i = true := by
  cases i
  case nop | rst | clr | rsgen | ilv | minit | mplace | mmeta | mmask | encode => exact iff_of_true rfl rfl
  case lb => exact iff_of_true ((decode_lb (opField_packR ..)).trans (fmtXX_packR ..)) rfl
  case sb => exact iff_of_true ((decode_sb (opField_packR ..)).trans (fmtXX_packR ..)) rfl
  case gexp => exact iff_of_true ((decode_gexp (opField_packR ..)).trans (fmtXX_packR ..)) rfl
  case glog => exact iff_of_true ((decode_glog (opField_packR ..)).trans (fmtXX_packR ..)) rfl
  case bchver => exact iff_of_true ((decode_bchver (opField_packR ..)).trans (fmtXX_packR ..)) rfl
  case gfmul => exact iff_of_true ((decode_gfmul (opField_packR ..)).trans (fmtXXX_packR ..)) rfl
  case gfadd => exact iff_of_true ((decode_gfadd (opField_packR ..)).trans (fmtXXX_packR ..)) rfl
  case bchfmt => exact iff_of_true ((decode_bchfmt (opField_packR ..)).trans (fmtXXX_packR ..)) rfl
  case mrd => exact iff_of_true ((decode_mrd (opField_packR ..)).trans (fmtXXX_packR ..)) rfl
  case pld => exact iff_of_true ((decode_pld (opField_packR ..)).trans (fmtPXX_packR ..)) rfl
  case pst => exact iff_of_true ((decode_pst (opField_packR ..)).trans (fmtPXX_packR ..)) rfl
  case plen => exact iff_of_true ((decode_plen (opField_packR ..)).trans (fmtXP_packR ..)) rfl
  case pget => exact iff_of_true ((decode_pget (opField_packR ..)).trans (fmtXPX_packR ..)) rfl
  case pmul => exact iff_of_true ((decode_pmul (opField_packR ..)).trans (fmtPPP_packR ..)) rfl
  case pmod => exact iff_of_true ((decode_pmod (opField_packR ..)).trans (fmtPPP_packR ..)) rfl
  case pshift => exact iff_of_true ((decode_pshift (opField_packR ..)).trans (fmtPPX_packR ..)) rfl
  case pgen => exact iff_of_true ((decode_pgen (opField_packR ..)).trans (fmtPX_packR ..)) rfl
  case li rd imm =>
    rw [encode, decode_li (opField_packI ..), fmtI_packI, Except.ok.injEq, Instr.li.injEq, ofInt_toInt_eq_iff]
    exact and_iff_right rfl
  case csrr rd n =>
    rw [encode, decode_csrr (opField_packR ..), fmtXI_packR, Except.ok.injEq, Instr.csrr.injEq, immBits_toNat_eq_iff]
    exact and_iff_right rfl
  case csrw n ra =>
    rw [encode, decode_csrw (opField_packR ..), fmtAI_packR, Except.ok.injEq, Instr.csrw.injEq, immBits_toNat_eq_iff]
    exact and_iff_left rfl
  case mskbit rd ra rb k =>
    rw [encode, decode_mskbit (opField_packR ..), fmtXXXI_packR, Except.ok.injEq, Instr.mskbit.injEq,
      immBits_toNat_eq_iff]
    simp only [true_and]
    rfl
  case mapply k =>
    rw [encode, decode_mapply (opField_packR ..), fmtImm_packR, Except.ok.injEq, Instr.mapply.injEq,
      immBits_toNat_eq_iff]
    rfl
  case mscore rd sel =>
    rw [encode, decode_mscore (opField_packR ..), fmtXI_packR, Except.ok.injEq, Instr.mscore.injEq,
      immBits_toNat_eq_iff]
    exact and_iff_right rfl

end

/-- Settles O1: only an immediate can be lost in a word, and none in its range is. -/
theorem decodeEncodeRoundTrip : Obligations.DecodeEncodeRoundTrip := fun i => (decode_encode_iff i).mpr

/-- Settles O2: a legal word is the word of its command, which thus survives the round trip and is well formed. -/
theorem encodeDecodeRoundTrip : Obligations.EncodeDecodeRoundTrip := by
  intro w i h
  have henc := encode_of_decode h
  exact ⟨henc, (decode_encode_iff i).mp (henc ▸ h)⟩

/-- Settles O4: the decoder, run on each word. -/
theorem specWordsDecode : Obligations.SpecWordsDecode := by
  unfold Obligations.SpecWordsDecode
  decide

end Sys2Proof
end

section
/-! The rows of the opcode table: a word passes the test of a row exactly when it decodes to a command of that row,
and the obligation O3 (R93). -/

namespace Sys2Proof

/-! ### One row for each mnemonic -/

/-- The command of the same row whose operands are all 0. -/
def Instr.row : Instr → Instr
  | .nop => .nop
  | .rst => .rst
  | .clr => .clr
  | .li _ _ => .li 0 0
  | .lb _ _ => .lb 0 0
  | .sb _ _ => .sb 0 0
  | .csrr _ _ => .csrr 0 0
  | .csrw _ _ => .csrw 0 0
  | .gexp _ _ => .gexp 0 0
  | .glog _ _ => .glog 0 0
  | .gfmul _ _ _ => .gfmul 0 0 0
  | .gfadd _ _ _ => .gfadd 0 0 0
  | .pld _ _ _ => .pld 0 0 0
  | .pst _ _ _ => .pst 0 0 0
  | .plen _ _ => .plen 0 0
  | .pget _ _ _ => .pget 0 0 0
  | .pmul _ _ _ => .pmul 0 0 0
  | .pmod _ _ _ => .pmod 0 0 0
  | .pshift _ _ _ => .pshift 0 0 0
  | .pgen _ _ => .pgen 0 0
  | .rsgen => .rsgen
  | .ilv => .ilv
  | .bchfmt _ _ _ => .bchfmt 0 0 0
  | .bchver _ _ => .bchver 0 0
  | .minit => .minit
  | .mplace => .mplace
  | .mrd _ _ _ => .mrd 0 0 0
  | .mmeta => .mmeta
  | .mskbit _ _ _ _ => .mskbit 0 0 0 0
  | .mapply _ => .mapply 0
  | .mscore _ _ => .mscore 0 0
  | .mmask => .mmask
  | .encode => .encode

/-- The 33 rows of the table. -/
def tableRows : List Instr :=
  [.nop, .rst, .clr, .li 0 0, .lb 0 0, .sb 0 0, .csrr 0 0, .csrw 0 0, .gexp 0 0, .glog 0 0, .gfmul 0 0 0,
    .gfadd 0 0 0, .pld 0 0 0, .pst 0 0 0, .plen 0 0, .pget 0 0 0, .pmul 0 0 0, .pmod 0 0 0, .pshift 0 0 0,
    .pgen 0 0, .rsgen, .ilv, .bchfmt 0 0 0, .bchver 0 0, .minit, .mplace, .mrd 0 0 0, .mmeta,
    .mskbit 0 0 0 0, .mapply 0, .mscore 0 0, .mmask, .encode]

theorem Instr.row_mem (i : Instr) : i.row ∈ tableRows := by cases i <;> simp [row, tableRows]

@[simp] theorem Instr.mnemonic_row (i : Instr) : i.row.mnemonic = i.mnemonic := by cases i <;> rfl

@[simp] theorem rowMask_row (i : Instr) : rowMask i.row = rowMask i := by cases i <;> rfl

@[simp] theorem rowMatch_row (i : Instr) : rowMatch i.row = rowMatch i := by cases i <;> rfl

theorem nodup_mnemonic_tableRows : (tableRows.map Instr.mnemonic).Nodup := by decide

/-- The mnemonic of a command names its row (R86). -/
theorem Instr.row_eq_of_mnemonic_eq {i j : Instr} (h : i.mnemonic = j.mnemonic) : i.row = j.row :=
  List.inj_on_of_nodup_map nodup_mnemonic_tableRows i.row_mem j.row_mem
    ((mnemonic_row i).trans (h.trans (mnemonic_row j).symm))

/-- The word of a command passes the test of its row (R93). -/
theorem encode_and_rowMask (i : Instr) : encode i &&& rowMask i = rowMatch i := by
  open Laws in
  cases i
  case nop => exact TableRow.nop
  case rst => exact TableRow.rst
  case clr => exact TableRow.clr
  case li => exact TableRow.li _ _
  case lb => exact TableRow.lb _ _
  case sb => exact TableRow.sb _ _
  case csrr => exact TableRow.csrr _ _
  case csrw => exact TableRow.csrw _ _
  case gexp => exact TableRow.gexp _ _
  case glog => exact TableRow.glog _ _
  case gfmul => exact TableRow.gfmul _ _ _
  case gfadd => exact TableRow.gfadd _ _ _
  case pld => exact TableRow.pld _ _ _
  case pst => exact TableRow.pst _ _ _
  case plen => exact TableRow.plen _ _
  case pget => exact TableRow.pget _ _ _
  case pmul => exact TableRow.pmul _ _ _
  case pmod => exact TableRow.pmod _ _ _
  case pshift => exact TableRow.pshift _ _ _
  case pgen => exact TableRow.pgen _ _
  case rsgen => exact TableRow.rsgen
  case ilv => exact TableRow.ilv
  case bchfmt => exact TableRow.bchfmt _ _ _
  case bchver => exact TableRow.bchver _ _
  case minit => exact TableRow.minit
  case mplace => exact TableRow.mplace
  case mrd => exact TableRow.mrd _ _ _
  case mmeta => exact TableRow.mmeta
  case mskbit => exact TableRow.mskbit _ _ _ _
  case mapply => exact TableRow.mapply _
  case mscore => exact TableRow.mscore _ _
  case mmask => exact TableRow.mmask
  case encode => exact TableRow.encode

/-! ### The test of a row on the fields of a word -/

/-- The check `m` of the field `f` passes wherever the bits of `mask` are 0 in `f`. -/
def PassesUnder {α : Type} {n : Nat} (m : Except Illegal α) (f mask : BitVec n) : Prop :=
  f &&& mask = 0 → ∃ a, m = .ok a

theorem PassesUnder.scalar {f : BitVec 4} {e : Illegal} : PassesUnder (xField f e) f 8 := by
  intro h
  have hlt : ∀ f : BitVec 4, f &&& 8 = 0 → f.toNat < 8 := by decide
  exact ⟨_, dif_pos (hlt f h)⟩

theorem PassesUnder.polynomial {f : BitVec 4} {e : Illegal} : PassesUnder (pField f e) f 12 := by
  intro h
  have hlt : ∀ f : BitVec 4, f &&& 12 = 0 → f.toNat < 4 := by decide
  exact ⟨_, dif_pos (hlt f h)⟩

theorem PassesUnder.unused {f : BitVec 4} {e : Illegal} : PassesUnder (noField f e) f 15 := by
  intro h
  have hzero : ∀ f : BitVec 4, f &&& 15 = 0 → f = 0 := by decide
  exact ⟨(), noField_eq_ok.mpr (hzero f h)⟩

theorem PassesUnder.unusedImm {w : Word} : PassesUnder (noImm w) (imm12Field w) 0xFFF := fun h =>
  ⟨(), if_pos ((BitVec.and_allOnes (x := imm12Field w)).symm.trans h)⟩

theorem PassesUnder.usedImm {w : Word} : PassesUnder (.ok (imm12 w)) (imm12Field w) 0 := fun _ => ⟨_, rfl⟩

/-- A test whose mask covers the opcode and parts of the fields fixes the opcode and those parts. -/
theorem fields_of_masked {w : Word} {op : BitVec 8} {md ma mb : BitVec 4} {mi : BitVec 12}
    (h : w &&& packR 0xFF md ma mb mi = packR op 0 0 0 0) :
    opField w = op ∧ rdField w &&& md = 0 ∧ raField w &&& ma = 0 ∧ rbField w &&& mb = 0 ∧
      imm12Field w &&& mi = 0 := by
  rw [← packR_fields w, packR_and] at h
  have hop := congrArg opField h
  have hrd := congrArg rdField h
  have hra := congrArg raField h
  have hrb := congrArg rbField h
  have hi := congrArg imm12Field h
  simp only [opField_packR, rdField_packR, raField_packR, rbField_packR, imm12Field_packR] at hop hrd hra hrb hi
  exact ⟨(BitVec.and_allOnes (x := opField w)).symm.trans hop, hrd, hra, hrb, hi⟩

/-- The word `w` decodes to a command of the row of `i`. -/
def DecodesInRow (w : Word) (i : Instr) : Prop := ∃ j, decode w = .ok j ∧ j.mnemonic = i.mnemonic

section
variable {w : Word} {i : Instr}

theorem decodesInRow_of_fmtN (hmask : rowMask i = BitVec.allOnes 32) (hdec : decode (rowMatch i) = .ok i)
    (h : w &&& rowMask i = rowMatch i) : DecodesInRow w i := by
  rw [hmask, BitVec.and_allOnes] at h
  exact ⟨i, h ▸ hdec, rfl⟩

variable {op : BitVec 8} {md ma mb : BitVec 4} {mi : BitVec 12}
  (hmask : rowMask i = packR 0xFF md ma mb mi) (hmatch : rowMatch i = packR op 0 0 0 0)
include hmask hmatch

/-- Every format R: the four checks pass, so the word is a command. -/
theorem decodesInRow_of_fmtR {α β γ δ : Type} {mrd : Except Illegal α} {mra : Except Illegal β}
    {mrb : Except Illegal γ} {mimm : Except Illegal δ} {mk : α → β → γ → δ → Instr}
    (hrd : PassesUnder mrd (rdField w) md) (hra : PassesUnder mra (raField w) ma)
    (hrb : PassesUnder mrb (rbField w) mb) (himm : PassesUnder mimm (imm12Field w) mi)
    (hdec : opField w = op →
      decode w = (do let a ← mrd; let b ← mra; let c ← mrb; let n ← mimm; .ok (mk a b c n)))
    (hname : ∀ a b c n, (mk a b c n).mnemonic = i.mnemonic)
    (h : w &&& rowMask i = rowMatch i) : DecodesInRow w i := by
  rw [hmask, hmatch] at h
  obtain ⟨hop, hd, ha, hb, hi⟩ := fields_of_masked h
  obtain ⟨a, rfl⟩ := hrd hd
  obtain ⟨b, rfl⟩ := hra ha
  obtain ⟨c, rfl⟩ := hrb hb
  obtain ⟨n, rfl⟩ := himm hi
  exact ⟨mk a b c n, hdec hop, hname a b c n⟩

end

theorem decodesInRow_li {w : Word} {rd : XReg} {imm : Int} (h : w &&& rowMask (.li rd imm) = rowMatch (.li rd imm)) :
    DecodesInRow w (.li rd imm) := by
  have hmask : rowMask (.li rd imm) = packR 0xFF 8 0 0 0 := rfl
  have hmatch : rowMatch (.li rd imm) = packR 0x08 0 0 0 0 := rfl
  rw [hmask, hmatch] at h
  obtain ⟨hop, hd, -⟩ := fields_of_masked h
  obtain ⟨a, ha⟩ := PassesUnder.scalar (e := .badRd) hd
  refine ⟨.li a (imm20Field w).toInt, ?_, rfl⟩
  rw [Machine.decode_li hop, fmtI, xRd, ha]
  rfl

/-! ### Every row -/

open Machine in
/-- A word that passes the test of a row decodes to a command of that row (R93). -/
theorem decodesInRow_of_masked {w : Word} {i : Instr} (h : w &&& rowMask i = rowMatch i) : DecodesInRow w i := by
  cases i
  case nop | rst | clr | rsgen | ilv | minit | mplace | mmeta | mmask | encode =>
    exact decodesInRow_of_fmtN rfl rfl h
  case li => exact decodesInRow_li h
  case lb =>
    exact decodesInRow_of_fmtR rfl rfl .scalar .scalar .unused .unusedImm decode_lb (fun _ _ _ _ => rfl) h
  case sb =>
    exact decodesInRow_of_fmtR rfl rfl .scalar .scalar .unused .unusedImm decode_sb (fun _ _ _ _ => rfl) h
  case gexp =>
    exact decodesInRow_of_fmtR rfl rfl .scalar .scalar .unused .unusedImm decode_gexp (fun _ _ _ _ => rfl) h
  case glog =>
    exact decodesInRow_of_fmtR rfl rfl .scalar .scalar .unused .unusedImm decode_glog (fun _ _ _ _ => rfl) h
  case bchver =>
    exact decodesInRow_of_fmtR rfl rfl .scalar .scalar .unused .unusedImm decode_bchver (fun _ _ _ _ => rfl) h
  case gfmul =>
    exact decodesInRow_of_fmtR rfl rfl .scalar .scalar .scalar .unusedImm decode_gfmul (fun _ _ _ _ => rfl) h
  case gfadd =>
    exact decodesInRow_of_fmtR rfl rfl .scalar .scalar .scalar .unusedImm decode_gfadd (fun _ _ _ _ => rfl) h
  case bchfmt =>
    exact decodesInRow_of_fmtR rfl rfl .scalar .scalar .scalar .unusedImm decode_bchfmt (fun _ _ _ _ => rfl) h
  case mrd =>
    exact decodesInRow_of_fmtR rfl rfl .scalar .scalar .scalar .unusedImm decode_mrd (fun _ _ _ _ => rfl) h
  case pld =>
    exact decodesInRow_of_fmtR rfl rfl .polynomial .scalar .scalar .unusedImm decode_pld (fun _ _ _ _ => rfl) h
  case pst =>
    exact decodesInRow_of_fmtR rfl rfl .polynomial .scalar .scalar .unusedImm decode_pst (fun _ _ _ _ => rfl) h
  case plen =>
    exact decodesInRow_of_fmtR rfl rfl .scalar .polynomial .unused .unusedImm decode_plen (fun _ _ _ _ => rfl) h
  case pget =>
    exact decodesInRow_of_fmtR rfl rfl .scalar .polynomial .scalar .unusedImm decode_pget (fun _ _ _ _ => rfl) h
  case pmul =>
    exact decodesInRow_of_fmtR rfl rfl .polynomial .polynomial .polynomial .unusedImm decode_pmul (fun _ _ _ _ => rfl) h
  case pmod =>
    exact decodesInRow_of_fmtR rfl rfl .polynomial .polynomial .polynomial .unusedImm decode_pmod (fun _ _ _ _ => rfl) h
  case pshift =>
    exact decodesInRow_of_fmtR rfl rfl .polynomial .polynomial .scalar .unusedImm decode_pshift (fun _ _ _ _ => rfl) h
  case pgen =>
    exact decodesInRow_of_fmtR rfl rfl .polynomial .scalar .unused .unusedImm decode_pgen (fun _ _ _ _ => rfl) h
  case csrr =>
    exact decodesInRow_of_fmtR (mk := fun a _ _ n => .csrr a n) rfl rfl .scalar .unused .unused .usedImm decode_csrr
      (fun _ _ _ _ => rfl) h
  case mscore =>
    exact decodesInRow_of_fmtR (mk := fun a _ _ n => .mscore a n) rfl rfl .scalar .unused .unused .usedImm decode_mscore
      (fun _ _ _ _ => rfl) h
  case csrw =>
    exact decodesInRow_of_fmtR (mk := fun _ a _ n => .csrw n a) rfl rfl .unused .scalar .unused .usedImm decode_csrw
      (fun _ _ _ _ => rfl) h
  case mskbit =>
    exact decodesInRow_of_fmtR (mk := .mskbit) rfl rfl .scalar .scalar .scalar .usedImm decode_mskbit
      (fun _ _ _ _ => rfl) h
  case mapply =>
    exact decodesInRow_of_fmtR (mk := fun _ _ _ n => .mapply n) rfl rfl .unused .unused .unused .usedImm decode_mapply
      (fun _ _ _ _ => rfl) h

/-- A command that decodes from a word passes the test of every row of its mnemonic (R89, R93). -/
theorem masked_of_decodesInRow {w : Word} {i : Instr} (h : DecodesInRow w i) : w &&& rowMask i = rowMatch i := by
  obtain ⟨j, hj, hname⟩ := h
  have hrow := Instr.row_eq_of_mnemonic_eq hname
  rw [← rowMask_row i, ← rowMatch_row i, ← hrow, rowMask_row, rowMatch_row, ← encode_of_decode hj]
  exact encode_and_rowMask j

theorem masked_iff_decodesInRow {w : Word} {i : Instr} : w &&& rowMask i = rowMatch i ↔ DecodesInRow w i :=
  ⟨decodesInRow_of_masked, masked_of_decodesInRow⟩

/-- Settles O3: each test is decoding to a command of its row, and a word decodes to one command or to none. -/
theorem legalWordsAreTableRows : Obligations.LegalWordsAreTableRows := by
  refine ⟨fun w i => masked_iff_decodesInRow, fun w i j hi hj => ?_, fun w => ⟨fun hnone => ?_, ?_⟩⟩
  · obtain ⟨k, hk, hki⟩ := decodesInRow_of_masked hi
    obtain ⟨k', hk', hkj⟩ := decodesInRow_of_masked hj
    rw [hk] at hk'
    cases hk'
    exact hki.symm.trans hkj
  · match hw : decode w with
    | .error e => exact ⟨e, rfl⟩
    | .ok i => exact absurd (masked_of_decodesInRow ⟨i, hw, rfl⟩) (hnone i)
  · rintro ⟨e, he⟩ i hi
    obtain ⟨j, hj, -⟩ := decodesInRow_of_masked hi
    rw [he] at hj
    cases hj

end Sys2Proof
end

section
/-! The host's ports and the step: what each action of the host does to a faulted block and to one that is not, and
the obligations O5, O6, O7, O9, O10 (R72, R92, R268, R271, R272, R295, R305). -/

namespace Sys2Proof.Machine

/-! ### The reset state (R48) -/

theorem exec_rst (s : State) : exec .rst s = .next s.afterReset := rfl

theorem decode_rstWord : decode rstWord = .ok .rst := rfl

theorem State.reset_x (r : XReg) : State.reset.x[r] = none := by simp [State.reset]

theorem State.reset_p (r : PReg) : State.reset.p[r] = none := by simp [State.reset]

theorem State.reset_csr {n : Nat} (h : n < 14) : State.reset.csr n = some 0 := by
  revert n
  decide

/-- Settles O10: the reset state, field by field. -/
theorem resetState : Obligations.ResetState :=
  ⟨decode_rstWord, exec_rst, State.reset_x, State.reset_p, fun _ => rfl, rfl, rfl, rfl, rfl, fun _ => State.reset_csr⟩

/-! ### The ports (R72, R92, R271) -/

theorem State.faulted_eq_true {s : State} (h : s.err ≠ .noError) : s.faulted = true := decide_eq_true h

theorem State.faulted_eq_false {s : State} (h : s.err = .noError) : s.faulted = false :=
  decide_eq_false (not_not.mpr h)

theorem commandPort_rstWord (s : State) : commandPort rstWord s = .next s.afterReset := by
  by_cases h : s.err = .noError
  · rw [commandPort_of_legal h decode_rstWord, exec_rst]
  · rw [commandPort, if_pos (State.faulted_eq_true h), if_pos rfl]

/-- A faulted block drops every word but `RST`. -/
theorem commandPort_of_faulted {w : Word} {s : State} (h : s.err ≠ .noError) (hw : w ≠ rstWord) :
    commandPort w s = .next s := by
  rw [commandPort, if_pos (State.faulted_eq_true h), if_neg hw]

theorem memWritePort_of_faulted {a : BitVec 13} {b : Byte} {s : State} (h : s.err ≠ .noError) :
    memWritePort a b s = s := if_pos (State.faulted_eq_true h)

theorem memWritePort_of_noError {a : BitVec 13} {b : Byte} {s : State} (h : s.err = .noError) :
    memWritePort a b s = { s with mem := Memory.put s.mem a.toNat b } := by
  rw [memWritePort, State.faulted_eq_false h]
  rfl

/-- A faulted block is changed by the two ways of resetting it alone. -/
theorem hostAction_of_faulted {e : HostEvent} {s : State} (h : s.err ≠ .noError)
    (he : e ≠ .hardReset ∧ e ≠ .command rstWord) : hostAction e s = .next s := by
  obtain ⟨hreset, hrst⟩ := he
  cases e with
  | command w => exact commandPort_of_faulted h fun hw => hrst (congrArg _ hw)
  | memWrite a b => exact congrArg _ (memWritePort_of_faulted h)
  | hardReset => exact absurd rfl hreset

/-! ### The step (R305) -/

theorem step_of_inbox_nil {s : State} (h : s.inbox = []) : step s = .next s := by rw [step, takeAction, h]

theorem step_of_inbox_cons {s : State} {e : HostEvent} {rest : List HostEvent} (h : s.inbox = e :: rest) :
    step s = hostAction e { s with inbox := rest } := by rw [step, takeAction, h]

theorem step_presentWord (s : State) (w : Word) : step (presentWord s w) = commandPort w s :=
  (step_of_inbox_cons (s := presentWord s w) rfl).trans rfl

theorem step_withFetchWord (s : State) (w : Word) : step (s.withFetchWord 32 w.toNat) = commandPort w s := by
  rw [State.withFetchWord, Nat.mod_eq_of_lt w.isLt, BitVec.ofNat_toNat, BitVec.setWidth_eq, step_presentWord]

/-- Settles O5: each action by the port it goes to. -/
theorem stepPerformsHostAction : Obligations.StepPerformsHostAction := by
  intro s rest s'
  refine ⟨step_of_inbox_nil, fun w hs => ?_, fun a b hs => ?_, step_of_inbox_cons, fun h i hi => ?_⟩
  · rw [step_of_inbox_cons hs]
    refine ⟨fun h i hw => commandPort_of_legal (s := s') h hw, fun h e hw => commandPort_of_illegal (s := s') h hw,
      ?_, fun h hw => commandPort_of_faulted (s := s') h hw⟩
    rintro h rfl
    exact commandPort_rstWord s'
  · rw [step_of_inbox_cons hs]
    refine ⟨fun h => ⟨Memory.put s.mem a.toNat b, congrArg _ (memWritePort_of_noError (s := s') h),
      Memory.byteAt_put_self .., fun k hk => Memory.byteAt_put_ne _ _ hk⟩,
      fun h => congrArg _ (memWritePort_of_faulted (s := s') h)⟩
  · rw [step_withFetchWord, commandPort_of_legal h (decodeEncodeRoundTrip i hi)]

theorem run_succ_of_step {s t : State} (k : Nat) (h : step s = .next t) :
    Host.Core.run core (k + 1) s = Host.Core.run core k t := by
  have h' : core.step s = .next t := h
  simp only [Host.Core.run, h']

/-- Settles O6: by induction on the actions; each leaves everything but `inbox`. -/
theorem faultedBlockIsFrozen : Obligations.FaultedBlockIsFrozen := by
  intro s evs rest h hs hevs
  induction evs generalizing s with
  | nil => exact congrArg Host.Outcome.next (by rw [← List.nil_append rest, ← hs])
  | cons e evs ih =>
    obtain ⟨he, hevs⟩ := List.forall_mem_cons.mp hevs
    have hstep : step s = .next { s with inbox := evs ++ rest } :=
      (step_of_inbox_cons hs).trans (hostAction_of_faulted h he)
    exact (run_succ_of_step _ hstep).trans (ih { s with inbox := evs ++ rest } h rfl hevs)

/-- The word `RST` and hardware reset give the reset state from every state (R272, R295). -/
theorem step_of_reset {s : State} {rest : List HostEvent}
    (h : s.inbox = .command rstWord :: rest ∨ s.inbox = .hardReset :: rest) :
    step s = .next { State.reset with inbox := rest } := by
  rcases h with h | h
  · rw [step_of_inbox_cons h]
    exact commandPort_rstWord _
  · rw [step_of_inbox_cons h]
    rfl

/-- Settles O7: the other actions leave a faulted block as it is, so faulted. -/
theorem resetIsTheOnlyWayOut : Obligations.ResetIsTheOnlyWayOut := by
  refine ⟨fun s t hs hstep ht => ?_, fun s rest => step_of_reset⟩
  match hin : s.inbox with
  | [] =>
    rw [step_of_inbox_nil hin] at hstep
    cases hstep
    exact absurd ht hs
  | e :: rest =>
    by_cases he : e = .hardReset ∨ e = .command rstWord
    · have hreset : s.inbox = .command rstWord :: rest ∨ s.inbox = .hardReset :: rest := by
        rw [hin]
        exact he.symm.imp (congrArg (· :: rest)) (congrArg (· :: rest))
      rw [step_of_reset hreset] at hstep
      cases hstep
      exact ⟨rest, hin ▸ hreset, rfl⟩
    · have hs' : ({ s with inbox := rest } : State).err ≠ .noError := hs
      rw [step_of_inbox_cons hin, hostAction_of_faulted hs' (not_or.mp he)] at hstep
      cases hstep
      exact absurd ht hs

/-! ### The sub-causes of a command (R268) -/

/-- Settles O9: a command that leaves the block faulted has a rule that raises, within its row. -/
theorem commandsRaiseTheirCauses : Obligations.CommandsRaiseTheirCauses := by
  intro i s c hs h
  obtain hok | ⟨c', hc', ht⟩ := exec_eq_next.mp h
  · cases noError_of_ruleOf_eq_ok hs hok
  · have hc : c = c' := Option.some.inj (congrArg State.info ht)
    exact hc ▸ ruleOf_raisesIn i s c' hc'

end Sys2Proof.Machine
end

section
/-! What the rule of each command but `RST` and `ENCODE` does to the state, said once, and the two ways in which a
property passes through it: to the rule of any command, and to every step (R12, R257, R305). -/

namespace Sys2Proof.Machine

/-- The state that a rule can answer, by the command: what it updates, and the checks that later proofs need. -/
inductive Effect (s : State) : Instr → State → Prop
  | nop : Effect s .nop s
  | clr : Effect s .clr { s with stage := .idle, flen := 0, elen := 0, resmask := 0, score := 0, mat := none }
  | scalar {i : Instr} {rd : XReg} (hd : scalarDest i = some rd) (v : Int) : Effect s i (s.setX rd v)
  | polynomial {i : Instr} {rd : PReg} {q : Poly} (hd : polyDest i = some rd) (hq : PolyOk s → Poly.wf q = true) :
      Effect s i (s.setP rd q)
  | store {i : Instr} {a : Nat} {bs : List Byte} (hin : a + bs.length ≤ 8192)
      (hst : ∀ k, inArea k a bs.length → storesTo i s k) :
      Effect s i { s with mem := Memory.putBytes s.mem a bs }
  | csr {n : Nat} {ra : XReg} {v : Int} {t : State} (h : s.writeCsr n v = some t) : Effect s (.csrw n ra) t
  | rsgen {bl : List Block} {e : List Byte} (hstage : s.stage = .idle) (hbl : s.blocks = .ok bl)
      (hlen : e.length = ecTotal bl) (hin : s.eaddr.toNat + ecTotal bl ≤ 8192) :
      Effect s .rsgen { s with
        mem := Memory.putBytes s.mem s.eaddr.toNat e
        elen := BitVec.ofNat 14 (ecTotal bl)
        stage := .ecDone }
  | ilv {bl : List Block} {f : List Byte} (hstage : s.stage = .ecDone) (hbl : s.blocks = .ok bl)
      (hec : ecTotal bl = s.elen.toNat) (hlen : f.length = s.dlen.toNat + ecTotal bl)
      (hin : s.faddr.toNat + (s.dlen.toNat + ecTotal bl) ≤ 8192) :
      Effect s .ilv { s with
        mem := Memory.putBytes s.mem s.faddr.toNat f
        flen := BitVec.ofNat 14 (s.dlen.toNat + ecTotal bl)
        stage := .ilvDone }
  | minit (hstage : s.stage = .ilvDone) (h1 : 1 ≤ s.typenum) (h40 : s.typenum ≤ 40) :
      Effect s .minit { s with mat := some (layout s.typenum), stage := .layout }
  | mplace {m : Mat} (f : List Byte) (hstage : s.stage = .layout) (hm : s.mat = some m) :
      Effect s .mplace { s with mat := some (place m f), stage := .placed }
  | mapply {k : Nat} {m : Mat} (hstage : s.stage = .placed) (hm : s.mat = some m) :
      Effect s (.mapply k) { s with mat := some (applymask m k) }
  | mmask {k : Nat} {m : Mat} (hstage : s.stage = .placed) (hm : s.mat = some m) :
      Effect s .mmask { s with
        mat := some (applymask m k)
        resmask := BitVec.ofNat 4 (8 ||| k)
        score := BitVec.ofNat 31 (penalty (applymask m k))
        stage := .masked }
  | mmeta {m : Mat} (hstage : s.stage = .masked) (hm : s.mat = some m) :
      Effect s .mmeta { s with mat := some (writemeta m s.ecl s.resPattern), stage := .done }

/-! ### The rules that write a polynomial register (R24, R26) -/

theorem Poly.wf_iff {q : Poly} : Poly.wf q = true ↔ trimmed q = true ∧ q.length ≤ 256 := by
  rw [Poly.wf, Bool.and_eq_true, decide_eq_true_iff]

/-- A sequence of 1 to 256 coefficients fits in a register once it is trimmed. -/
theorem Poly.wf_trim {bs : List Byte} (hne : bs ≠ []) (hlen : bs.length ≤ 256) : Poly.wf (trim bs) = true :=
  Poly.wf_iff.mpr ⟨trimmed_trim hne, (length_trim_le bs).trans hlen⟩

theorem Poly.wf_pmul {a b : Poly} (ha : a ≠ []) (hb : b ≠ []) (hlen : a.length + b.length - 1 ≤ 256) :
    Poly.wf (pmul a b) = true :=
  Poly.wf_trim (convolve_ne_nil ha hb) (by rwa [length_convolve])

theorem Poly.wf_pmod {a b r : Poly} (ha : Poly.wf a = true) (hb : Poly.wf b = true) (h : pmod a b = .ok r) :
    Poly.wf r = true := by
  obtain ⟨hat, hlen⟩ := Poly.wf_iff.mp ha
  obtain ⟨hbt, -⟩ := Poly.wf_iff.mp hb
  by_cases hb0 : b = [0]
  · subst hb0
    by_cases ha0 : a = [0]
    · subst ha0
      rw [pmod_zero_dividend] at h
      cases h
      exact ha
    · exact absurd ((pmod_zero_divisor hat ha0).symm.trans h) raise_ne_ok
  · obtain ⟨q, r', hr', hdiv⟩ := pmod_division hat hbt hb0
    obtain rfl : r = r' := Except.ok.inj (h.symm.trans hr')
    exact Poly.wf_iff.mpr ⟨hdiv.trimmed_remainder, hdiv.remainder_le.trans hlen⟩

theorem PolyOk.ne_nil {s : State} {r : PReg} {q : Poly} (hs : PolyOk s) (h : s.p[r] = some q) : q ≠ [] :=
  ne_nil_of_trimmed (Poly.wf_iff.mp (hs r q h)).1

/-- A rule with a polynomial destination writes that register alone, with a polynomial that it may hold if the
registers it reads hold such ones. -/
theorem exists_setP_wf_of_ruleOf_eq_ok {i : Instr} {rd : PReg} {s t : State} (hd : polyDest i = some rd)
    (h : ruleOf i s = .ok t) : ∃ q, (PolyOk s → Poly.wf q = true) ∧ t = s.setP rd q := by
  cases i
  case pld =>
    cases hd
    obtain ⟨a, n, bs, -, -, h1, h256, hbs, ht⟩ := pldRule_eq_ok h
    have hlen := State.length_of_memRead_eq_ok hbs
    exact ⟨_, fun _ => Poly.wf_trim (List.ne_nil_of_length_pos (by omega)) (by omega), ht⟩
  case pmul =>
    cases hd
    obtain ⟨a, b, ha, hb, hlen, ht⟩ := pmulRule_eq_ok h
    exact ⟨_, fun hs => Poly.wf_pmul (hs.ne_nil ha) (hs.ne_nil hb) hlen, ht⟩
  case pmod =>
    cases hd
    obtain ⟨a, b, r, ha, hb, hr, ht⟩ := pmodRule_eq_ok h
    exact ⟨r, fun hs => Poly.wf_pmod (hs _ a ha) (hs _ b hb) hr, ht⟩
  case pshift =>
    cases hd
    obtain ⟨a, n, ha, -, h0, h256, ht⟩ := pshiftRule_eq_ok h
    refine ⟨_, fun hs => Poly.wf_trim (List.append_ne_nil_of_left_ne_nil (hs.ne_nil ha) _) ?_, ht⟩
    rw [List.length_append, length_zeros]
    omega
  case pgen =>
    cases hd
    obtain ⟨n, -, h0, h255, ht⟩ := pgenRule_eq_ok h
    exact ⟨_, fun _ => Poly.wf_iff.mpr ⟨trimmed_genpoly _, by rw [length_genpoly]; omega⟩, ht⟩
  all_goals cases hd

/-! ### The rules that store to `M` -/

theorem sbRule_effect {rd ra : XReg} {s t : State} (h : sbRule rd ra s = .ok t) : Effect s (.sb rd ra) t := by
  obtain ⟨v, a, -, ha, -, -, h0, hlt, rfl⟩ := sbRule_eq_ok h
  exact .store (by rw [List.length_singleton]; omega) fun k hk => ⟨a, ha, hk⟩

theorem pstRule_effect {rd : PReg} {ra rb : XReg} {s t : State} (h : pstRule rd ra rb s = .ok t) :
    Effect s (.pst rd ra rb) t := by
  obtain ⟨q, a, n, -, ha, hn, hq, -, h0, hlt, rfl⟩ := pstRule_eq_ok h
  have hlen : (padleft q n.toNat).length = n.toNat := length_padleft (by omega)
  exact .store (by rw [hlen]; omega) fun k hk => ⟨a, n, ha, hn, hlen ▸ hk⟩

/-- `RSGEN` stores as many bytes as the blocks have EC codewords (R213). -/
theorem exists_ecs_of_rsgenRule_eq_ok {s t : State} (h : rsgenRule s = .ok t) :
    ∃ (bl : List Block) (e : List Byte), s.stage = .idle ∧ s.blocks = .ok bl ∧ e.length = ecTotal bl ∧
      s.eaddr.toNat + ecTotal bl ≤ 8192 ∧ t = { s with
        mem := Memory.putBytes s.mem s.eaddr.toNat e
        elen := BitVec.ofNat 14 (ecTotal bl)
        stage := .ecDone } := by
  obtain ⟨bl, d, e, hstage, hbl, -, hin, he, -, ht⟩ := rsgenRule_eq_ok h
  obtain ⟨hec, -⟩ := State.blocks_eq_ok hbl
  obtain ⟨ecs, hecs, hall⟩ := exists_rsecAll_eq_ok_flatten hec d
  obtain rfl : e = ecs.flatten := Except.ok.inj (he.symm.trans hall)
  exact ⟨bl, _, hstage, hbl, hecs.length_flatten, hin, ht⟩

/-- `ILV` stores as many bytes as the data and the EC codewords have together (R214). -/
theorem exists_stream_of_ilvRule_eq_ok {s t : State} (h : ilvRule s = .ok t) :
    ∃ (bl : List Block) (f : List Byte), s.stage = .ecDone ∧ s.blocks = .ok bl ∧ ecTotal bl = s.elen.toNat ∧
      f.length = s.dlen.toNat + ecTotal bl ∧ s.faddr.toNat + (s.dlen.toNat + ecTotal bl) ≤ 8192 ∧ t = { s with
        mem := Memory.putBytes s.mem s.faddr.toNat f
        flen := BitVec.ofNat 14 (s.dlen.toNat + ecTotal bl)
        stage := .ilvDone } := by
  obtain ⟨bl, d, c, f, hstage, hbl, hec, hd, hc, hin, rfl, -, ht⟩ := ilvRule_eq_ok h
  obtain ⟨-, hsum⟩ := State.blocks_eq_ok hbl
  have hlen := length_interleave_cut ((State.length_of_memRead_eq_ok hd).trans hsum.symm)
    (State.length_of_memRead_eq_ok hc)
  exact ⟨bl, _, hstage, hbl, hec, hsum ▸ hlen, hin, ht⟩

/-! ### Every rule -/

theorem effect_of_ruleOf_eq_ok {i : Instr} {s t : State} (hrst : i ≠ .rst) (henc : i ≠ .encode)
    (h : ruleOf i s = .ok t) : Effect s i t := by
  cases i
  case li | lb | csrr | gexp | glog | gfmul | gfadd | plen | pget | bchfmt | bchver | mrd | mskbit | mscore =>
    obtain ⟨v, rfl⟩ := exists_setX_of_ruleOf_eq_ok rfl h
    exact .scalar rfl v
  case pld | pmul | pmod | pshift | pgen =>
    obtain ⟨q, hq, rfl⟩ := exists_setP_wf_of_ruleOf_eq_ok rfl h
    exact .polynomial rfl hq
  case nop => cases h; exact .nop
  case clr => cases h; exact .clr
  case rst => exact absurd rfl hrst
  case encode => exact absurd rfl henc
  case sb => exact sbRule_effect h
  case pst => exact pstRule_effect h
  case csrw => obtain ⟨v, -, hv⟩ := csrwRule_eq_ok h; exact .csr hv
  case rsgen =>
    obtain ⟨bl, e, hstage, hbl, hlen, hin, rfl⟩ := exists_ecs_of_rsgenRule_eq_ok h
    exact .rsgen hstage hbl hlen hin
  case ilv =>
    obtain ⟨bl, f, hstage, hbl, hec, hlen, hin, rfl⟩ := exists_stream_of_ilvRule_eq_ok h
    exact .ilv hstage hbl hec hlen hin
  case minit => obtain ⟨hstage, h1, h40, rfl⟩ := minitRule_eq_ok h; exact .minit hstage h1 h40
  case mplace => obtain ⟨f, m, hstage, -, hm, -, rfl⟩ := mplaceRule_eq_ok h; exact .mplace f hstage hm
  case mapply => obtain ⟨m, hstage, -, hm, rfl⟩ := mapplyRule_eq_ok h; exact .mapply hstage hm
  case mmask => obtain ⟨m, hstage, hm, rfl⟩ := mmaskRule_eq_ok h; exact .mmask hstage hm
  case mmeta => obtain ⟨m, hstage, hm, rfl⟩ := mmetaRule_eq_ok h; exact .mmeta hstage hm

/-! ### Properties that the rules keep -/

/-- `ENCODE` keeps what its six stages keep (R257). -/
theorem encodeRule_keeps {P : State → Prop} (hstage : ∀ i ∈ encodeStages, ∀ s t, Effect s i t → P s → P t)
    {s t : State} (h : encodeRule s = .ok t) (hs : P s) : P t := by
  obtain ⟨s1, s2, s3, s4, s5, h1, h2, h3, h4, h5, h6⟩ := encodeRule_eq_ok h
  have keeps {i : Instr} {u v : State} (hi : i ∈ encodeStages) (hrule : ruleOf i u = .ok v) : P u → P v :=
    hstage i hi u v (effect_of_ruleOf_eq_ok (by rintro rfl; revert hi; decide) (by rintro rfl; revert hi; decide) hrule)
  have hs1 := keeps (i := .rsgen) (by decide) h1 hs
  have hs2 := keeps (i := .ilv) (by decide) h2 hs1
  have hs3 := keeps (i := .minit) (by decide) h3 hs2
  have hs4 := keeps (i := .mplace) (by decide) h4 hs3
  have hs5 := keeps (i := .mmask) (by decide) h5 hs4
  exact keeps (i := .mmeta) (by decide) h6 hs5

/-- The commands whose effects make up the rule of `i`: itself, or the six stages. -/
def PartOf (j i : Instr) : Prop := j = i ∨ i = .encode ∧ j ∈ encodeStages

/-- The rule of a command other than `RST` keeps what the effects it is made of keep. -/
theorem ruleOf_keeps {P : State → Prop} {i : Instr} {s t : State} (hrst : i ≠ .rst)
    (hpart : ∀ j, PartOf j i → ∀ s t, Effect s j t → P s → P t) (h : ruleOf i s = .ok t) (hs : P s) : P t := by
  by_cases henc : i = .encode
  · subst henc
    exact encodeRule_keeps (fun j hj => hpart j (.inr ⟨rfl, hj⟩)) h hs
  · exact hpart i (.inl rfl) s t (effect_of_ruleOf_eq_ok hrst henc h) hs

/-- `P` holds after reset, and whatever a step can do keeps it. -/
structure Invariant (P : State → Prop) : Prop where
  reset : P State.reset
  inbox : ∀ s rest, P s → P { s with inbox := rest }
  latch : ∀ s c w, P s → P (s.latch c w)
  write : ∀ (s : State) (a : BitVec 13) (b : Byte), P s → P { s with mem := Memory.put s.mem a.toNat b }
  effect : ∀ i s t, Effect s i t → P s → P t

section
variable {P : State → Prop} (hP : Invariant P) {s t : State}
include hP

theorem Invariant.afterReset (s : State) : P s.afterReset := hP.inbox State.reset s.inbox hP.reset

theorem Invariant.exec {i : Instr} (h : exec i s = .next t) (hs : P s) : P t := by
  obtain hok | ⟨c, -, rfl⟩ := exec_eq_next.mp h
  · by_cases hrst : i = .rst
    · subst hrst
      cases hok
      exact hP.afterReset s
    · exact ruleOf_keeps hrst (fun j _ => hP.effect j) hok hs
  · exact hP.latch s c _ hs

theorem Invariant.commandPort {w : Word} (h : commandPort w s = .next t) (hs : P s) : P t := by
  by_cases herr : s.err = .noError
  · match hw : decode w with
    | .error e =>
      rw [commandPort_of_illegal herr hw] at h
      cases h
      exact hP.latch s _ w hs
    | .ok i =>
      rw [commandPort_of_legal herr hw] at h
      exact hP.exec h hs
  · by_cases hw : w = rstWord
    · subst hw
      rw [commandPort_rstWord] at h
      cases h
      exact hP.afterReset s
    · rw [commandPort_of_faulted herr hw] at h
      cases h
      exact hs

theorem Invariant.memWritePort (a : BitVec 13) (b : Byte) (hs : P s) : P (memWritePort a b s) := by
  by_cases herr : s.err = .noError
  · rw [memWritePort_of_noError herr]
    exact hP.write s a b hs
  · rwa [memWritePort_of_faulted herr]

theorem Invariant.hostAction {e : HostEvent} (h : hostAction e s = .next t) (hs : P s) : P t := by
  cases e with
  | command w => exact hP.commandPort h hs
  | memWrite a b => cases h; exact hP.memWritePort a b hs
  | hardReset => cases h; exact hP.afterReset s

/-- An invariant is kept by every step. -/
theorem Invariant.step (s t : State) (hs : P s) (h : step s = .next t) : P t := by
  match hin : s.inbox with
  | [] =>
    rw [step_of_inbox_nil hin] at h
    cases h
    exact hs
  | e :: rest =>
    rw [step_of_inbox_cons hin] at h
    exact hP.hostAction h (hP.inbox s rest hs)

end

end Sys2Proof.Machine
end

section
/-! The invariants of memory, of the polynomial registers and of the control registers, and the obligations O16 to
O19. -/

namespace Sys2Proof.Machine

/-! ### Memory (R61) -/

theorem State.writeCsr_mem {s t : State} {n : Nat} {v : Int} (h : s.writeCsr n v = some t) : t.mem = s.mem := by
  obtain ⟨-, rfl⟩ | ⟨-, rfl | rfl | rfl | rfl⟩ | ⟨-, rfl⟩ | ⟨-, rfl⟩ := State.writeCsr_cases h <;> rfl

theorem Effect.memOk {i : Instr} {s t : State} (h : Effect s i t) (hs : MemOk s) : MemOk t := by
  cases h
  case store hin _ => exact Memory.wf_putBytes _ _ _ hin hs
  case rsgen hlen hin => exact Memory.wf_putBytes _ _ _ (hlen ▸ hin) hs
  case ilv hlen hin => exact Memory.wf_putBytes _ _ _ (hlen ▸ hin) hs
  case csr h => rwa [MemOk, State.writeCsr_mem h]
  all_goals exact hs

theorem memOk_invariant : Invariant MemOk where
  reset := State.reset_mem_wf
  inbox _ _ hs := hs
  latch _ _ _ hs := hs
  write _ a b hs := Memory.wf_put b a.isLt hs
  effect _ _ _ h := h.memOk

/-- Settles O16: every write of a command lies inside `M`, and the write port has 13 address bits. -/
theorem stepKeepsMemory : Obligations.StepKeepsMemory := memOk_invariant.step

/-! ### The polynomial registers (R24, R26) -/

theorem State.writeCsr_p {s t : State} {n : Nat} {v : Int} (h : s.writeCsr n v = some t) : t.p = s.p := by
  obtain ⟨-, rfl⟩ | ⟨-, rfl | rfl | rfl | rfl⟩ | ⟨-, rfl⟩ | ⟨-, rfl⟩ := State.writeCsr_cases h <;> rfl

theorem PolyOk.setP {s : State} {r : PReg} {q : Poly} (hs : PolyOk s) (hq : Poly.wf q = true) :
    PolyOk (s.setP r q) := by
  intro r' q' h
  by_cases hr : r' = r
  · subst hr
    rw [State.setP_get_self] at h
    cases h
    exact hq
  · rw [State.setP_get_ne s q hr] at h
    exact hs r' q' h

theorem Effect.polyOk {i : Instr} {s t : State} (h : Effect s i t) (hs : PolyOk s) : PolyOk t := by
  cases h
  case polynomial hq _ => exact hs.setP (hq hs)
  case csr h => rwa [PolyOk, State.writeCsr_p h]
  all_goals exact hs

theorem polyOk_invariant : Invariant PolyOk where
  reset r q h := by rw [State.reset_p] at h; cases h
  inbox _ _ hs := hs
  latch _ _ _ hs := hs
  write _ _ _ hs := hs
  effect _ _ _ h := h.polyOk

/-- Settles O17: the commands that write a polynomial register trim what they write and bound its length. -/
theorem stepKeepsPolynomials : Obligations.StepKeepsPolynomials := polyOk_invariant.step

/-! ### The control registers (R31 to R40) -/

/-- The registers that `CSRW` alone writes. -/
def State.config (s : State) :
    BitVec 12 × BitVec 13 × BitVec 14 × BitVec 13 × BitVec 8 × BitVec 13 × BitVec 13 :=
  (s.cfg, s.daddr, s.dlen, s.baddr, s.nblk, s.eaddr, s.faddr)

/-- The fault registers, and the model's `inbox`. -/
def State.faultRegs (s : State) : ErrKind × Option SubCause × Word × List HostEvent :=
  (s.err, s.info, s.ecmd, s.inbox)

theorem State.writeCsr_faultRegs {s t : State} {n : Nat} {v : Int} (h : s.writeCsr n v = some t) :
    t.faultRegs = s.faultRegs := by
  obtain ⟨-, rfl⟩ | ⟨-, rfl | rfl | rfl | rfl⟩ | ⟨-, rfl⟩ | ⟨-, rfl⟩ := State.writeCsr_cases h <;> rfl

/-- No rule but that of `RST` writes a fault register (R31). -/
theorem Effect.faultRegs_eq {i : Instr} {s t : State} (h : Effect s i t) : t.faultRegs = s.faultRegs := by
  cases h
  case csr h => exact State.writeCsr_faultRegs h
  all_goals rfl

theorem Effect.config_eq {i : Instr} {s t : State} (h : Effect s i t) (hi : ∀ n ra, i ≠ .csrw n ra) :
    t.config = s.config := by
  cases h
  case csr => exact absurd rfl (hi _ _)
  all_goals rfl

theorem Effect.faultOk {i : Instr} {s t : State} (h : Effect s i t) (hs : FaultOk s) : FaultOk t := by
  obtain ⟨herr, hinfo, hecmd, -⟩ : t.err = s.err ∧ t.info = s.info ∧ t.ecmd = s.ecmd ∧ t.inbox = s.inbox := by
    simpa only [State.faultRegs, Prod.mk.injEq] using h.faultRegs_eq
  rwa [FaultOk, herr, hinfo, hecmd]

theorem faultOk_invariant : Invariant FaultOk where
  reset := .inl ⟨rfl, rfl, rfl⟩
  inbox _ _ hs := hs
  latch _ _ _ _ := .inr ⟨rfl, Option.some_ne_none _⟩
  write _ _ _ hs := hs
  effect _ _ _ h := h.faultOk

theorem typenum_le_of_cfgLegal {s : State} {v : Int} (hv : cfgLegal v = true) :
    State.typenum { s with cfg := BitVec.ofInt 12 v } ≤ 40 ∧ State.masksel { s with cfg := BitVec.ofInt 12 v } ≤ 8 := by
  rw [cfgLegal, Bool.and_eq_true, decide_eq_true_iff, decide_eq_true_iff] at hv
  exact hv.2

theorem toNat_ofInt_of_within {v : Int} {n : Nat} (hv : within v n = true) (hn : n < 2 ^ 14) :
    (BitVec.ofInt 14 v).toNat ≤ n := by
  rw [within, decide_eq_true_iff] at hv
  rw [BitVec.toNat_ofInt]
  omega

/-- `CSRW` writes a legal value or none (R108). -/
theorem CsrOk.writeCsr {s t : State} {n : Nat} {v : Int} (hs : CsrOk s) (h : s.writeCsr n v = some t) : CsrOk t := by
  obtain ⟨htype, hmask, hdlen⟩ := hs
  obtain ⟨hv, rfl⟩ | ⟨-, rfl | rfl | rfl | rfl⟩ | ⟨hv, rfl⟩ | ⟨-, rfl⟩ := State.writeCsr_cases h
  · obtain ⟨htype', hmask'⟩ := typenum_le_of_cfgLegal (s := s) hv
    exact ⟨htype', hmask', hdlen⟩
  case inr.inr.inl => exact ⟨htype, hmask, toNat_ofInt_of_within (n := 8192) hv (by decide)⟩
  all_goals exact ⟨htype, hmask, hdlen⟩

theorem Effect.csrOk {i : Instr} {s t : State} (h : Effect s i t) (hs : CsrOk s) : CsrOk t := by
  cases h
  case csr h => exact hs.writeCsr h
  all_goals exact hs

theorem csrOk_invariant : Invariant CsrOk where
  reset := by unfold CsrOk; decide
  inbox _ _ hs := hs
  latch _ _ _ hs := hs
  write _ _ _ hs := hs
  effect _ _ _ h := h.csrOk

/-- Settles O18: only faults and resets write the fault registers, and `CSRW` checks what it writes. -/
theorem stepKeepsControlRegisters : Obligations.StepKeepsControlRegisters :=
  ⟨faultOk_invariant.step, csrOk_invariant.step⟩

/-! ### The result registers (R41 to R43) -/

/-- The registers that the stages write, and `STAGE`. -/
def State.results (s : State) : Stage × BitVec 14 × BitVec 14 × BitVec 4 × BitVec 31 :=
  (s.stage, s.elen, s.flen, s.resmask, s.score)

theorem State.writeCsr_results {s t : State} {n : Nat} {v : Int} (h : s.writeCsr n v = some t) :
    t.results = s.results := by
  obtain ⟨-, rfl⟩ | ⟨-, rfl | rfl | rfl | rfl⟩ | ⟨-, rfl⟩ | ⟨-, rfl⟩ := State.writeCsr_cases h <;> rfl

theorem ResultOk.congr {s t : State} (hs : ResultOk s) (h : t.results = s.results) : ResultOk t := by
  simp only [State.results, Prod.mk.injEq] at h
  obtain ⟨hstage, helen, hflen, hmask, hscore⟩ := h
  rwa [ResultOk, hstage, helen, hflen, hmask, hscore]

theorem resultOk_iff_of_stage {s : State} {g : Stage} (h : s.stage = g) :
    ResultOk s ↔ (g = .idle → s.elen = 0) ∧ (g.code < 2 → s.flen = 0) ∧
      (g.code < 5 → s.resmask = 0 ∧ s.score = 0) ∧ (5 ≤ g.code → s.resmask.getLsbD 3 = true) ∧
      s.elen.toNat ≤ 8192 ∧ s.flen.toNat ≤ 8192 := by
  subst h
  rfl

/-- A stage that writes no result register keeps the invariant when it starts none of the stages that an invariant
of a result register names. -/
theorem ResultOk.setStage {s : State} {g g' : Stage} (m : Option Mat) (hs : ResultOk s) (hg : s.stage = g)
    (h2 : 2 ≤ g'.code) (h5 : 5 ≤ g'.code ↔ 5 ≤ g.code) : ResultOk { s with mat := m, stage := g' } := by
  obtain ⟨-, -, hlow, hhigh, hel, hfl⟩ := (resultOk_iff_of_stage hg).mp hs
  refine ⟨?_, fun h => absurd h (not_lt.mpr h2), fun h => hlow ?_, fun h => hhigh (h5.mp h), hel, hfl⟩
  · rintro rfl
    exact absurd h2 (by decide)
  · exact lt_of_not_ge fun h' => absurd (h5.mpr h') (not_le.mpr h)

theorem toNat_ofNat_le {n : Nat} (h : n ≤ 8192) : (BitVec.ofNat 14 n).toNat ≤ 8192 := by
  rw [BitVec.toNat_ofNat]
  omega

/-- `RESMASK[3]` is `VALID`, whatever the pattern (R42). -/
theorem valid_resmask (k : Nat) : (BitVec.ofNat 4 (8 ||| k)).getLsbD 3 = true := by
  rw [BitVec.getLsbD_ofNat, Nat.testBit_or]
  rfl

theorem Effect.resultOk {i : Instr} {s t : State} (h : Effect s i t) (hs : ResultOk s) : ResultOk t := by
  cases h
  case clr =>
    exact (resultOk_iff_of_stage (g := .idle) rfl).mpr ⟨fun _ => rfl, fun _ => rfl, fun _ => ⟨rfl, rfl⟩,
      fun h => absurd h (by decide), Nat.zero_le _, Nat.zero_le _⟩
  case csr h => exact hs.congr (State.writeCsr_results h)
  case rsgen hstage _ _ hin =>
    obtain ⟨-, hflen, hlow, -, -, hfl⟩ := (resultOk_iff_of_stage hstage).mp hs
    exact (resultOk_iff_of_stage (g := .ecDone) rfl).mpr ⟨nofun, fun _ => hflen (by decide),
      fun _ => hlow (by decide), fun h => absurd h (by decide), toNat_ofNat_le (by omega), hfl⟩
  case ilv hstage _ _ _ hin =>
    obtain ⟨-, -, hlow, -, hel, -⟩ := (resultOk_iff_of_stage hstage).mp hs
    exact (resultOk_iff_of_stage (g := .ilvDone) rfl).mpr ⟨nofun, fun h => absurd h (by decide),
      fun _ => hlow (by decide), fun h => absurd h (by decide), hel, toNat_ofNat_le (by omega)⟩
  case mmask k _ _ _ =>
    obtain ⟨-, -, -, -, hel, hfl⟩ := hs
    exact (resultOk_iff_of_stage (g := .masked) rfl).mpr ⟨nofun, fun h => absurd h (by decide),
      fun h => absurd h (by decide), fun _ => valid_resmask k, hel, hfl⟩
  case minit hstage _ _ => exact hs.setStage _ hstage (by decide) (by decide)
  case mplace hstage _ => exact hs.setStage _ hstage (by decide) (by decide)
  case mmeta hstage _ => exact hs.setStage _ hstage (by decide) (by decide)
  all_goals exact hs

theorem resultOk_invariant : Invariant ResultOk where
  reset := by unfold ResultOk; decide
  inbox _ _ hs := hs
  latch _ _ _ hs := hs
  write _ _ _ hs := hs
  effect _ _ _ h := h.resultOk

/-- Settles O19: each stage writes its own result registers, and `CLR` and the resets clear all of them. -/
theorem stepKeepsResultRegisters : Obligations.StepKeepsResultRegisters := resultOk_invariant.step

end Sys2Proof.Machine
end

section
/-! Which command writes which register, byte of `M` and control register, and the obligations O11 to O13 (R22, R25,
R31 to R46, R63). -/

namespace Sys2Proof.Machine

/-- A part that is neither `i` nor one of the six stages does not occur. -/
theorem PartOf.ne_of_ne {i j k : Instr} (h : PartOf j i) (hi : k ≠ i) (hk : k ∉ encodeStages) : j ≠ k := by
  rintro rfl
  exact h.elim hi fun hj => hk hj.2

/-! ### Registers (R22, R25) -/

theorem PartOf.scalarDest_eq {i j : Instr} (h : PartOf j i) : scalarDest j = scalarDest i := by
  rcases h with rfl | ⟨rfl, hj⟩
  · rfl
  · simp only [encodeStages, List.mem_cons, List.not_mem_nil, or_false] at hj
    obtain rfl | rfl | rfl | rfl | rfl | rfl := hj <;> rfl

theorem PartOf.polyDest_eq {i j : Instr} (h : PartOf j i) : polyDest j = polyDest i := by
  rcases h with rfl | ⟨rfl, hj⟩
  · rfl
  · simp only [encodeStages, List.mem_cons, List.not_mem_nil, or_false] at hj
    obtain rfl | rfl | rfl | rfl | rfl | rfl := hj <;> rfl

theorem State.writeCsr_x {s t : State} {n : Nat} {v : Int} (h : s.writeCsr n v = some t) : t.x = s.x := by
  obtain ⟨-, rfl⟩ | ⟨-, rfl | rfl | rfl | rfl⟩ | ⟨-, rfl⟩ | ⟨-, rfl⟩ := State.writeCsr_cases h <;> rfl

/-- A register is the command's destination, which is then written, or unchanged. -/
theorem Effect.x_cases {i : Instr} {s t : State} (h : Effect s i t) (r : XReg) :
    t.x[r] = s.x[r] ∨ scalarDest i = some r ∧ t.x[r] ≠ none := by
  cases h
  case scalar rd v hd =>
    by_cases hr : r = rd
    · subst hr
      exact .inr ⟨hd, by rw [State.setX_get_self]; exact Option.some_ne_none _⟩
    · exact .inl (State.setX_get_ne s v hr)
  case csr h => rw [State.writeCsr_x h]; exact .inl rfl
  all_goals exact .inl rfl

theorem Effect.p_cases {i : Instr} {s t : State} (h : Effect s i t) (r : PReg) :
    t.p[r] = s.p[r] ∨ polyDest i = some r ∧ t.p[r] ≠ none := by
  cases h
  case polynomial rd q _ hd =>
    by_cases hr : r = rd
    · subst hr
      exact .inr ⟨hd, by rw [State.setP_get_self]; exact Option.some_ne_none _⟩
    · exact .inl (State.setP_get_ne s q hr)
  case csr h => rw [State.writeCsr_p h]; exact .inl rfl
  all_goals exact .inl rfl

/-- A command other than `RST` keeps what its parts and the fault transition keep. -/
theorem exec_keeps {P : State → Prop} {i : Instr} {s t : State} (hrst : i ≠ .rst) (h : exec i s = .next t)
    (hlatch : ∀ c, P s → P (s.latch c (encode i))) (hpart : ∀ j, PartOf j i → ∀ s t, Effect s j t → P s → P t)
    (hs : P s) : P t := by
  obtain hok | ⟨c, -, rfl⟩ := exec_eq_next.mp h
  · exact ruleOf_keeps hrst hpart hok hs
  · exact hlatch c hs

/-- Settles O11: a register that is no destination is unchanged by every part of the command. -/
theorem registerWriters : Obligations.RegisterWriters := by
  intro i s t hrst h
  refine ⟨fun r hr => ?_, fun r hr => ?_, fun r hr => ?_, fun r hr => ?_⟩
  · refine exec_keeps (P := fun u => u.x[r] = s.x[r]) hrst h (fun _ hs => hs) (fun j hj u v hu hs => ?_) rfl
    obtain hx | ⟨hd, -⟩ := hu.x_cases r
    · exact hx.trans hs
    · exact absurd (hj.scalarDest_eq.symm.trans hd) hr
  · refine exec_keeps (P := fun u => u.p[r] = s.p[r]) hrst h (fun _ hs => hs) (fun j hj u v hu hs => ?_) rfl
    obtain hp | ⟨hd, -⟩ := hu.p_cases r
    · exact hp.trans hs
    · exact absurd (hj.polyDest_eq.symm.trans hd) hr
  · refine exec_keeps (P := fun u => u.x[r] ≠ none) hrst h (fun _ hs => hs) (fun j _ u v hu hs => ?_) hr
    obtain hx | ⟨-, hx⟩ := hu.x_cases r
    · rwa [hx]
    · exact hx
  · refine exec_keeps (P := fun u => u.p[r] ≠ none) hrst h (fun _ hs => hs) (fun j _ u v hu hs => ?_) hr
    obtain hp | ⟨-, hp⟩ := hu.p_cases r
    · rwa [hp]
    · exact hp

/-! ### Codeword memory (R46, R63) -/

theorem Memory.byteAt_putBytes_of_not_inArea {m : Memory} {a k : Nat} {bs : List Byte} (h : ¬inArea k a bs.length) :
    Memory.byteAt (Memory.putBytes m a bs) k = Memory.byteAt m k :=
  Memory.byteAt_putBytes_outside bs m a k (by unfold inArea at h; omega)

theorem Memory.byteAt_putBytes_ne_none {m : Memory} {a k : Nat} {bs : List Byte} (h : Memory.byteAt m k ≠ none) :
    Memory.byteAt (Memory.putBytes m a bs) k ≠ none := by
  rw [Memory.byteAt_putBytes]
  split
  · next hin => rw [List.getElem?_eq_getElem (by omega)]; exact Option.some_ne_none _
  · exact h

/-- A part of a command writes none of the bytes outside those that it stores to. -/
theorem Effect.byteAt_eq {i : Instr} {s t : State} {a : Nat} (h : Effect s i t) (ha : ¬storesTo i s a) :
    Memory.byteAt t.mem a = Memory.byteAt s.mem a := by
  cases h
  case store hst => exact Memory.byteAt_putBytes_of_not_inArea fun hin => ha (hst a hin)
  case rsgen bl e _ hbl hlen _ =>
    exact Memory.byteAt_putBytes_of_not_inArea fun hin => ha ⟨bl, hbl, hlen ▸ hin⟩
  case ilv bl f _ hbl _ hlen _ =>
    exact Memory.byteAt_putBytes_of_not_inArea fun hin => ha ⟨bl, hbl, hlen ▸ hin⟩
  case csr h => rw [State.writeCsr_mem h]
  all_goals rfl

theorem Effect.byteAt_ne_none {i : Instr} {s t : State} {a : Nat} (h : Effect s i t)
    (ha : Memory.byteAt s.mem a ≠ none) : Memory.byteAt t.mem a ≠ none := by
  cases h
  case csr h => rwa [State.writeCsr_mem h]
  case store | rsgen | ilv => exact Memory.byteAt_putBytes_ne_none ha
  all_goals exact ha

/-- The EC total of a list that `ILV` accepts after `RSGEN` is the one `RSGEN` counted. -/
theorem ecTotal_toNat_ofNat {n : Nat} (h : n ≤ 8192) : (BitVec.ofNat 14 n).toNat = n := by
  rw [BitVec.toNat_ofNat]
  omega

/-- `ENCODE` stores the bytes of its first two stages and no others. -/
theorem encodeRule_mem {s t : State} (h : encodeRule s = .ok t) :
    ∃ (bl : List Block) (e f : List Byte), s.blocks = .ok bl ∧ e.length = ecTotal bl ∧
      f.length = s.dlen.toNat + ecTotal bl ∧
      t.mem = Memory.putBytes (Memory.putBytes s.mem s.eaddr.toNat e) s.faddr.toNat f := by
  obtain ⟨s1, s2, s3, s4, s5, h1, h2, h3, h4, h5, h6⟩ := encodeRule_eq_ok h
  obtain ⟨bl, e, -, hbl, he, hin, rfl⟩ := exists_ecs_of_rsgenRule_eq_ok h1
  obtain ⟨bl', f, -, -, hec, hf, -, rfl⟩ := exists_stream_of_ilvRule_eq_ok h2
  obtain ⟨-, -, -, rfl⟩ := minitRule_eq_ok h3
  obtain ⟨_, m, -, -, -, -, rfl⟩ := mplaceRule_eq_ok h4
  obtain ⟨m, -, -, rfl⟩ := mmaskRule_eq_ok h5
  obtain ⟨m, -, -, rfl⟩ := mmetaRule_eq_ok h6
  rw [hec, ecTotal_toNat_ofNat (by omega)] at hf
  exact ⟨bl, e, f, hbl, he, hf, rfl⟩

/-- What `ENCODE` stores lies in the EC area and the final stream, as its block list gives them at its start. -/
theorem encodeRule_byteAt_eq {s t : State} {a : Nat} (h : encodeRule s = .ok t) (ha : ¬storesTo .encode s a) :
    Memory.byteAt t.mem a = Memory.byteAt s.mem a := by
  obtain ⟨bl, e, f, hbl, he, hf, hmem⟩ := encodeRule_mem h
  rw [hmem, Memory.byteAt_putBytes_of_not_inArea fun hin => ha ⟨bl, hbl, .inr (hf ▸ hin)⟩,
    Memory.byteAt_putBytes_of_not_inArea fun hin => ha ⟨bl, hbl, .inl (he ▸ hin)⟩]

/-- Settles O12: a command stores to its own bytes, `ENCODE` to those of its first two stages, and no store unwrites a
byte. -/
theorem memoryWriters : Obligations.MemoryWriters := by
  intro i s t hrst h
  refine ⟨fun a ha => ?_, fun a ha => ?_⟩
  · obtain hok | ⟨c, -, rfl⟩ := exec_eq_next.mp h
    · by_cases henc : i = .encode
      · subst henc
        exact encodeRule_byteAt_eq hok ha
      · exact (effect_of_ruleOf_eq_ok hrst henc hok).byteAt_eq ha
    · rfl
  · exact exec_keeps (P := fun u => Memory.byteAt u.mem a ≠ none) hrst h (fun _ hs => hs)
      (fun _ _ _ _ hu hs => hu.byteAt_ne_none hs) ha

/-! ### Control registers, `STAGE` and the matrix (R31 to R45) -/

theorem Effect.elen_eq {i : Instr} {s t : State} (h : Effect s i t) (h1 : i ≠ .rsgen) (h2 : i ≠ .clr) :
    t.elen = s.elen := by
  cases h
  case rsgen => exact absurd rfl h1
  case clr => exact absurd rfl h2
  case csr h => exact congrArg (fun r => r.2.1) (State.writeCsr_results h)
  all_goals rfl

theorem Effect.flen_eq {i : Instr} {s t : State} (h : Effect s i t) (h1 : i ≠ .ilv) (h2 : i ≠ .clr) :
    t.flen = s.flen := by
  cases h
  case ilv => exact absurd rfl h1
  case clr => exact absurd rfl h2
  case csr h => exact congrArg (fun r => r.2.2.1) (State.writeCsr_results h)
  all_goals rfl

theorem Effect.mask_eq {i : Instr} {s t : State} (h : Effect s i t) (h1 : i ≠ .mmask) (h2 : i ≠ .clr) :
    t.resmask = s.resmask ∧ t.score = s.score := by
  cases h
  case mmask => exact absurd rfl h1
  case clr => exact absurd rfl h2
  case csr h =>
    obtain ⟨-, -, -, hmask, hscore⟩ := by simpa only [State.results, Prod.mk.injEq] using State.writeCsr_results h
    exact ⟨hmask, hscore⟩
  all_goals exact ⟨rfl, rfl⟩

theorem State.writeCsr_mat {s t : State} {n : Nat} {v : Int} (h : s.writeCsr n v = some t) : t.mat = s.mat := by
  obtain ⟨-, rfl⟩ | ⟨-, rfl | rfl | rfl | rfl⟩ | ⟨-, rfl⟩ | ⟨-, rfl⟩ := State.writeCsr_cases h <;> rfl

theorem Effect.mat_eq {i : Instr} {s t : State} (h : Effect s i t) (happly : ∀ k, i ≠ .mapply k)
    (hi : i ∉ [.minit, .mplace, .mmask, .mmeta, .clr]) : t.mat = s.mat := by
  cases h
  case mapply k _ _ _ => exact absurd rfl (happly k)
  case minit | mplace | mmask | mmeta | clr => simp at hi
  case csr h => exact State.writeCsr_mat h
  all_goals rfl

theorem effect_or_latch_of_exec {i : Instr} {s t : State} (hrst : i ≠ .rst) (henc : i ≠ .encode)
    (h : exec i s = .next t) : Effect s i t ∨ ∃ c, t = s.latch c (encode i) :=
  (exec_eq_next.mp h).imp (effect_of_ruleOf_eq_ok hrst henc) fun ⟨c, _, ht⟩ => ⟨c, ht⟩

theorem exec_config_eq {i : Instr} {s t : State} (hrst : i ≠ .rst) (h : exec i s = .next t)
    (hi : ∀ n ra, i ≠ .csrw n ra) : t.config = s.config :=
  exec_keeps (P := fun u => u.config = s.config) hrst h (fun _ hs => hs)
    (fun j hj _ _ hu hs => (hu.config_eq fun n ra => hj.ne_of_ne (hi n ra).symm (by simp [encodeStages])).trans hs) rfl

theorem exec_faultRegs_eq_or_latch {i : Instr} {s t : State} (hrst : i ≠ .rst) (h : exec i s = .next t) :
    t.faultRegs = s.faultRegs ∨ ∃ c, t = s.latch c (encode i) :=
  (exec_eq_next.mp h).imp
    (fun hok => ruleOf_keeps (P := fun u => u.faultRegs = s.faultRegs) hrst
      (fun _ _ _ _ hu hs => hu.faultRegs_eq.trans hs) hok rfl)
    fun ⟨c, _, ht⟩ => ⟨c, ht⟩

/-- Settles O13: each control register by the effects that write it; the fault transition writes none of them but
`ERR`, `INFO` and `ECMD`. -/
theorem controlAndMatrixWriters : Obligations.ControlAndMatrixWriters := by
  intro i s t hrst h
  refine ⟨fun hi => ?_, fun h1 henc h2 => ?_, fun h1 henc h2 => ?_, fun h1 henc h2 => ?_,
    fun happly h1 h2 h3 h4 henc h5 => ?_, ?_, ?_, ?_⟩
  · simpa only [State.config, Prod.mk.injEq] using exec_config_eq hrst h hi
  · obtain heff | ⟨c, rfl⟩ := effect_or_latch_of_exec hrst henc h
    · exact heff.elen_eq h1 h2
    · rfl
  · obtain heff | ⟨c, rfl⟩ := effect_or_latch_of_exec hrst henc h
    · exact heff.flen_eq h1 h2
    · rfl
  · obtain heff | ⟨c, rfl⟩ := effect_or_latch_of_exec hrst henc h
    · exact heff.mask_eq h1 h2
    · exact ⟨rfl, rfl⟩
  · obtain heff | ⟨c, rfl⟩ := effect_or_latch_of_exec hrst henc h
    · exact heff.mat_eq happly (by simp [h1, h2, h3, h4, h5])
    · rfl
  · obtain hok | ⟨c, -, rfl⟩ := exec_eq_next.mp h
    · exact .inr (stage_of_ruleOf_eq_ok hok)
    · exact .inl rfl
  · refine (exec_faultRegs_eq_or_latch hrst h).imp_left fun hf => ?_
    obtain ⟨herr, hinfo, hecmd, -⟩ := by simpa only [State.faultRegs, Prod.mk.injEq] using hf
    exact ⟨herr, hinfo, hecmd⟩
  · obtain hf | ⟨c, rfl⟩ := exec_faultRegs_eq_or_latch hrst h
    · exact congrArg (fun r => r.2.2.2) hf
    · rfl

end Sys2Proof.Machine
end

section
/-! The layout of the matrix: where each pattern draws, that the areas of the patterns and the reserved cells lie
apart, and the obligation O35 (R227 to R236). -/

namespace Sys2Proof.Machine

/-! ### Alignment patterns (R230 to R232) -/

/-- The centres are even; the first lies in row or column 6, the last 7 from the end, the others well inside. -/
theorem alignPos_range {v a : Nat} (hv : v ≤ 40) (ha : a ∈ alignPos v) :
    a % 2 = 0 ∧ (a = 6 ∨ a = 10 + 4 * v ∨ 16 ≤ a ∧ a + 6 ≤ 4 * v) ∧ 2 ≤ v := by
  have h : ∀ v, v < 41 → ∀ a ∈ alignPos v, a % 2 = 0 ∧ (a = 6 ∨ a = 10 + 4 * v ∨ 16 ≤ a ∧ a + 6 ≤ 4 * v) ∧ 2 ≤ v := by
    decide
  exact h v (by omega) a ha

/-- Two centres in one row or column lie so far apart that their patterns share no cell. -/
theorem alignPos_apart {v a b : Nat} (hv : v ≤ 40) (ha : a ∈ alignPos v) (hb : b ∈ alignPos v) :
    a = b ∨ a + 5 ≤ b ∨ b + 5 ≤ a := by
  have h : ∀ v, v < 41 → ∀ a ∈ alignPos v, ∀ b ∈ alignPos v, a = b ∨ a + 5 ≤ b ∨ b + 5 ≤ a := by decide
  exact h v (by omega) a ha b hb

/-- An alignment pattern with this centre is drawn: it is not skipped (R231). -/
def Drawn (v r0 c0 : Nat) : Prop :=
  r0 ∈ alignPos v ∧ c0 ∈ alignPos v ∧ alignSkipped (17 + 4 * v) r0 c0 = false

/-- The cell lies in the 5 by 5 square around the centre. -/
def Near (r0 c0 r c : Nat) : Prop := r0 ≤ r + 2 ∧ r ≤ r0 + 2 ∧ c0 ≤ c + 2 ∧ c ≤ c0 + 2

theorem alignSkipped_eq_false_iff {n r0 c0 : Nat} :
    alignSkipped n r0 c0 = false ↔ ¬((r0 ≤ 6 ∧ c0 ≤ 6) ∨ (r0 ≤ 6 ∧ n - 7 ≤ c0) ∨ (n - 7 ≤ r0 ∧ c0 ≤ 6)) :=
  decide_eq_false_iff_not

/-- Where the centre of a drawn pattern can lie, by the rows and columns of `alignPos_range`. -/
theorem Drawn.range {v r0 c0 : Nat} (hv : v ≤ 40) (h : Drawn v r0 c0) :
    2 ≤ v ∧ r0 % 2 = 0 ∧ c0 % 2 = 0 ∧
      ((r0 = 6 ∧ 16 ≤ c0 ∧ c0 + 6 ≤ 4 * v) ∨ (c0 = 6 ∧ 16 ≤ r0 ∧ r0 + 6 ≤ 4 * v) ∨
        (16 ≤ r0 ∧ r0 ≤ 10 + 4 * v ∧ 16 ≤ c0 ∧ c0 ≤ 10 + 4 * v)) := by
  obtain ⟨hr, hc, hskip⟩ := h
  obtain ⟨hr2, hr, h2⟩ := alignPos_range hv hr
  obtain ⟨hc2, hc, -⟩ := alignPos_range hv hc
  have hskip := alignSkipped_eq_false_iff.mp hskip
  refine ⟨h2, hr2, hc2, ?_⟩
  omega

theorem alignAt_of_near {r0 c0 r c : Nat} (h : Near r0 c0 r c) :
    alignAt r0 c0 r c = some
      (if ((r : Int) - r0).natAbs = 2 ∨ ((c : Int) - c0).natAbs = 2 ∨ ((r : Int) - r0 = 0 ∧ (c : Int) - c0 = 0) then
        .dark else .light) := by
  unfold Near at h
  exact if_pos ⟨by omega, by omega⟩

theorem alignAt_of_not_near {r0 c0 r c : Nat} (h : ¬Near r0 c0 r c) : alignAt r0 c0 r c = none := by
  unfold Near at h
  exact if_neg fun hnear => h (by omega)

theorem exists_drawn_of_alignCell_eq_some {v r c : Nat} {x : CellVal} (h : alignCell v r c = some x) :
    ∃ r0 c0, Drawn v r0 c0 ∧ Near r0 c0 r c ∧ alignAt r0 c0 r c = some x := by
  obtain ⟨r0, hr0, h⟩ := List.exists_of_findSome?_eq_some h
  obtain ⟨c0, hc0, h⟩ := List.exists_of_findSome?_eq_some h
  split at h
  · cases h
  · next hskip =>
    refine ⟨r0, c0, ⟨hr0, hc0, Bool.eq_false_of_not_eq_true hskip⟩, ?_, h⟩
    by_contra hnear
    rw [alignAt_of_not_near hnear] at h
    cases h

theorem alignCell_eq_none {v r c : Nat} (h : ∀ r0 c0, Drawn v r0 c0 → ¬Near r0 c0 r c) : alignCell v r c = none := by
  rw [Option.eq_none_iff_forall_ne_some]
  intro x hx
  obtain ⟨r0, c0, hdrawn, hnear, -⟩ := exists_drawn_of_alignCell_eq_some hx
  exact h r0 c0 hdrawn hnear

/-- The patterns share no cell, so the one around a cell decides its colour. -/
theorem alignCell_of_near {v r0 c0 r c : Nat} (hv : v ≤ 40) (h : Drawn v r0 c0) (hnear : Near r0 c0 r c) :
    alignCell v r c = alignAt r0 c0 r c := by
  match hcell : alignCell v r c with
  | some x =>
    obtain ⟨r1, c1, h1, hnear1, hx⟩ := exists_drawn_of_alignCell_eq_some hcell
    have hr := alignPos_apart hv h.1 h1.1
    have hc := alignPos_apart hv h.2.1 h1.2.1
    unfold Near at hnear hnear1
    obtain rfl : r0 = r1 := by omega
    obtain rfl : c0 = c1 := by omega
    exact hx.symm
  | none =>
    have hrow := List.findSome?_eq_none_iff.mp hcell r0 h.1
    have hat := List.findSome?_eq_none_iff.mp hrow c0 h.2.1
    simp only [h.2.2, Bool.false_eq_true, if_false] at hat
    exact hat.symm

/-! ### Finder patterns (R228) -/

/-- The cell lies in the finder square with this corner or in its separator. -/
def InFinder (r0 c0 r c : Nat) : Prop := r0 ≤ r + 1 ∧ r ≤ r0 + 7 ∧ c0 ≤ c + 1 ∧ c ≤ c0 + 7

theorem finderAt_of_inFinder {r0 c0 r c : Nat} (h : InFinder r0 c0 r c) :
    finderAt r0 c0 r c = some (finderVal ((r : Int) - r0) ((c : Int) - c0)) := by
  unfold InFinder at h
  exact if_pos (by omega)

theorem finderAt_of_not_inFinder {r0 c0 r c : Nat} (h : ¬InFinder r0 c0 r c) : finderAt r0 c0 r c = none := by
  unfold InFinder at h
  exact if_neg (by omega)

/-- The corners of the three finder patterns in a matrix of side `n`. -/
def corners (n : Nat) : List (Nat × Nat) := [(0, 0), (n - 7, 0), (0, n - 7)]

theorem finderCell_eq_none {n r c : Nat} (h : ∀ r0 c0, (r0, c0) ∈ corners n → ¬InFinder r0 c0 r c) :
    finderCell n r c = none := by
  rw [finderCell, finderAt_of_not_inFinder (h 0 0 (by simp [corners])),
    finderAt_of_not_inFinder (h (n - 7) 0 (by simp [corners])),
    finderAt_of_not_inFinder (h 0 (n - 7) (by simp [corners]))]
  rfl

theorem mem_corners {n r0 c0 : Nat} :
    (r0, c0) ∈ corners n ↔ (r0 = 0 ∧ c0 = 0) ∨ (r0 = n - 7 ∧ c0 = 0) ∨ (r0 = 0 ∧ c0 = n - 7) := by
  simp [corners]

/-- The three finder patterns share no cell of a matrix of side 17 or more. -/
theorem finderCell_of_inFinder {n r0 c0 r c : Nat} (hn : 17 ≤ n) (hcorner : (r0, c0) ∈ corners n)
    (h : InFinder r0 c0 r c) : finderCell n r c = finderAt r0 c0 r c := by
  have hsome := finderAt_of_inFinder h
  unfold InFinder at h
  rw [finderCell]
  obtain ⟨rfl, rfl⟩ | ⟨rfl, rfl⟩ | ⟨rfl, rfl⟩ := mem_corners.mp hcorner
  · rw [hsome, Option.some_or]
  · rw [finderAt_of_not_inFinder (by unfold InFinder; omega), Option.none_or, hsome, Option.some_or]
  · rw [finderAt_of_not_inFinder (by unfold InFinder; omega), Option.none_or,
      finderAt_of_not_inFinder (by unfold InFinder; omega), Option.none_or]

/-! ### Timing patterns (R229) -/

/-- The colour of a timing pattern at position `i`. -/
def timingVal (i : Nat) : CellVal := if i % 2 = 0 then .dark else .light

theorem timingCell_row {n i : Nat} (h8 : 8 ≤ i) (hn : i + 9 ≤ n) : timingCell n 6 i = some (timingVal i) := by
  simp [timingCell, h8, hn, timingVal]

theorem timingCell_column {n i : Nat} (h8 : 8 ≤ i) (hn : i + 9 ≤ n) : timingCell n i 6 = some (timingVal i) := by
  have h6 : i ≠ 6 := by omega
  simp [timingCell, h8, hn, h6, timingVal]

theorem timingCell_eq_none {n r c : Nat} (hrow : ¬(r = 6 ∧ 8 ≤ c ∧ c + 9 ≤ n)) (hcol : ¬(c = 6 ∧ 8 ≤ r ∧ r + 9 ≤ n)) :
    timingCell n r c = none := by
  simp only [timingCell, Option.or_eq_none_iff, ite_eq_right_iff]
  exact ⟨fun h h' => absurd ⟨h, h'⟩ hrow, fun h h' => absurd ⟨h, h'⟩ hcol⟩

/-! ### Reserved cells (R233 to R235) -/

theorem reserved_iff_exists {v r c : Nat} :
    reserved v r c = true ↔
      (∃ i, i < 15 ∧ (fmtCellA (17 + 4 * v) i = (r, c) ∨ fmtCellB (17 + 4 * v) i = (r, c))) ∨
        darkCell (17 + 4 * v) = (r, c) ∨
        7 ≤ v ∧ ∃ i, i < 18 ∧ (verCellA (17 + 4 * v) i = (r, c) ∨ verCellB (17 + 4 * v) i = (r, c)) := by
  simp only [reserved, Bool.or_eq_true, Bool.and_eq_true, List.any_eq_true, List.mem_range, beq_iff_eq,
    decide_eq_true_iff, or_assoc]

theorem fmtCellA_eq_iff {n i r c : Nat} :
    fmtCellA n i = (r, c) ↔
      c = 8 ∧ ((i ≤ 5 ∧ r = i) ∨ (5 < i ∧ i ≤ 7 ∧ r = i + 1) ∨ (7 < i ∧ r = n - 15 + i)) := by
  unfold fmtCellA
  split_ifs <;> rw [Prod.mk.injEq] <;> omega

theorem fmtCellB_eq_iff {n i r c : Nat} :
    fmtCellB n i = (r, c) ↔
      r = 8 ∧ ((i ≤ 7 ∧ c = n - 1 - i) ∨ (i = 8 ∧ c = 7) ∨ (8 < i ∧ c = 14 - i)) := by
  unfold fmtCellB
  split_ifs <;> rw [Prod.mk.injEq] <;> omega

theorem verCellA_eq_iff {n i r c : Nat} : verCellA n i = (r, c) ↔ r = i / 3 ∧ c = i % 3 + n - 11 := by
  rw [verCellA, Prod.mk.injEq, eq_comm, @eq_comm _ _ c]

theorem verCellB_eq_iff {n i r c : Nat} : verCellB n i = (r, c) ↔ r = i % 3 + n - 11 ∧ c = i / 3 := by
  rw [verCellB, Prod.mk.injEq, eq_comm, @eq_comm _ _ c]

theorem darkCell_eq_iff {n r c : Nat} : darkCell n = (r, c) ↔ r = n - 8 ∧ c = 8 := by
  rw [darkCell, Prod.mk.injEq, eq_comm, @eq_comm _ _ c]

/-- The cells of the format information: column 8 and row 8, without the timing patterns (R234). -/
theorem fmtCells_iff {n r c : Nat} (hn : 17 ≤ n) :
    (∃ i, i < 15 ∧ (fmtCellA n i = (r, c) ∨ fmtCellB n i = (r, c))) ↔
      (c = 8 ∧ ((r ≤ 8 ∧ r ≠ 6) ∨ n - 7 ≤ r ∧ r < n)) ∨ (r = 8 ∧ ((c ≤ 7 ∧ c ≠ 6) ∨ n - 8 ≤ c ∧ c < n)) := by
  simp only [fmtCellA_eq_iff, fmtCellB_eq_iff]
  constructor
  · rintro ⟨i, hi, h⟩
    omega
  · rintro (⟨hc, h⟩ | ⟨hr, h⟩)
    · by_cases h5 : r ≤ 5
      · exact ⟨r, by omega⟩
      · by_cases h8 : r ≤ 8
        · exact ⟨r - 1, by omega⟩
        · exact ⟨r + 15 - n, by omega⟩
    · by_cases h5 : c ≤ 5
      · exact ⟨14 - c, by omega⟩
      · by_cases h7 : c ≤ 7
        · exact ⟨8, by omega⟩
        · exact ⟨n - 1 - c, by omega⟩

/-- The cells of the version information: two blocks of 18 cells (R235). -/
theorem verCells_iff {n r c : Nat} (hn : 17 ≤ n) :
    (∃ i, i < 18 ∧ (verCellA n i = (r, c) ∨ verCellB n i = (r, c))) ↔
      (r ≤ 5 ∧ n - 11 ≤ c ∧ c ≤ n - 9) ∨ (c ≤ 5 ∧ n - 11 ≤ r ∧ r ≤ n - 9) := by
  simp only [verCellA_eq_iff, verCellB_eq_iff]
  constructor
  · rintro ⟨i, hi, h⟩
    omega
  · rintro (h | h)
    · exact ⟨3 * r + (c + 11 - n), by omega⟩
    · exact ⟨3 * c + (r + 11 - n), by omega⟩

theorem reserved_iff {v r c : Nat} :
    reserved v r c = true ↔
      (c = 8 ∧ ((r ≤ 8 ∧ r ≠ 6) ∨ 9 + 4 * v ≤ r ∧ r < 17 + 4 * v)) ∨
        (r = 8 ∧ ((c ≤ 7 ∧ c ≠ 6) ∨ 9 + 4 * v ≤ c ∧ c < 17 + 4 * v)) ∨
        (7 ≤ v ∧ ((r ≤ 5 ∧ 6 + 4 * v ≤ c ∧ c ≤ 8 + 4 * v) ∨ (c ≤ 5 ∧ 6 + 4 * v ≤ r ∧ r ≤ 8 + 4 * v))) := by
  rw [reserved_iff_exists, fmtCells_iff (by omega), verCells_iff (by omega), darkCell_eq_iff]
  omega

/-! ### The patterns and the reserved cells lie apart -/

/-- A drawn alignment pattern shares no cell with a finder pattern. -/
theorem Drawn.not_inFinder {v r0 c0 r c : Nat} (hv : v ≤ 40) (h : Drawn v r0 c0) (hnear : Near r0 c0 r c)
    {r1 c1 : Nat} (hcorner : (r1, c1) ∈ corners (17 + 4 * v)) : ¬InFinder r1 c1 r c := by
  have hrange := h.range hv
  have hcorner := mem_corners.mp hcorner
  unfold Near at hnear
  unfold InFinder
  omega

/-- No pattern draws a reserved cell. -/
theorem patternVal_of_reserved {v r c : Nat} (hv : v ≤ 40) (h : reserved v r c = true) : patternVal v r c = none := by
  have h := reserved_iff.mp h
  rw [patternVal, alignCell_eq_none, timingCell_eq_none (by omega) (by omega), finderCell_eq_none]
  · rfl
  · intro r0 c0 hcorner
    have hcorner := mem_corners.mp hcorner
    unfold InFinder
    omega
  · intro r0 c0 hdrawn
    have hrange := hdrawn.range hv
    unfold Near
    omega

/-! ### The cells of the layout (R236) -/

theorem layoutCell_of_pattern {v r c : Nat} {x : CellVal} (h : patternVal v r c = some x) :
    layoutCell v r c = ⟨x, true⟩ := by rw [layoutCell, h]

theorem layoutCell_of_no_pattern {v r c : Nat} (h : patternVal v r c = none) :
    layoutCell v r c = ⟨.unset, reserved v r c⟩ := by rw [layoutCell, h]

theorem layoutCell_of_reserved {v r c : Nat} (hv : v ≤ 40) (h : reserved v r c = true) :
    layoutCell v r c = ⟨.unset, true⟩ := by
  rw [layoutCell_of_no_pattern (patternVal_of_reserved hv h), h]

theorem cell_layout {v r c : Nat} (hr : r < 17 + 4 * v) (hc : c < 17 + 4 * v) :
    (layout v).cell r c = layoutCell v r c := Mat.cell_build _ hr hc

theorem shaped_layout {v : Nat} (h1 : 1 ≤ v) (h40 : v ≤ 40) : (layout v).shaped :=
  ⟨h1, h40, Mat.build_square v _⟩

/-- In a finder square no other pattern draws. -/
theorem patternVal_of_inFinder {v r0 c0 r c : Nat} (h1 : 1 ≤ v) (hv : v ≤ 40)
    (hcorner : (r0, c0) ∈ corners (17 + 4 * v)) (h : InFinder r0 c0 r c) :
    patternVal v r c = some (finderVal ((r : Int) - r0) ((c : Int) - c0)) := by
  have halign : alignCell v r c = none :=
    alignCell_eq_none fun r1 c1 hdrawn hnear => hdrawn.not_inFinder hv hnear hcorner h
  have hfinder := (finderCell_of_inFinder (by omega) hcorner h).trans (finderAt_of_inFinder h)
  have hcorner := mem_corners.mp hcorner
  unfold InFinder at h
  rw [patternVal, halign, timingCell_eq_none (by omega) (by omega), hfinder]
  rfl

/-- An alignment pattern over row 6 or column 6 has the colours of the timing pattern there. -/
theorem alignAt_on_timing {v r0 c0 r c : Nat} (hv : v ≤ 40) (h : Drawn v r0 c0) (hnear : Near r0 c0 r c) :
    (r = 6 → alignAt r0 c0 r c = some (timingVal c)) ∧ (c = 6 → alignAt r0 c0 r c = some (timingVal r)) := by
  have hrange := h.range hv
  have hat := alignAt_of_near hnear
  unfold Near at hnear
  refine ⟨fun h6 => ?_, fun h6 => ?_⟩
  · rw [hat, timingVal]
    refine congrArg some (if_congr ?_ rfl rfl)
    omega
  · rw [hat, timingVal]
    refine congrArg some (if_congr ?_ rfl rfl)
    omega

theorem alignCell_eq_none_or_drawn (v r c : Nat) :
    alignCell v r c = none ∨ ∃ r0 c0, Drawn v r0 c0 ∧ Near r0 c0 r c := by
  match h : alignCell v r c with
  | none => exact .inl rfl
  | some x =>
    obtain ⟨r0, c0, hdrawn, hnear, -⟩ := exists_drawn_of_alignCell_eq_some h
    exact .inr ⟨r0, c0, hdrawn, hnear⟩

theorem patternVal_on_timing {v i : Nat} (hv : v ≤ 40) (h8 : 8 ≤ i) (hn : i + 9 ≤ 17 + 4 * v) :
    patternVal v 6 i = some (timingVal i) ∧ patternVal v i 6 = some (timingVal i) := by
  refine ⟨?_, ?_⟩
  · rw [patternVal]
    obtain hnone | ⟨r0, c0, hdrawn, hnear⟩ := alignCell_eq_none_or_drawn v 6 i
    · rw [hnone, Option.none_or, timingCell_row h8 hn, Option.some_or]
    · rw [alignCell_of_near hv hdrawn hnear, (alignAt_on_timing hv hdrawn hnear).1 rfl, Option.some_or]
  · rw [patternVal]
    obtain hnone | ⟨r0, c0, hdrawn, hnear⟩ := alignCell_eq_none_or_drawn v i 6
    · rw [hnone, Option.none_or, timingCell_column h8 hn, Option.some_or]
    · rw [alignCell_of_near hv hdrawn hnear, (alignAt_on_timing hv hdrawn hnear).2 rfl, Option.some_or]

theorem patternVal_of_near {v r0 c0 r c : Nat} (hv : v ≤ 40) (h : Drawn v r0 c0) (hnear : Near r0 c0 r c) :
    patternVal v r c = alignAt r0 c0 r c := by
  rw [patternVal, alignCell_of_near hv h hnear, alignAt_of_near hnear, Option.some_or]

/-- Settles O35: in each area its own pattern draws, or one of the same colour, and outside all of them none does. -/
theorem layoutDrawsPatterns : Obligations.LayoutDrawsPatterns := by
  intro v h1 h40
  refine ⟨rfl, shaped_layout h1 h40, fun r0 c0 r c hcorner hr hc h => ?_, fun i h8 hn => ?_,
    fun r0 c0 dr dc hdrawn hdr hdc => ?_, fun r c hr hc => ?_, fun r c h => ?_,
    fun r c hr hc hfinder hrow hcol halign hres => ?_⟩
  · rw [cell_layout hr hc, layoutCell_of_pattern (patternVal_of_inFinder h1 h40 hcorner h)]
    rfl
  · obtain ⟨hrow, hcol⟩ := patternVal_on_timing h40 h8 hn
    rw [cell_layout (by omega) (by omega), layoutCell_of_pattern hrow, cell_layout (by omega) (by omega),
      layoutCell_of_pattern hcol]
    exact ⟨rfl, rfl⟩
  · have hdrawn : Drawn v r0 c0 := ⟨hdrawn.1, hdrawn.2.1, alignSkipped_eq_false_iff.mpr hdrawn.2.2⟩
    have hrange := hdrawn.range h40
    have hnear : Near r0 c0 (r0 + dr - 2) (c0 + dc - 2) := by unfold Near; omega
    rw [cell_layout (by omega) (by omega),
      layoutCell_of_pattern ((patternVal_of_near h40 hdrawn hnear).trans (alignAt_of_near hnear))]
    refine congrArg (Cell.mk · true) (if_congr ?_ rfl rfl)
    omega
  · rw [reserved_iff]
    omega
  · have hin := reserved_iff.mp h
    rw [cell_layout (by omega) (by omega), layoutCell_of_reserved h40 h]
  · have hnone : patternVal v r c = none := by
      rw [patternVal, alignCell_eq_none fun r0 c0 hdrawn =>
          halign r0 c0 ⟨hdrawn.1, hdrawn.2.1, alignSkipped_eq_false_iff.mp hdrawn.2.2⟩,
        timingCell_eq_none hrow hcol, finderCell_eq_none hfinder]
      rfl
    rw [cell_layout hr hc, layoutCell_of_no_pattern hnone, hres]

end Sys2Proof.Machine
end

section
/-! The placement walk: its pairs of columns, the place of each cell in it, and the obligation O36 (R238, R246). -/

namespace Sys2Proof.Machine

/-! ### The pairs of columns -/

/-- The walk stands at the column `col` when it begins the pair `j` of a matrix of side `n`: from column 6 on all
columns are one further left than two a pair would put them. -/
def StandsAt (n col j : Nat) : Prop :=
  (col % 2 = 0 ∧ 6 ≤ col ∧ col + 2 * j + 1 = n) ∨ (col % 2 = 1 ∧ col ≤ 3 ∧ col + 2 * j + 2 = n)

/-- The pair `j` has the right column `x`. -/
def IsPair (n x j : Nat) : Prop :=
  (8 ≤ x ∧ x + 2 * j + 1 = n) ∨ (1 ≤ x ∧ x ≤ 5 ∧ x + 2 * j + 2 = n)

/-- One pair of the walk, and where the walk stands after it: at the next pair, or past the last one. -/
theorem StandsAt.pairCols_succ {n col j : Nat} (h : StandsAt n col j) (fuel : Nat) :
    ∃ x, IsPair n x j ∧ pairCols (fuel + 1) col = x :: pairCols fuel (x - 2) ∧
      (x - 2 = 0 ∨ StandsAt n (x - 2) (j + 1)) ∧ x ≤ col ∧ ∀ c, c ≤ col ∧ c ≠ 6 ↔ c = x ∨ c = x - 1 ∨
        (x - 2 ≠ 0 ∧ c ≤ x - 2 ∧ c ≠ 6) := by
  unfold StandsAt at h
  have hcols : pairCols (fuel + 1) col =
      (if col = 6 then col - 1 else col) :: pairCols fuel ((if col = 6 then col - 1 else col) - 2) := by
    rw [pairCols, if_neg (by omega)]
  unfold IsPair StandsAt
  by_cases h6 : col = 6
  · rw [if_pos h6] at hcols
    exact ⟨col - 1, by omega, hcols, by omega, by omega, fun c => by omega⟩
  · rw [if_neg h6] at hcols
    exact ⟨col, by omega, hcols, by omega, le_rfl, fun c => by omega⟩

theorem pairCols_zero (fuel : Nat) : pairCols fuel 0 = [] := by cases fuel <;> rfl

/-- The pairs cover every column from where the walk stands leftward, but for column 6. -/
theorem exists_mem_pairCols_iff {n col j fuel : Nat} (h : StandsAt n col j) (hfuel : col ≤ fuel) (c : Nat) :
    (∃ x ∈ pairCols fuel col, c = x ∨ c = x - 1) ↔ c ≤ col ∧ c ≠ 6 := by
  induction fuel generalizing col j with
  | zero => unfold StandsAt at h; omega
  | succ fuel ih =>
    obtain ⟨x, hpair, hcols, hnext, hx, hcover⟩ := h.pairCols_succ fuel
    rw [hcols, List.exists_mem_cons_iff, hcover, or_assoc]
    refine or_congr_right (or_congr_right ?_)
    rcases hnext with h0 | hnext
    · rw [h0, pairCols_zero]
      simp
    · have hpos : x - 2 ≠ 0 := by unfold StandsAt at hnext; omega
      rw [ih hnext (by unfold IsPair at hpair; omega)]
      simp [hpos]

/-! ### The place of a cell in the walk -/

/-- The place of the row `r` in a pair that is walked upward if `up`. -/
def rowPlace (n : Nat) (up : Bool) (r : Nat) : Nat := if up then n - 1 - r else r

theorem IsPair.walkIndex {n x j : Nat} (h : IsPair n x j) (r : Nat) :
    walkIndex n (r, x) = (j * n + rowPlace n (decide (j % 2 = 0)) r) * 2 ∧
      walkIndex n (r, x - 1) = (j * n + rowPlace n (decide (j % 2 = 0)) r) * 2 + 1 := by
  unfold IsPair at h
  have hright : n - 1 - (if 6 < x then x else x + 1) = 2 * j := by split <;> omega
  have hleft : n - 1 - (if 6 < x - 1 then x - 1 else x - 1 + 1) = 2 * j + 1 := by split <;> omega
  have hdiv : (2 * j + 1) / 2 = j := by omega
  have hmod : (2 * j + 1) % 2 = 1 := by omega
  simp only [Machine.walkIndex, hright, hleft, hdiv, hmod, Nat.mul_div_cancel_left j Nat.two_pos, Nat.mul_mod_right,
    rowPlace, decide_eq_true_eq, Nat.add_zero, and_self]

theorem pairwise_pairRows (n : Nat) (up : Bool) :
    (pairRows n up).Pairwise fun r r' => rowPlace n up r < rowPlace n up r' := by
  cases up
  · exact List.pairwise_lt_range
  · refine List.pairwise_reverse.mpr (List.pairwise_lt_range.imp_of_mem fun hr hr' hlt => ?_)
    have := List.mem_range.mp hr'
    simp only [rowPlace, if_true]
    omega

/-- The cells of one pair come in the order of their places. -/
theorem IsPair.pairwise_pairCells {n x j : Nat} (h : IsPair n x j) :
    (pairCells n x (decide (j % 2 = 0))).Pairwise fun a b => Machine.walkIndex n a < Machine.walkIndex n b := by
  refine List.pairwise_flatMap.mpr ⟨fun r _ => ?_, (pairwise_pairRows n _).imp fun {r r'} hlt => ?_⟩
  · obtain ⟨hright, hleft⟩ := h.walkIndex r
    simp [hright, hleft]
  · obtain ⟨hright, hleft⟩ := h.walkIndex r
    obtain ⟨hright', hleft'⟩ := h.walkIndex r'
    simp only [List.mem_cons, List.not_mem_nil, or_false]
    rintro a (rfl | rfl) b (rfl | rfl) <;> omega

/-- The places of the pair `j` are those from `2 * (j * n)` up to the next pair's. -/
theorem IsPair.walkIndex_range {n x j : Nat} (h : IsPair n x j) {rc : Nat × Nat} {up : Bool}
    (hrc : rc ∈ pairCells n x up) :
    j * n * 2 ≤ Machine.walkIndex n rc ∧ Machine.walkIndex n rc < (j + 1) * n * 2 := by
  obtain ⟨r, c⟩ := rc
  obtain ⟨hr, hc⟩ := mem_pairCells.mp hrc
  obtain ⟨hright, hleft⟩ := h.walkIndex r
  have hplace : rowPlace n (decide (j % 2 = 0)) r < n := by unfold rowPlace; split <;> omega
  have hmul : (j + 1) * n = j * n + n := Nat.succ_mul j n
  obtain rfl | rfl : c = x ∨ c = x - 1 := hc
  · omega
  · omega

theorem decide_succ_mod_two (j : Nat) : (!decide (j % 2 = 0)) = decide ((j + 1) % 2 = 0) := by
  rcases Nat.mod_two_eq_zero_or_one j with h | h <;> simp [h, Nat.add_mod]

/-- From where the walk stands it meets the cells in the order of their places, none before its own pair's. -/
theorem pairwise_zigzag {n col j fuel : Nat} (h : StandsAt n col j) :
    ((zigzag n (pairCols fuel col) (decide (j % 2 = 0))).Pairwise fun a b => walkIndex n a < walkIndex n b) ∧
      ∀ rc ∈ zigzag n (pairCols fuel col) (decide (j % 2 = 0)), j * n * 2 ≤ walkIndex n rc := by
  induction fuel generalizing col j with
  | zero => exact ⟨.nil, nofun⟩
  | succ fuel ih =>
    obtain ⟨x, hpair, hcols, hnext, -⟩ := h.pairCols_succ fuel
    rw [hcols, zigzag_cons, decide_succ_mod_two]
    have hrest : ((zigzag n (pairCols fuel (x - 2)) (decide ((j + 1) % 2 = 0))).Pairwise
          fun a b => walkIndex n a < walkIndex n b) ∧
        ∀ rc ∈ zigzag n (pairCols fuel (x - 2)) (decide ((j + 1) % 2 = 0)), (j + 1) * n * 2 ≤ walkIndex n rc := by
      rcases hnext with h0 | hnext
      · rw [h0, pairCols_zero]
        exact ⟨.nil, nofun⟩
      · exact ih hnext
    obtain ⟨hsorted, hlater⟩ := hrest
    have hmul : (j + 1) * n = j * n + n := Nat.succ_mul j n
    refine ⟨List.pairwise_append.mpr ⟨hpair.pairwise_pairCells, hsorted, fun a ha b hb => ?_⟩, fun rc hrc => ?_⟩
    · exact (hpair.walkIndex_range ha).2.trans_le (hlater b hb)
    · rcases List.mem_append.mp hrc with hrc | hrc
      · exact (hpair.walkIndex_range hrc).1
      · have := hlater rc hrc
        omega

/-! ### `placeorder` -/

/-- The walk starts in the last column, with pair 0. -/
theorem standsAt_start (m : Mat) : StandsAt m.side (m.side - 1) 0 := by
  unfold StandsAt Mat.side
  omega

theorem mem_placeorder_iff {m : Mat} {r c : Nat} :
    (r, c) ∈ placeorder m ↔ r < m.side ∧ c < m.side ∧ c ≠ 6 ∧ (m.cell r c).fn = false := by
  have hcols := exists_mem_pairCols_iff (standsAt_start m) (Nat.sub_le _ 1) c
  have hpos : 0 < m.side := by unfold Mat.side; omega
  rw [placeorder, List.mem_filter, mem_zigzag, hcols, Bool.not_eq_true', and_assoc, and_assoc,
    Nat.le_sub_one_iff_lt hpos]

/-- Column 6 holds function cells alone: finder patterns and separators at its ends, the timing pattern between. -/
theorem layoutCell_column_six {v r : Nat} (h1 : 1 ≤ v) (h40 : v ≤ 40) (hr : r < 17 + 4 * v) :
    (layoutCell v r 6).fn = true := by
  by_cases htop : r ≤ 7
  · rw [layoutCell_of_pattern (patternVal_of_inFinder h1 h40 (r0 := 0) (c0 := 0) (by simp [corners])
      (by unfold InFinder; omega))]
  · by_cases hbottom : r + 9 ≤ 17 + 4 * v
    · rw [layoutCell_of_pattern (patternVal_on_timing h40 (by omega) hbottom).2]
    · rw [layoutCell_of_pattern (patternVal_of_inFinder h1 h40 (r0 := 17 + 4 * v - 7) (c0 := 0)
        (by simp [corners]) (by unfold InFinder; omega))]

/-- The data cells of `layout(v)`, row by row. -/
def layoutData (v : Nat) : List (Nat × Nat) :=
  (List.range (17 + 4 * v)).flatMap fun r =>
    ((List.range (17 + 4 * v)).filter fun c => !(layoutCell v r c).fn).map fun c => (r, c)

theorem mem_layoutData {v r c : Nat} :
    (r, c) ∈ layoutData v ↔ r < 17 + 4 * v ∧ c < 17 + 4 * v ∧ (layoutCell v r c).fn = false := by
  simp [layoutData]

theorem nodup_layoutData (v : Nat) : (layoutData v).Nodup := by
  refine List.nodup_flatMap.mpr ⟨fun r _ => ?_, List.nodup_range.imp fun {r r'} hne rc h h' => hne ?_⟩
  · exact (List.nodup_range.filter _).map (Prod.mk_right_injective r)
  · obtain ⟨c, -, rfl⟩ := List.mem_map.mp h
    obtain ⟨c', -, heq⟩ := List.mem_map.mp h'
    exact (congrArg Prod.fst heq).symm

theorem length_layoutData (v : Nat) : (layoutData v).length = freecells v := by
  simp only [layoutData, freecells, layout, Mat.dataCells, Mat.build, List.length_flatMap, List.length_map,
    List.map_map, Function.comp_def, List.countP_map, ← List.countP_eq_length_filter]

/-- The walk over a matrix with the function cells of the layout meets every data cell of the layout (R246). -/
theorem length_placeorder {m : Mat} (hm : m.shaped)
    (hfn : ∀ r c, r < m.side → c < m.side → (m.cell r c).fn = (layoutCell m.v r c).fn) :
    (placeorder m).length = freecells m.v := by
  have ⟨h1, h40, _, _⟩ := hm
  rw [← length_layoutData]
  refine ((List.perm_ext_iff_of_nodup (nodup_placeorder m) (nodup_layoutData m.v)).mpr ?_).length_eq
  rintro ⟨r, c⟩
  rw [mem_placeorder_iff, mem_layoutData]
  constructor
  · rintro ⟨hr, hc, -, hdata⟩
    exact ⟨hr, hc, (hfn r c hr hc).symm.trans hdata⟩
  · rintro ⟨hr, hc, hdata⟩
    refine ⟨hr, hc, ?_, (hfn r c hr hc).trans hdata⟩
    rintro rfl
    rw [layoutCell_column_six h1 h40 hr] at hdata
    cases hdata

/-- Settles O36: the pairs cover all columns but column 6, and the walk meets the cells in the order of their places. -/
theorem placeorderWalks : Obligations.PlaceorderWalks := fun m hm =>
  ⟨fun _ _ => mem_placeorder_iff, (pairwise_zigzag (standsAt_start m)).1.filter _, length_placeorder hm⟩

end Sys2Proof.Machine
end

section
/-! Masks and metadata on the matrix: `applymask` is its own inverse, `writemeta` writes each of its cells with one
colour, and the obligations O31 and O38 (R182, R183, R234, R235, R240). -/

namespace Sys2Proof.Machine

/-! ### `applymask` (R182, R183) -/

@[simp] theorem CellVal.flip_flip (x : CellVal) : x.flip.flip = x := by cases x <;> rfl

theorem CellVal.flip_eq_unset_iff {x : CellVal} : x.flip = .unset ↔ x = .unset := by cases x <;> decide

theorem fn_cell_applymask (m : Mat) (k : Nat) {r c : Nat} (hr : r < m.side) (hc : c < m.side) :
    ((applymask m k).cell r c).fn = (m.cell r c).fn := by
  rw [cell_applymask m k hr hc]
  split <;> rfl

theorem cell_applymask_applymask (m : Mat) (k : Nat) {r c : Nat} (hr : r < m.side) (hc : c < m.side) :
    (applymask (applymask m k) k).cell r c = m.cell r c := by
  rw [cell_applymask (applymask m k) k hr hc, fn_cell_applymask m k hr hc, cell_applymask m k hr hc]
  by_cases hflip : (!(m.cell r c).fn && maskfn k r c) = true
  · simp only [if_pos hflip, CellVal.flip_flip]
  · simp only [if_neg hflip]

theorem shaped_applymask {m : Mat} (h : m.shaped) (k : Nat) : (applymask m k).shaped := by
  obtain ⟨h1, h40, -⟩ := h
  exact ⟨h1, h40, Mat.build_square m.v _⟩

/-- Settles O31: the same cells are flipped twice. -/
theorem applymaskTwice : Obligations.ApplymaskTwice := by
  intro m k hm _
  have ⟨_, _, hlen, hrow⟩ := hm
  obtain ⟨-, -, hlen', hrow'⟩ := shaped_applymask (shaped_applymask hm k) k
  refine ⟨Mat.ext_cells rfl hlen' hrow' hlen hrow fun r c => cell_applymask_applymask m k, rfl, fun r c hr hc => ?_⟩
  rw [cell_applymask m k hr hc]
  by_cases hflip : (m.cell r c).fn = false ∧ maskfn k r c = true
  · rw [if_pos hflip, if_pos (by rw [hflip.1, hflip.2]; rfl)]
    exact congrArg (Cell.mk _) hflip.1
  · rw [if_neg hflip, if_neg]
    rwa [Bool.and_eq_true, Bool.not_eq_true']

/-! ### The cells of the metadata (R234, R235) -/

/-- A cell inside a square that a list of writes names with one colour alone has that colour. -/
theorem Mat.cell_setVals_of_unique {n r c : Nat} {x : CellVal} {l : List ((Nat × Nat) × CellVal)} {m : Mat}
    (hlen : m.cells.length = n) (hrow : ∀ row ∈ m.cells, row.length = n) (hr : r < n) (hc : c < n)
    (h : ((r, c), x) ∈ l) (hone : ∀ y, ((r, c), y) ∈ l → y = x) : ((m.setVals l).cell r c).val = x := by
  induction l generalizing m with
  | nil => cases h
  | cons e l ih =>
    obtain ⟨⟨r', c'⟩, y⟩ := e
    have hone' : ∀ z, ((r, c), z) ∈ l → z = x := fun z hz => hone z (List.mem_cons_of_mem _ hz)
    rw [Mat.setVals]
    by_cases hlater : (r, c) ∈ l.map Prod.fst
    · obtain ⟨⟨_, z⟩, hz, rfl⟩ := List.mem_map.mp hlater
      obtain ⟨hlen', hrow'⟩ := Mat.setVal_square r' c' y hlen hrow
      exact ih hlen' hrow' (hone' z hz ▸ hz) hone'
    · rw [Mat.cell_setVals_of_not_mem _ _ _ _ hlater]
      rcases List.mem_cons.mp h with heq | h
      · cases heq
        rw [Mat.cell_setVal_self x hlen hrow hr hc]
      · exact absurd (List.mem_map_of_mem h) hlater

/-- The writes of `writemeta`. -/
def metaCells (m : Mat) (ecl k : Nat) : List ((Nat × Nat) × CellVal) :=
  bitCells 15 (bchfmt ecl k) (fmtCellA m.side) (fmtCellB m.side) ++ [(darkCell m.side, .dark)] ++
    if 7 ≤ m.v then bitCells 18 (bchver m.v) (verCellA m.side) (verCellB m.side) else []

theorem writemeta_eq_setVals (m : Mat) (ecl k : Nat) : writemeta m ecl k = m.setVals (metaCells m ecl k) := rfl

theorem mem_bitCells {n w : Nat} {copyA copyB : Nat → Nat × Nat} {rc : Nat × Nat} {x : CellVal} :
    (rc, x) ∈ bitCells n w copyA copyB ↔
      ∃ i, i < n ∧ (copyA i = rc ∨ copyB i = rc) ∧ x = CellVal.ofBit (w.testBit i) := by
  simp only [bitCells, List.mem_flatMap, List.mem_range, List.mem_cons, List.not_mem_nil, or_false, Prod.mk.injEq,
    ← or_and_right, @eq_comm _ rc]

theorem mem_metaCells {m : Mat} {ecl k : Nat} {rc : Nat × Nat} {x : CellVal} :
    (rc, x) ∈ metaCells m ecl k ↔
      (∃ i, i < 15 ∧ (fmtCellA m.side i = rc ∨ fmtCellB m.side i = rc) ∧
          x = CellVal.ofBit ((bchfmt ecl k).testBit i)) ∨
        (darkCell m.side = rc ∧ x = .dark) ∨
        7 ≤ m.v ∧ ∃ i, i < 18 ∧ (verCellA m.side i = rc ∨ verCellB m.side i = rc) ∧
          x = CellVal.ofBit ((bchver m.v).testBit i) := by
  rw [metaCells, List.mem_append, List.mem_append, mem_bitCells, or_assoc, List.mem_singleton, Prod.mk.injEq,
    @eq_comm _ rc]
  split
  · next h => simp only [mem_bitCells, h, true_and]
  · next h => simp only [List.not_mem_nil, h, false_and]

/-- The cells that `writemeta` writes are the reserved ones (R233). -/
theorem exists_mem_metaCells_iff {m : Mat} {ecl k r c : Nat} :
    (∃ x, ((r, c), x) ∈ metaCells m ecl k) ↔ reserved m.v r c = true := by
  rw [reserved_iff_exists]
  simp only [mem_metaCells, exists_or, exists_and_left, exists_eq, and_true, Mat.side]
  simp only [@exists_comm CellVal, exists_and_left, exists_eq, and_true]

theorem CellVal.ofBit_ne_unset (b : Bool) : CellVal.ofBit b ≠ .unset := by cases b <;> decide

theorem ne_unset_of_mem_metaCells {m : Mat} {ecl k : Nat} {rc : Nat × Nat} {x : CellVal}
    (h : (rc, x) ∈ metaCells m ecl k) : x ≠ .unset := by
  obtain ⟨i, -, -, rfl⟩ | ⟨-, rfl⟩ | ⟨-, i, -, -, rfl⟩ := mem_metaCells.mp h
  · exact CellVal.ofBit_ne_unset _
  · decide
  · exact CellVal.ofBit_ne_unset _

/-- A cell of the metadata holds one bit, or is the dark cell: the lists of R234 and R235 share no cell. -/
theorem metaCells_unique {m : Mat} {ecl k r c : Nat} {x y : CellVal} (hx : ((r, c), x) ∈ metaCells m ecl k)
    (hy : ((r, c), y) ∈ metaCells m ecl k) : x = y := by
  have hside : m.side = 17 + 4 * m.v := rfl
  rw [mem_metaCells] at hx hy
  simp only [fmtCellA_eq_iff, fmtCellB_eq_iff, darkCell_eq_iff, verCellA_eq_iff, verCellB_eq_iff] at hx hy
  obtain ⟨i, hi, hcell, rfl⟩ | ⟨hcell, rfl⟩ | ⟨hv, i, hi, hcell, rfl⟩ := hx
  · obtain ⟨j, hj, hcell', rfl⟩ | ⟨hcell', rfl⟩ | ⟨hv, j, hj, hcell', rfl⟩ := hy
    · obtain rfl : i = j := by omega
      rfl
    · omega
    · omega
  · obtain ⟨j, hj, hcell', rfl⟩ | ⟨hcell', rfl⟩ | ⟨hv, j, hj, hcell', rfl⟩ := hy
    · omega
    · rfl
    · omega
  · obtain ⟨j, hj, hcell', rfl⟩ | ⟨hcell', rfl⟩ | ⟨hv, j, hj, hcell', rfl⟩ := hy
    · omega
    · omega
    · obtain rfl : i = j := by omega
      rfl

/-! ### `writemeta` (R240) -/

theorem val_cell_writemeta {m : Mat} {ecl k r c : Nat} {x : CellVal} (hm : m.shaped)
    (h : ((r, c), x) ∈ metaCells m ecl k) : ((writemeta m ecl k).cell r c).val = x := by
  have ⟨_, _, hlen, hrow⟩ := hm
  have hres := reserved_iff.mp (exists_mem_metaCells_iff.mp ⟨x, h⟩)
  have hside : m.side = 17 + 4 * m.v := rfl
  exact Mat.cell_setVals_of_unique hlen hrow (by omega) (by omega) h fun y hy => metaCells_unique hy h

theorem fn_cell_writemeta (m : Mat) (ecl k r c : Nat) : ((writemeta m ecl k).cell r c).fn = (m.cell r c).fn :=
  Mat.cell_setVals_fn _ m r c

theorem cell_writemeta_of_not_reserved {m : Mat} {ecl k r c : Nat} (h : reserved m.v r c = false) :
    (writemeta m ecl k).cell r c = m.cell r c := by
  refine Mat.cell_setVals_of_not_mem _ m r c fun hmem => ?_
  obtain ⟨⟨_, x⟩, hx, rfl⟩ := List.mem_map.mp hmem
  rw [exists_mem_metaCells_iff.mp ⟨x, hx⟩] at h
  cases h

theorem shaped_writemeta {m : Mat} (h : m.shaped) (ecl k : Nat) : (writemeta m ecl k).shaped := by
  obtain ⟨hmin, hmax, hlen, hrow⟩ := h
  rw [Mat.shaped, Mat.side, writemeta_v]
  exact ⟨hmin, hmax, Mat.setVals_square _ hlen hrow⟩

/-- Settles O38: each cell of the metadata is written with one colour, that of its bit. -/
theorem writemetaWritesBits : Obligations.WritemetaWritesBits := by
  intro m ecl k hm _ _
  exact ⟨fun i hi => ⟨val_cell_writemeta hm (mem_metaCells.mpr (.inl ⟨i, hi, .inl rfl, rfl⟩)),
      val_cell_writemeta hm (mem_metaCells.mpr (.inl ⟨i, hi, .inr rfl, rfl⟩))⟩,
    val_cell_writemeta hm (mem_metaCells.mpr (.inr (.inl ⟨rfl, rfl⟩))),
    fun hv i hi => ⟨val_cell_writemeta hm (mem_metaCells.mpr (.inr (.inr ⟨hv, i, hi, .inl rfl, rfl⟩))),
      val_cell_writemeta hm (mem_metaCells.mpr (.inr (.inr ⟨hv, i, hi, .inr rfl, rfl⟩)))⟩,
    fn_cell_writemeta m ecl k, fun _ _ => cell_writemeta_of_not_reserved, writemeta_v m ecl k,
    shaped_writemeta hm ecl k⟩

end Sys2Proof.Machine
end

section
/-! The invariant of the matrix: each command on it keeps every cell right for the `STAGE` it leaves, and the
obligations O15 and O20 (R45, R226, R239, R245, R260). -/

namespace Sys2Proof.Machine

/-! ### One cell -/

/-- What `Mat.cellsOk` says of the cell at `(r, c)` of a matrix for type number `v`. -/
def CellOk (g : Stage) (v r c : Nat) (e : Cell) : Prop :=
  e.fn = (layoutCell v r c).fn ∧ (∀ x, patternVal v r c = some x → e.val = x) ∧
    (patternVal v r c = none → e.fn = true → (e.val = .unset ↔ g ≠ .done)) ∧
    (e.fn = false → (e.val = .unset ↔ g = .layout))

theorem cellsOk_iff {g : Stage} {m : Mat} :
    m.cellsOk g ↔ ∀ r c, r < m.side → c < m.side → CellOk g m.v r c (m.cell r c) := Iff.rfl

/-- The function cells of the layout are those that a pattern draws and the reserved ones (R226). -/
theorem fn_layoutCell_eq_false {v r c : Nat} (h : (layoutCell v r c).fn = false) :
    patternVal v r c = none ∧ reserved v r c = false := by
  match hp : patternVal v r c with
  | some x => rw [layoutCell_of_pattern hp] at h; cases h
  | none => rw [layoutCell_of_no_pattern hp] at h; exact ⟨rfl, h⟩

theorem CellOk.layoutCell (v r c : Nat) : CellOk .layout v r c (layoutCell v r c) := by
  refine ⟨rfl, fun x hx => ?_, fun hnone _ => ?_, fun hdata => ?_⟩
  · rw [layoutCell_of_pattern hx]
  · rw [layoutCell_of_no_pattern hnone]
    exact iff_of_true rfl (by decide : Stage.layout ≠ .done)
  · rw [layoutCell_of_no_pattern (fn_layoutCell_eq_false hdata).1]
    exact iff_of_true rfl rfl

section
variable {g g' : Stage} {v r c : Nat} {e e' : Cell}

/-- A cell is right for two stages alike that are neither `LAYOUT` nor `DONE`. -/
theorem CellOk.congr (h : CellOk g v r c e) (hlayout : g' = .layout ↔ g = .layout) (hdone : g' = .done ↔ g = .done) :
    CellOk g' v r c e := by
  rwa [CellOk, hlayout, ne_eq, hdone]

/-- A data cell may have any colour from `MPLACE` on (R239). -/
theorem CellOk.setData (h : CellOk g v r c e) (hfn : e.fn = false) (hfn' : e'.fn = e.fn)
    (hx : e'.val = .unset ↔ g' = .layout) : CellOk g' v r c e' := by
  obtain ⟨hlayout, -⟩ := h
  have hnone := (fn_layoutCell_eq_false (hlayout.symm.trans hfn)).1
  refine ⟨hfn'.trans hlayout, fun y hy => ?_, fun _ hfun => ?_, fun _ => hx⟩
  · rw [hnone] at hy
    cases hy
  · cases (hfn'.trans hfn).symm.trans hfun

/-- A function cell does not depend on the stages before `MMETA`. -/
theorem CellOk.function (h : CellOk g v r c e) (hfn : e.fn = true) (hdone : g' = .done ↔ g = .done) :
    CellOk g' v r c e := by
  obtain ⟨hlayout, hdrawn, hreserved, -⟩ := h
  refine ⟨hlayout, hdrawn, ?_, fun hdata => ?_⟩
  · rwa [ne_eq, hdone]
  · cases hfn.symm.trans hdata

/-- A reserved cell may have any colour that is set once `MMETA` has written it (R240). -/
theorem CellOk.setReserved (h : CellOk g v r c e) (hv : v ≤ 40) (hres : reserved v r c = true)
    (hfn' : e'.fn = e.fn) (hx : e'.val ≠ .unset) : CellOk .done v r c e' := by
  obtain ⟨hlayout, -⟩ := h
  have hnone := patternVal_of_reserved hv hres
  have hfn : e.fn = true := by rw [hlayout, layoutCell_of_reserved hv hres]
  refine ⟨hfn'.trans hlayout, fun y hy => ?_, fun _ _ => iff_of_false hx (not_not.mpr rfl), fun hdata => ?_⟩
  · rw [hnone] at hy
    cases hy
  · cases (hfn'.trans hfn).symm.trans hdata

/-- A cell that `MMETA` does not write is right for the finished symbol. -/
theorem CellOk.done_of_not_reserved (h : CellOk .masked v r c e) (hres : reserved v r c = false) :
    CellOk .done v r c e := by
  obtain ⟨hlayout, hdrawn, -, hdata⟩ := h
  refine ⟨hlayout, hdrawn, fun hnone hfn => ?_, fun hfn => (hdata hfn).trans (by decide)⟩
  rw [hlayout, layoutCell_of_no_pattern hnone] at hfn
  cases hfn.symm.trans hres

end

/-! ### The whole matrix -/

theorem cellsOk_layout (v : Nat) : (layout v).cellsOk .layout := cellsOk_iff.mpr fun r c hr hc => by
  rw [cell_layout (v := v) hr hc]
  exact CellOk.layoutCell v r c

/-- `MPLACE` writes the data cells, all of them and nothing else (R239). -/
theorem cellsOk_place {m : Mat} (hm : m.shaped) (h : m.cellsOk .layout) (f : List Byte) :
    (place m f).cellsOk .placed := by
  obtain ⟨hcolour, hfn, hother, hv, -⟩ := placeWritesStream m f hm
  rw [cellsOk_iff, Mat.side, hv]
  intro r c hr hc
  have hcell := h r c hr hc
  by_cases hdata : (r, c) ∈ placeorder m
  · obtain ⟨-, -, -, hdatafn⟩ := mem_placeorder_iff.mp hdata
    obtain ⟨k, hk⟩ := List.mem_iff_getElem?.mp hdata
    have hval : ((place m f).cell r c).val ≠ .unset := by
      rw [hcolour k (r, c) hk]
      split <;> decide
    exact CellOk.setData hcell hdatafn (hfn r c) (iff_of_false hval (by decide))
  · rw [hother r c hdata]
    refine CellOk.function hcell (Bool.not_eq_false _ ▸ fun hdatafn => hdata ?_) (by decide)
    have ⟨h1, h40, _, _⟩ := hm
    refine mem_placeorder_iff.mpr ⟨hr, hc, ?_, hdatafn⟩
    rintro rfl
    rw [hcell.1, layoutCell_column_six h1 h40 hr] at hdatafn
    cases hdatafn

/-- A mask flips colours of data cells and unsets none (R182). -/
theorem cellsOk_applymask {m : Mat} {g : Stage} (h : m.cellsOk g) (k : Nat) : (applymask m k).cellsOk g := by
  intro r c hr hc
  have hcell : CellOk g m.v r c (m.cell r c) := h r c hr hc
  rw [cell_applymask m k hr hc]
  split
  · next hflip =>
    rw [Bool.and_eq_true, Bool.not_eq_true'] at hflip
    exact hcell.setData hflip.1 rfl (CellVal.flip_eq_unset_iff.trans (hcell.2.2.2 hflip.1))
  · exact hcell

theorem cellsOk_masked {m : Mat} (h : m.cellsOk .placed) : m.cellsOk .masked := fun r c hr hc =>
  CellOk.congr (h r c hr hc) (by decide) (by decide)

/-- `MMETA` writes the reserved cells, all of them and nothing else (R240). -/
theorem cellsOk_writemeta {m : Mat} (hm : m.shaped) (h : m.cellsOk .masked) (ecl k : Nat) :
    (writemeta m ecl k).cellsOk .done := by
  rw [cellsOk_iff, Mat.side, writemeta_v]
  intro r c hr hc
  have hcell : CellOk .masked m.v r c (m.cell r c) := h r c hr hc
  match hres : reserved m.v r c with
  | true =>
    obtain ⟨x, hx⟩ := (exists_mem_metaCells_iff (ecl := ecl) (k := k)).mpr hres
    have ⟨_, h40, _, _⟩ := hm
    exact hcell.setReserved h40 hres (fn_cell_writemeta m ecl k r c)
      ((val_cell_writemeta hm hx).trans_ne (ne_unset_of_mem_metaCells hx))
  | false =>
    rw [cell_writemeta_of_not_reserved hres]
    exact hcell.done_of_not_reserved hres

/-! ### The state -/

theorem matOk_none {s : State} (h : s.mat = none) : MatOk s ↔ s.stage.code < 3 := by rw [MatOk, h]

theorem matOk_of_none {s : State} {g : Stage} (h : s.mat = none) (hg : s.stage = g) (h3 : g.code < 3) : MatOk s :=
  (matOk_none h).mpr (hg ▸ h3)

theorem matOk_some {s : State} {m : Mat} (h : s.mat = some m) :
    MatOk s ↔ 3 ≤ s.stage.code ∧ m.shaped ∧ m.cellsOk s.stage := by rw [MatOk, h]

/-- Before `MINIT` there is no matrix (R45). -/
theorem MatOk.mat_eq_none {s : State} (hs : MatOk s) (h : s.stage.code < 3) : s.mat = none := by
  match hm : s.mat with
  | none => rfl
  | some m => exact absurd h (not_lt.mpr ((matOk_some hm).mp hs).1)

/-- From `MINIT` on there is one (R45). -/
theorem MatOk.exists_mat {s : State} (hs : MatOk s) (h : 3 ≤ s.stage.code) : ∃ m, s.mat = some m := by
  match hm : s.mat with
  | none => exact absurd ((matOk_none hm).mp hs) (not_lt.mpr h)
  | some m => exact ⟨m, rfl⟩

theorem MatOk.shaped_and_cellsOk {s : State} {m : Mat} {g : Stage} (hs : MatOk s) (hm : s.mat = some m)
    (hg : s.stage = g) : m.shaped ∧ m.cellsOk g := hg ▸ ((matOk_some hm).mp hs).2

theorem Effect.matOk {i : Instr} {s t : State} (h : Effect s i t) (hs : MatOk s) : MatOk t := by
  cases h
  case clr => exact matOk_of_none (g := .idle) rfl rfl (by decide)
  case csr h => rwa [MatOk, State.writeCsr_mat h, State.writeCsr_stage h]
  case rsgen hstage _ _ _ =>
    exact matOk_of_none (g := .ecDone) (hs.mat_eq_none (hstage ▸ by decide)) rfl (by decide)
  case ilv hstage _ _ _ _ =>
    exact matOk_of_none (g := .ilvDone) (hs.mat_eq_none (hstage ▸ by decide)) rfl (by decide)
  case minit hstage h1 h40 =>
    exact (matOk_some rfl).mpr ⟨(by decide : 3 ≤ Stage.layout.code), shaped_layout h1 h40, cellsOk_layout _⟩
  case mplace f hstage hm =>
    obtain ⟨hshape, hcells⟩ := hs.shaped_and_cellsOk hm hstage
    exact (matOk_some rfl).mpr
      ⟨(by decide : 3 ≤ Stage.placed.code), shaped_place hshape f, cellsOk_place hshape hcells f⟩
  case mapply k _ hstage hm =>
    obtain ⟨hcode, hshape, hcells⟩ := (matOk_some hm).mp hs
    exact (matOk_some rfl).mpr ⟨hcode, shaped_applymask hshape k, cellsOk_applymask hcells k⟩
  case mmask k _ hstage hm =>
    obtain ⟨hshape, hcells⟩ := hs.shaped_and_cellsOk hm hstage
    exact (matOk_some rfl).mpr ⟨(by decide : 3 ≤ Stage.masked.code), shaped_applymask hshape k,
      cellsOk_masked (cellsOk_applymask hcells k)⟩
  case mmeta hstage hm =>
    obtain ⟨hshape, hcells⟩ := hs.shaped_and_cellsOk hm hstage
    exact (matOk_some rfl).mpr
      ⟨(by decide : 3 ≤ Stage.done.code), shaped_writemeta hshape _ _, cellsOk_writemeta hshape hcells _ _⟩
  all_goals exact hs

theorem matOk_invariant : Invariant MatOk where
  reset := (by decide : Stage.idle.code < 3)
  inbox _ _ hs := hs
  latch _ _ _ hs := hs
  write _ _ _ hs := hs
  effect _ _ _ h := h.matOk

/-- Settles O20: the commands on the matrix, stage by stage, and the others leave it and `STAGE` alone or clear both. -/
theorem stepKeepsMatrix : Obligations.StepKeepsMatrix := matOk_invariant.step

/-- Settles O15: every invariant holds after reset. -/
theorem resetMeetsInvariants : Obligations.ResetMeetsInvariants :=
  ⟨memOk_invariant.reset, polyOk_invariant.reset, faultOk_invariant.reset, csrOk_invariant.reset,
    resultOk_invariant.reset, matOk_invariant.reset⟩

end Sys2Proof.Machine
end

section
/-! That the model never stops: a rule stops only where it reads a matrix that is absent, and the invariant of the
matrix shuts that out at the stages where a rule reads it. The obligation O21. -/

namespace Sys2Proof.Machine

/-- The rule, or part of a rule, `m` gives a result or raises: the model does not stop. -/
def Answers {α : Type} (m : Act α) : Prop := ∀ f, m ≠ .error (.stuck f)

namespace Answers

variable {α β : Type} {s : State}

/-! ### Sequencing -/

theorem ok {a : α} : Answers (.ok a : Act α) := nofun

theorem raise {c : SubCause} : Answers (Machine.raise c : Act α) := nofun

theorem raiseIf {p : Prop} [Decidable p] {c : SubCause} : Answers (Machine.raiseIf p c) := by
  by_cases hp : p
  · rw [raiseIf_pos hp]; exact raise
  · rw [raiseIf_neg hp]; exact ok

theorem bind {m : Act α} {f : α → Act β} (hm : Answers m) (hf : ∀ a, m = .ok a → Answers (f a)) :
    Answers (m >>= f) := by
  intro e h
  match m with
  | .ok a => exact hf a rfl e h
  | .error (.raised _) => cases h
  | .error (.stuck e') => exact hm e' rfl

/-! ### The shared operations -/

theorem readX {r : XReg} : Answers (s.readX r) := by
  rcases s.readX_cases r with ⟨v, hv⟩ | hv <;> rw [hv]
  · exact ok
  · exact raise

theorem readP {r : PReg} : Answers (s.readP r) := by
  rcases s.readP_cases r with ⟨q, hq⟩ | hq <;> rw [hq]
  · exact ok
  · exact raise

theorem readXX {ra rb : XReg} : Answers (s.readXX ra rb) := bind readX fun _ _ => bind readX fun _ _ => ok

theorem readPP {ra rb : PReg} : Answers (s.readPP ra rb) := bind readP fun _ _ => bind readP fun _ _ => ok

theorem readElems {ra rb : XReg} : Answers (s.readElems ra rb) := bind readXX fun _ _ => bind raiseIf fun _ _ => ok

theorem memRead {a : Int} {n : Nat} : Answers (s.memRead a n) :=
  bind raiseIf fun _ _ => by
    split
    · exact ok
    · exact raise

theorem memWrite {a : Int} {bs : List Byte} : Answers (s.memWrite a bs) := bind raiseIf fun _ _ => ok

theorem atStage {g : Stage} : Answers (s.atStage g) := raiseIf

theorem fromStage {g : Stage} : Answers (s.fromStage g) := raiseIf

/-- A matrix is there to be read from `MINIT` on. -/
theorem readMat (hs : MatOk s) (h : 3 ≤ s.stage.code) : Answers s.readMat := by
  obtain ⟨m, hm⟩ := hs.exists_mat h
  rw [State.readMat_eq_ok.mpr hm]
  exact ok

theorem glog {v : Int} : Answers (Machine.glog v) := bind raiseIf fun _ _ => ok

theorem pmodLoop {b : Poly} (fuel : Nat) (r : Poly) : Answers (Machine.pmodLoop fuel r b) := by
  induction fuel generalizing r with
  | zero => exact ok
  | succ fuel ih =>
    unfold Machine.pmodLoop
    split
    · exact bind glog fun _ _ => bind glog fun _ _ => ih _
    · exact ok

theorem pmod {a b : Poly} : Answers (Machine.pmod a b) := pmodLoop _ _

theorem rsecAll (bl : List Block) (d : List Byte) : Answers (Machine.rsecAll bl d) := by
  induction bl generalizing d with
  | nil => exact ok
  | cons b bl ih => exact bind (bind pmod fun _ _ => ok) fun _ _ => bind (ih _) fun _ _ => ok

theorem blocks : Answers s.blocks :=
  bind raiseIf fun _ _ => bind memRead fun _ _ => bind raiseIf fun _ _ => bind raiseIf fun _ _ => ok

end Answers

/-! ### The stage commands -/

section
variable {s : State}

theorem rsgenRule_answers : Answers (rsgenRule s) :=
  .bind .atStage fun _ _ => .bind .blocks fun _ _ => .bind .memRead fun _ _ => .bind .raiseIf fun _ _ =>
    .bind (.rsecAll _ _) fun _ _ => .bind .memWrite fun _ _ => .ok

theorem ilvRule_answers : Answers (ilvRule s) :=
  .bind .atStage fun _ _ => .bind .blocks fun _ _ => .bind .raiseIf fun _ _ => .bind .memRead fun _ _ =>
    .bind .memRead fun _ _ => .bind .raiseIf fun _ _ => .bind .memWrite fun _ _ => .ok

theorem minitRule_answers : Answers (minitRule s) := .bind .atStage fun _ _ => .bind .raiseIf fun _ _ => .ok

/-- A `STAGE` check that passes at `MINIT`'s stage or later lets the matrix be read. -/
theorem three_le_code_of_atStage {g : Stage} {u : Unit} (h : s.atStage g = .ok u) (hg : 3 ≤ g.code) :
    3 ≤ s.stage.code := State.atStage_eq_ok.mp h ▸ hg

theorem three_le_code_of_fromStage {g : Stage} {u : Unit} (h : s.fromStage g = .ok u) (hg : 3 ≤ g.code) :
    3 ≤ s.stage.code := hg.trans (State.fromStage_eq_ok.mp h)

variable (hs : MatOk s)
include hs

theorem mplaceRule_answers : Answers (mplaceRule s) :=
  .bind .atStage fun _ hg => .bind .memRead fun _ _ =>
    .bind (.readMat hs (three_le_code_of_atStage hg (by decide))) fun _ _ => .bind .raiseIf fun _ _ => .ok

theorem mmaskRule_answers : Answers (mmaskRule s) :=
  .bind .atStage fun _ hg => .bind (.readMat hs (three_le_code_of_atStage hg (by decide))) fun _ _ => .ok

theorem mmetaRule_answers : Answers (mmetaRule s) :=
  .bind .atStage fun _ hg => .bind (.readMat hs (three_le_code_of_atStage hg (by decide))) fun _ _ => .ok

/-- Each stage of `ENCODE` finds the matrix as the one before it left it. -/
theorem encodeRule_answers : Answers (encodeRule s) := by
  have keeps {i : Instr} {u v : State} (hrst : i ≠ .rst) (henc : i ≠ .encode) (hrule : ruleOf i u = .ok v)
      (hu : MatOk u) : MatOk v := (effect_of_ruleOf_eq_ok hrst henc hrule).matOk hu
  refine .bind rsgenRule_answers fun s1 h1 => .bind ilvRule_answers fun s2 h2 => .bind minitRule_answers fun s3 h3 => ?_
  have hs1 := keeps (i := .rsgen) (by decide) (by decide) h1 hs
  have hs2 := keeps (i := .ilv) (by decide) (by decide) h2 hs1
  have hs3 := keeps (i := .minit) (by decide) (by decide) h3 hs2
  refine .bind (mplaceRule_answers hs3) fun s4 h4 => ?_
  have hs4 := keeps (i := .mplace) (by decide) (by decide) h4 hs3
  refine .bind (mmaskRule_answers hs4) fun s5 h5 => ?_
  exact mmetaRule_answers (keeps (i := .mmask) (by decide) (by decide) h5 hs4)

/-! ### Every command and every step -/

theorem ruleOf_answers (i : Instr) : Answers (ruleOf i s) := by
  cases i
  case nop | rst | clr | li => exact .ok
  case lb => exact .bind .readX fun _ _ => .bind .memRead fun _ _ => .ok
  case sb => exact .bind .readX fun _ _ => .bind .readX fun _ _ => .bind .raiseIf fun _ _ => .memWrite
  case csrr n =>
    show Answers (csrrRule _ n s)
    unfold csrrRule
    split
    · exact .raise
    · exact .ok
  case csrw =>
    refine .bind .readX fun _ _ => ?_
    split
    · exact .raise
    · exact .ok
  case gexp => exact .bind .readX fun _ _ => .ok
  case glog => exact .bind .readX fun _ _ => .bind .glog fun _ _ => .ok
  case gfmul | gfadd => exact .bind .readElems fun _ _ => .ok
  case pld => exact .bind .readXX fun _ _ => .bind .raiseIf fun _ _ => .bind .memRead fun _ _ => .ok
  case pst => exact .bind .readP fun _ _ => .bind .readXX fun _ _ => .bind .raiseIf fun _ _ => .memWrite
  case plen => exact .bind .readP fun _ _ => .ok
  case pget | pshift => exact .bind .readP fun _ _ => .bind .readX fun _ _ => .bind .raiseIf fun _ _ => .ok
  case pmul => exact .bind .readPP fun _ _ => .bind .raiseIf fun _ _ => .ok
  case pmod => exact .bind .readPP fun _ _ => .bind .pmod fun _ _ => .ok
  case pgen | bchver => exact .bind .readX fun _ _ => .bind .raiseIf fun _ _ => .ok
  case bchfmt => exact .bind .readXX fun _ _ => .bind .raiseIf fun _ _ => .ok
  case mskbit => exact .bind .readXX fun _ _ => .bind .raiseIf fun _ _ => .bind .raiseIf fun _ _ => .ok
  case mrd =>
    exact .bind .readXX fun _ _ => .bind .fromStage fun _ hg =>
      .bind (.readMat hs (three_le_code_of_fromStage hg (by decide))) fun _ _ => .bind .raiseIf fun _ _ => .ok
  case mapply =>
    exact .bind .atStage fun _ hg => .bind .raiseIf fun _ _ =>
      .bind (.readMat hs (three_le_code_of_atStage hg (by decide))) fun _ _ => .ok
  case mscore =>
    exact .bind .fromStage fun _ hg => .bind .raiseIf fun _ _ =>
      .bind (.readMat hs (three_le_code_of_fromStage hg (by decide))) fun _ _ => .ok
  case rsgen => exact rsgenRule_answers
  case ilv => exact ilvRule_answers
  case minit => exact minitRule_answers
  case mplace => exact mplaceRule_answers hs
  case mmask => exact mmaskRule_answers hs
  case mmeta => exact mmetaRule_answers hs
  case encode => exact encodeRule_answers hs

theorem exists_exec_eq_next (i : Instr) : ∃ t, exec i s = .next t := by
  match h : ruleOf i s with
  | .ok t => exact ⟨t, exec_of_ruleOf h⟩
  | .error (.raised c) => exact ⟨_, raises_of_ruleOf h⟩
  | .error (.stuck f) => exact absurd h (ruleOf_answers hs i f)

theorem exists_commandPort_eq_next (w : Word) : ∃ t, commandPort w s = .next t := by
  by_cases herr : s.err = .noError
  · match hw : decode w with
    | .error e => exact ⟨_, commandPort_of_illegal herr hw⟩
    | .ok i => rw [commandPort_of_legal herr hw]; exact exists_exec_eq_next hs i
  · by_cases hw : w = rstWord
    · exact ⟨_, hw ▸ commandPort_rstWord s⟩
    · exact ⟨_, commandPort_of_faulted herr hw⟩

end

/-- Settles O21: of the host's actions only a command could stop the model, and the invariant lets none. -/
theorem stepAlwaysAnswers : Obligations.StepAlwaysAnswers := by
  intro s hs
  match hin : s.inbox with
  | [] => exact ⟨s, step_of_inbox_nil hin⟩
  | e :: rest =>
    rw [step_of_inbox_cons hin]
    cases e with
    | command w => exact exists_commandPort_eq_next (s := { s with inbox := rest }) hs w
    | memWrite a b => exact ⟨_, rfl⟩
    | hardReset => exact ⟨_, rfl⟩

end Sys2Proof.Machine
end

section
/-! `MSKBIT`, `MINIT` and `MPLACE`: their rules on each outcome of their checks, and the obligations O57 and O59
(R181, R191, R241, R242). -/

namespace Sys2Proof.Machine

/-! ### `MSKBIT` (R191) -/

theorem mskbitRule_unwritten {rd ra rb : XReg} {k : Nat} {s : State} (h : s.x[ra] = none ∨ s.x[rb] = none) :
    mskbitRule rd ra rb k s = raise .unwritten := by
  rw [mskbitRule, State.readXX_unwritten h, Act.raise_bind]

/-- `MSKBIT` with its registers written checks the pattern, then the coordinates, and writes the mask bit. -/
theorem mskbitRule_of_operands {rd ra rb : XReg} {k : Nat} {s : State} {r c : Word} (hr : s.x[ra] = some r)
    (hc : s.x[rb] = some c) :
    mskbitRule rd ra rb k s =
      (raiseIf (k > 7) .badConfig >>= fun _ =>
        raiseIf (r.toInt < 0 ∨ r.toInt > 176 ∨ c.toInt < 0 ∨ c.toInt > 176) .range >>= fun _ =>
          .ok (s.setX rd (if maskfn k r.toInt.toNat c.toInt.toNat then 1 else 0))) := by
  rw [mskbitRule, State.readXX_some hr hc, Act.ok_bind]

theorem State.setX_bit (s : State) (r : XReg) (b : Bool) :
    s.setX r (if b then 1 else 0) = { s with x := s.x.set r (some (if b = true then 1 else 0)) } := by
  cases b <;> rfl

/-- The eight mask functions (R181). -/
theorem maskfn_iff (r c : Nat) :
    (maskfn 0 r c = true ↔ (r + c) % 2 = 0) ∧ (maskfn 1 r c = true ↔ r % 2 = 0) ∧
      (maskfn 2 r c = true ↔ c % 3 = 0) ∧ (maskfn 3 r c = true ↔ (r + c) % 3 = 0) ∧
      (maskfn 4 r c = true ↔ (r / 2 + c / 3) % 2 = 0) ∧ (maskfn 5 r c = true ↔ r * c % 2 + r * c % 3 = 0) ∧
      (maskfn 6 r c = true ↔ (r * c % 2 + r * c % 3) % 2 = 0) ∧
      (maskfn 7 r c = true ↔ (r * c % 3 + (r + c) % 2) % 2 = 0) :=
  ⟨beq_iff_eq, beq_iff_eq, beq_iff_eq, beq_iff_eq, beq_iff_eq, beq_iff_eq, beq_iff_eq, beq_iff_eq⟩

/-- Settles O57: after the reads the pattern and then the coordinates decide the command. -/
theorem mskbitResult : Obligations.MskbitResult := by
  refine ⟨maskfn_iff, fun rd ra rb k s => ⟨(decode_mskbit (opField_packR ..)).trans (fmtXXXI_packR ..),
    fun h => raises_of_ruleOf (mskbitRule_unwritten h), fun r c hr hc => ⟨fun hk => raises_of_ruleOf ?_,
    fun hk => ⟨fun hbad => raises_of_ruleOf ?_, fun hr0 hr176 hc0 hc176 => exec_of_ruleOf ?_⟩⟩⟩⟩
  · show mskbitRule rd ra rb _ s = _
    rw [mskbitRule_of_operands hr hc, raiseIf_pos hk, Act.raise_bind]
  · show mskbitRule rd ra rb _ s = _
    rw [mskbitRule_of_operands hr hc, raiseIf_neg (not_lt.mpr hk), Act.ok_bind, raiseIf_pos hbad, Act.raise_bind]
  · show mskbitRule rd ra rb _ s = _
    rw [mskbitRule_of_operands hr hc, raiseIf_neg (not_lt.mpr hk), Act.ok_bind, raiseIf_neg (by omega), Act.ok_bind,
      toNat_toInt_of_nonneg hr0, toNat_toInt_of_nonneg hc0, State.setX_bit]

/-! ### `MINIT` (R241) -/

theorem minitRule_badConfig {s : State} (h : s.stage = .ilvDone) (hv : s.typenum < 1 ∨ s.typenum > 40) :
    minitRule s = raise .badConfig := by
  rw [minitRule, State.atStage_of_eq h, Act.ok_bind, raiseIf_pos hv, Act.raise_bind]

theorem minitRule_of_typenum {s : State} (h : s.stage = .ilvDone) (h1 : 1 ≤ s.typenum) (h40 : s.typenum ≤ 40) :
    minitRule s = .ok { s with mat := some (layout s.typenum), stage := .layout } := by
  rw [minitRule, State.atStage_of_eq h, Act.ok_bind, raiseIf_neg (by omega), Act.ok_bind, State.setMat,
    State.setStage]

/-! ### `MPLACE` (R242) -/

theorem mplaceRule_of_stream_raise {s : State} {c : SubCause} (h : s.stage = .layout)
    (hf : s.memRead s.faddr.toNat s.flen.toNat = raise c) : mplaceRule s = raise c := by
  rw [mplaceRule, State.atStage_of_eq h, Act.ok_bind, hf, Act.raise_bind]

/-- `MPLACE` with its stream read and a matrix present checks the capacity and places the stream. -/
theorem mplaceRule_of_stream {s : State} {f : List Byte} {m : Mat} (h : s.stage = .layout)
    (hf : s.memRead s.faddr.toNat s.flen.toNat = .ok f) (hm : s.mat = some m) :
    mplaceRule s = (raiseIf (8 * s.flen.toNat > freecells m.v) .capacity >>= fun _ =>
      .ok { s with mat := some (place m f), stage := .placed }) := by
  rw [mplaceRule, State.atStage_of_eq h, Act.ok_bind, hf, Act.ok_bind, State.readMat_eq_ok.mpr hm, Act.ok_bind,
    State.setMat, State.setStage]

/-- Settles O59: `STAGE`, then for `MINIT` the type number, for `MPLACE` the read of the stream and the capacity,
decide each command. -/
theorem minitMplaceResults : Obligations.MinitMplaceResults := by
  constructor
  · intro s
    exact ⟨rfl, fun h => raises_of_ruleOf (minitRule_badStage h), fun h =>
      ⟨fun hv => raises_of_ruleOf (minitRule_badConfig h hv), fun h1 h40 =>
      ⟨_, exec_of_ruleOf (minitRule_of_typenum h h1 h40), rfl, rfl⟩⟩⟩
  · intro s
    refine ⟨rfl, fun h => raises_of_ruleOf (mplaceRule_badStage h), fun h =>
      ⟨fun hout => raises_of_ruleOf (mplaceRule_of_stream_raise h (State.memRead_natCast_outside hout)), fun hin =>
      ⟨fun hnone => raises_of_ruleOf (mplaceRule_of_stream_raise h (State.memRead_natCast_unwritten hin hnone)),
      fun f m hf hm => ?_⟩⟩⟩
    have hrule := mplaceRule_of_stream h (State.memRead_natCast_eq_ok hin hf) hm
    refine ⟨fun hbig => raises_of_ruleOf (hrule.trans ?_), fun hfits => exec_of_ruleOf (hrule.trans ?_)⟩
    · rw [raiseIf_pos hbig, Act.raise_bind]
    · rw [raiseIf_neg (not_lt.mpr hfits), Act.ok_bind]

end Sys2Proof.Machine
end

section
/-! The field laws of GF(256): the product in log-space, multiplication by the generator as the doubling of the
construction loop, and the obligation O23 (R127, R132). -/

namespace Sys2Proof.Machine

/-! ### The powers of the generator (R122, R125) -/

theorem expByLoop_succ (e : Nat) : expByLoop (e + 1) = gfDouble (expByLoop e) := rfl

theorem expByLoop_add_255 (e : Nat) : expByLoop (e + 255) = expByLoop e := by
  induction e with
  | zero => exact expByLoop_255
  | succ e ih => rw [Nat.succ_add, expByLoop_succ, ih, ← expByLoop_succ]

theorem expByLoop_mod (e : Nat) : expByLoop (e % 255) = expByLoop e := by
  conv_rhs => rw [← Nat.mod_add_div e 255]
  induction e / 255 with
  | zero => rfl
  | succ q ih => rw [Nat.mul_succ, ← Nat.add_assoc, expByLoop_add_255, ih]

/-- `gexp` is the construction loop at every exponent. -/
theorem toNat_gexp_natCast (e : Nat) : (gexp e).toNat = expByLoop e := by
  have hmod : ((e : Int) % 255).toNat = e % 255 := by omega
  have hget := expTable_getElem?_emod e
  rw [hmod, expTable_getElem? (Nat.mod_lt e (by decide))] at hget
  rw [← Option.some.inj hget, expByLoop_mod]

theorem gexp_zero : gexp 0 = 1 := by decide

theorem exists_eq_gexp {a : Byte} (ha : a ≠ 0) : ∃ e : Nat, a = gexp e := ⟨logOf a, (gexp_logOf ha).symm⟩

theorem gfmul_gexp (e e' : Int) : gfmul (gexp e) (gexp e') = gexp (e + e') := by
  rw [gfmul_of_ne_zero (gexp_ne_zero e) (gexp_ne_zero e')]
  refine gexp_congr ?_
  rw [logOf_gexp, logOf_gexp, ← Int.add_emod]

/-! ### The laws in log-space -/

theorem gfmul_comm (a b : Byte) : gfmul a b = gfmul b a := by
  exact if_congr or_comm rfl (by rw [add_comm])

theorem gfmul_zero (a : Byte) : gfmul a 0 = 0 := gfmul_of_zero (.inr rfl)

theorem zero_gfmul (a : Byte) : gfmul 0 a = 0 := gfmul_of_zero (.inl rfl)

theorem gfmul_eq_zero_iff {a b : Byte} : gfmul a b = 0 ↔ a = 0 ∨ b = 0 := by
  refine ⟨fun h => ?_, gfmul_of_zero⟩
  by_contra hne
  obtain ⟨ha, hb⟩ := not_or.mp hne
  exact gfmul_ne_zero ha hb h

theorem gfmul_assoc (a b c : Byte) : gfmul (gfmul a b) c = gfmul a (gfmul b c) := by
  by_cases ha : a = 0
  · rw [ha, zero_gfmul, zero_gfmul, zero_gfmul]
  by_cases hb : b = 0
  · rw [hb, gfmul_zero, zero_gfmul, gfmul_zero]
  by_cases hc : c = 0
  · rw [hc, gfmul_zero, gfmul_zero, gfmul_zero]
  obtain ⟨x, rfl⟩ := exists_eq_gexp ha
  obtain ⟨y, rfl⟩ := exists_eq_gexp hb
  obtain ⟨z, rfl⟩ := exists_eq_gexp hc
  rw [gfmul_gexp, gfmul_gexp, gfmul_gexp, gfmul_gexp, add_assoc]

theorem gfmul_one (a : Byte) : gfmul a 1 = a := by
  by_cases ha : a = 0
  · rw [ha, zero_gfmul]
  obtain ⟨e, rfl⟩ := exists_eq_gexp ha
  rw [← gexp_zero, gfmul_gexp, add_zero]

theorem one_gfmul (a : Byte) : gfmul 1 a = a := by rw [gfmul_comm, gfmul_one]

theorem gfmul_gexp_neg {a : Byte} (ha : a ≠ 0) : gfmul a (gexp (255 - (logOf a : Int))) = 1 := by
  have hexp : gexp ((logOf a : Int) + (255 - logOf a)) = gexp 0 := gexp_congr (by omega)
  conv_lhs => rw [← gexp_logOf ha, logOf_gexp]
  rw [gfmul_gexp, ← gexp_zero]
  refine gexp_congr ?_
  omega

/-! ### Doubling, and the law that ties the product to the sum -/

/-- One turn of the construction loop on an element: the shift, reduced where it leaves the byte. -/
def double (a : Byte) : Byte := a <<< 1 ^^^ if a.msb then 0x1D else 0

theorem toNat_double (a : Byte) : (double a).toNat = gfDouble a.toNat := by
  revert a
  decide

theorem double_xor (a b : Byte) : double (a ^^^ b) = double a ^^^ double b := by
  have hbit (x y : Bool) : (if (x ^^ y) = true then (0x1D : Byte) else 0) =
      (if x = true then 0x1D else 0) ^^^ if y = true then 0x1D else 0 := by
    cases x <;> cases y <;> rfl
  rw [double, double, double, BitVec.shiftLeft_xor_distrib, BitVec.msb_xor, hbit]
  ac_rfl

theorem gfmul_two (a : Byte) : gfmul a 2 = double a := by
  by_cases ha : a = 0
  · rw [ha]
    rfl
  have htwo : (2 : Byte) = gexp 1 := by decide
  obtain ⟨e, rfl⟩ := exists_eq_gexp ha
  refine BitVec.eq_of_toNat_eq ?_
  rw [htwo, gfmul_gexp, toNat_double, toNat_gexp_natCast, ← expByLoop_succ, ← toNat_gexp_natCast]
  rfl

theorem gfmul_gexp_xor (e : Nat) (b c : Byte) :
    gfmul (gexp e) (b ^^^ c) = gfmul (gexp e) b ^^^ gfmul (gexp e) c := by
  induction e generalizing b c with
  | zero => rw [Nat.cast_zero, gexp_zero, one_gfmul, one_gfmul, one_gfmul]
  | succ e ih =>
    have hstep (x : Byte) : gfmul (gexp (e + 1 : Nat)) x = gfmul (gexp e) (double x) := by
      rw [← gfmul_two, gfmul_comm x, ← gfmul_assoc, show (2 : Byte) = gexp 1 by decide, gfmul_gexp]
      rfl
    rw [hstep, hstep, hstep, double_xor, ih]

/-- The product distributes over the sum. -/
theorem gfmul_xor (a b c : Byte) : gfmul a (b ^^^ c) = gfmul a b ^^^ gfmul a c := by
  by_cases ha : a = 0
  · rw [ha, zero_gfmul, zero_gfmul, zero_gfmul, BitVec.xor_self]
    rfl
  obtain ⟨e, rfl⟩ := exists_eq_gexp ha
  exact gfmul_gexp_xor e b c

theorem toNat_gfmul_two (a : Byte) :
    (gfmul a 2).toNat = if a.toNat < 128 then 2 * a.toNat else (2 * a.toNat) ^^^ 0x11D := by
  rw [gfmul_two, toNat_double, gfDouble]
  by_cases h : a.toNat < 128
  · rw [if_pos h, if_neg (by omega)]
  · rw [if_neg h, if_pos (by omega)]

/-- Settles O23: the laws of the product hold in log-space, and the one that ties it to the sum for the powers of the
generator by induction, since doubling is additive. -/
theorem gfFieldLaws : Obligations.GfFieldLaws := fun a b c =>
  ⟨gfmul_comm a b, gfmul_assoc a b c, gfmul_one a, gfmul_eq_zero_iff, gfmul_xor a b c, toNat_gfmul_two a,
    fun ha => ⟨logOf a, glog_toNat ha, gfmul_gexp_neg ha⟩⟩

end Sys2Proof.Machine
end

section
/-! The value of a polynomial at an element: it is linear and multiplicative, the generator polynomial vanishes at its
roots and so does a codeword, and the obligation O27 (R205, R207). -/

namespace Sys2Proof.Machine

/-- `x` to the power `n`. -/
def gfpow (x : Byte) : Nat → Byte
  | 0 => 1
  | n + 1 => gfmul x (gfpow x n)

theorem gfmul_gfadd (a b c : Byte) : gfmul a (gfadd b c) = gfadd (gfmul a b) (gfmul a c) := gfmul_xor a b c

theorem gfadd_gfmul (a b c : Byte) : gfmul (gfadd a b) c = gfadd (gfmul a c) (gfmul b c) := by
  rw [gfmul_comm, gfmul_gfadd, gfmul_comm c, gfmul_comm c]

/-! ### The scheme of the evaluation -/

/-- What has been evaluated so far is moved up by the length of the rest. -/
theorem foldl_horner (s : List Byte) (x acc : Byte) :
    s.foldl (fun acc c => gfadd (gfmul acc x) c) acc = gfadd (gfmul acc (gfpow x s.length)) (polyEval s x) := by
  induction s generalizing acc with
  | nil => exact ((gfadd_zero _).trans (gfmul_one acc)).symm
  | cons c s ih =>
    rw [polyEval, List.foldl_cons, List.foldl_cons, ih, ih, zero_gfmul, zero_gfadd, gfadd_gfmul, gfadd_assoc,
      gfmul_assoc]
    rfl

theorem polyEval_append (s t : List Byte) (x : Byte) :
    polyEval (s ++ t) x = gfadd (gfmul (polyEval s x) (gfpow x t.length)) (polyEval t x) := by
  rw [polyEval, List.foldl_append, foldl_horner]
  rfl

theorem polyEval_cons (a : Byte) (s : List Byte) (x : Byte) :
    polyEval (a :: s) x = gfadd (gfmul a (gfpow x s.length)) (polyEval s x) := by
  rw [polyEval, List.foldl_cons, zero_gfmul, zero_gfadd, foldl_horner]

/-! ### The value as a sum over the coefficients -/

/-- The sum of `c(k) * x^k` over `k < n`. -/
def powerSum (c : Nat → Byte) (x : Byte) : Nat → Byte
  | 0 => 0
  | n + 1 => gfadd (gfmul (c n) (gfpow x n)) (powerSum c x n)

theorem powerSum_congr {c d : Nat → Byte} {n : Nat} (x : Byte) (h : ∀ k < n, c k = d k) :
    powerSum c x n = powerSum d x n := by
  induction n with
  | zero => rfl
  | succ n ih => rw [powerSum, powerSum, h n n.lt_succ_self, ih fun k hk => h k (Nat.lt_succ_of_lt hk)]

theorem powerSum_gfadd (c d : Nat → Byte) (x : Byte) (n : Nat) :
    powerSum (fun k => gfadd (c k) (d k)) x n = gfadd (powerSum c x n) (powerSum d x n) := by
  induction n with
  | zero => exact (gfadd_self 0).symm
  | succ n ih =>
    rw [powerSum, powerSum, powerSum, ih, gfadd_gfmul]
    simp only [gfadd]
    ac_rfl

theorem polyEval_eq_powerSum {s : List Byte} {n : Nat} (x : Byte) (h : s.length ≤ n) :
    polyEval s x = powerSum (coeff s) x n := by
  induction h with
  | refl =>
    induction s with
    | nil => rfl
    | cons a s ih =>
      have hlow (k : Nat) (hk : k < s.length) : coeff s k = coeff (a :: s) k := by rw [coeff_cons, if_neg hk.ne]
      rw [polyEval_cons, ih, List.length_cons, powerSum, coeff_cons, if_pos rfl, powerSum_congr x hlow]
  | step hle ih => rw [powerSum, coeff_of_length_le hle, zero_gfmul, zero_gfadd, ih]

theorem polyEval_congr {s t : List Byte} (x : Byte) (h : ∀ k, coeff s k = coeff t k) :
    polyEval s x = polyEval t x := by
  rw [polyEval_eq_powerSum x (le_max_left s.length t.length), polyEval_eq_powerSum x (le_max_right s.length t.length),
    powerSum_congr x fun k _ => h k]

/-- A sum of polynomials is evaluated summand by summand. -/
theorem polyEval_of_coeff_gfadd {s t u : List Byte} (x : Byte) (h : ∀ k, coeff u k = gfadd (coeff s k) (coeff t k)) :
    polyEval u x = gfadd (polyEval s x) (polyEval t x) := by
  have hu : u.length ≤ max u.length (max s.length t.length) := le_max_left ..
  have hs : s.length ≤ max u.length (max s.length t.length) := (le_max_left ..).trans (le_max_right ..)
  have ht : t.length ≤ max u.length (max s.length t.length) := (le_max_right ..).trans (le_max_right ..)
  rw [polyEval_eq_powerSum x hu, polyEval_eq_powerSum x hs, polyEval_eq_powerSum x ht, ← powerSum_gfadd,
    powerSum_congr x fun k _ => h k]

theorem polyEval_trim (s : List Byte) (x : Byte) : polyEval (trim s) x = polyEval s x :=
  polyEval_congr x (coeff_trim s)

theorem polyEval_zeros (n : Nat) (x : Byte) : polyEval (zeros n) x = 0 :=
  polyEval_congr (t := []) x fun k => coeff_zeros n k

/-! ### Products -/

theorem polyEval_map_gfmul (y : Byte) (s : List Byte) (x : Byte) :
    polyEval (s.map (gfmul y)) x = gfmul y (polyEval s x) := by
  induction s with
  | nil => exact (gfmul_zero y).symm
  | cons a s ih => rw [List.map_cons, polyEval_cons, polyEval_cons, ih, List.length_map, gfmul_gfadd, gfmul_assoc]

/-- A product is evaluated factor by factor (R143). -/
theorem polyEval_convolve (a : List Byte) {b : List Byte} (hb : b ≠ []) (x : Byte) :
    polyEval (convolve a b) x = gfmul (polyEval a x) (polyEval b x) := by
  induction a with
  | nil => exact (polyEval_zeros _ x).trans (zero_gfmul _).symm
  | cons y s ih =>
    rw [polyEval_of_coeff_gfadd x (coeff_convolve_cons y s hb), ih, polyEval_append, polyEval_map_gfmul, polyEval_zeros,
      gfadd_zero, length_zeros, polyEval_cons, gfadd_gfmul, gfmul_assoc, gfmul_assoc, gfmul_comm (polyEval b x)]

/-! ### The roots of the generator polynomial and of a codeword -/

theorem polyEval_linear (y x : Byte) : polyEval [1, y] x = gfadd x y := by
  rw [polyEval, List.foldl_cons, zero_gfmul, zero_gfadd, List.foldl_cons, one_gfmul]
  rfl

theorem polyEval_genpoly_of_lt {i n : Nat} (h : i < n) : polyEval (genpoly n) (gexp i) = 0 := by
  induction n with
  | zero => exact absurd h (Nat.not_lt_zero i)
  | succ n ih =>
    rw [genpoly, pmul, polyEval_trim, polyEval_convolve _ (List.cons_ne_nil _ _), polyEval_linear]
    rcases Nat.lt_succ_iff_lt_or_eq.mp h with hlt | rfl
    · rw [ih hlt, zero_gfmul]
    · rw [gfadd_self, gfmul_zero]

/-- The EC codewords are the remainder that the shifted data leave: the codeword is a multiple of `genpoly(n)`. -/
theorem exists_rsec_eq_ok_multiple (data : List Byte) {n : Nat} (hn : 1 ≤ n) :
    ∃ e q, rsec data n = .ok e ∧ e.length = n ∧ ∀ k, coeff (data ++ e) k = coeff (convolve q (genpoly n)) k := by
  obtain ⟨e, he, hlen⟩ := exists_rsec_eq_ok data hn
  obtain ⟨q, r, hr, hdiv⟩ := pmod_division (trimmed_pshift (trim data) hn) (trimmed_genpoly n) (genpoly_ne_zero n)
  have hpad : padleft r n = e := by
    rw [rsec, hr, Act.ok_bind] at he
    exact Except.ok.inj he
  refine ⟨e, q, he, hlen, fun k => ?_⟩
  have hrem : coeff r k = coeff e k := by rw [← hpad, coeff_padleft]
  rw [← hdiv.sum_eq, pshift, coeff_trim, hrem, coeff_append, coeff_append, hlen, length_zeros, coeff_trim, coeff_zeros]
  split
  · exact (zero_gfadd _).symm
  · next hk => rw [coeff_of_length_le (hlen.le.trans (not_lt.mp hk)), gfadd_zero]

/-- Settles O27: a codeword is a multiple of the generator polynomial, each of whose factors vanishes at its root. -/
theorem rsCodewordRoots : Obligations.RsCodewordRoots := by
  intro data n _ hn
  obtain ⟨t, ht, -⟩ := exists_genpoly_eq_cons n
  obtain ⟨e, q, he, hlen, hmul⟩ := exists_rsec_eq_ok_multiple data hn
  refine ⟨length_genpoly n, by rw [ht]; rfl, e, he, hlen, fun i hi => ?_⟩
  rw [polyEval_congr _ hmul, polyEval_convolve q (ne_nil_of_trimmed (trimmed_genpoly n)), polyEval_genpoly_of_lt hi,
    gfmul_zero]

end Sys2Proof.Machine
end

section
/-! The BCH reduction as a remainder over GF(2), the check of the metadata words, and the obligation O30 (R165,
R166, R168, R174). -/

namespace Sys2Proof.Machine

/-! ### The length of a number in bits (R8) -/

theorem bitlen_of_ne_zero {v : Nat} (h : v ≠ 0) : bitlen v = v.log2 + 1 := if_neg h

theorem bitlen_le_iff {v n : Nat} : bitlen v ≤ n ↔ v < 2 ^ n := by
  by_cases h : v = 0
  · simp [h, bitlen]
  · rw [bitlen_of_ne_zero h, Nat.succ_le_iff, Nat.log2_lt h]

theorem bitlen_pos {v : Nat} (h : v ≠ 0) : 0 < bitlen v := by
  rw [bitlen_of_ne_zero h]
  exact Nat.succ_pos _

theorem testBit_bitlen_sub_one {v : Nat} (h : v ≠ 0) : v.testBit (bitlen v - 1) = true := by
  rw [bitlen_of_ne_zero h]
  exact Nat.testBit_log2 h

theorem testBit_of_bitlen_le {v i : Nat} (h : bitlen v ≤ i) : v.testBit i = false :=
  Nat.testBit_lt_two_pow (bitlen_le_iff.mp h)

/-! ### The carry-less product -/

/-- The product over the bits of `q` below `n`. -/
def clmulTo (q g n : Nat) : Nat :=
  (List.range n).foldl (fun acc i => if q.testBit i then acc ^^^ (g <<< i) else acc) 0

theorem clmulTo_succ (q g n : Nat) :
    clmulTo q g (n + 1) = clmulTo q g n ^^^ if q.testBit n then g <<< n else 0 := by
  rw [clmulTo, List.range_succ, List.foldl_append, List.foldl_cons, List.foldl_nil, ← clmulTo]
  split
  · rfl
  · exact (Nat.xor_zero _).symm

theorem clmul_eq_clmulTo {q n : Nat} (g : Nat) (h : bitlen q ≤ n) : clmul q g = clmulTo q g n := by
  induction h with
  | refl => rfl
  | step hle ih => rw [clmulTo_succ, testBit_of_bitlen_le hle, if_neg Bool.false_ne_true, Nat.xor_zero, ih]

theorem clmulTo_xor (q p g n : Nat) : clmulTo (q ^^^ p) g n = clmulTo q g n ^^^ clmulTo p g n := by
  induction n with
  | zero => exact (Nat.xor_self 0).symm
  | succ n ih =>
    have hbit (x y : Bool) : (if (x ^^ y) = true then g <<< n else 0) =
        (if x = true then g <<< n else 0) ^^^ if y = true then g <<< n else 0 := by
      cases x <;> cases y <;> simp
    rw [clmulTo_succ, clmulTo_succ, clmulTo_succ, ih, Nat.testBit_xor, hbit]
    ac_rfl

theorem clmul_xor (q p g : Nat) : clmul (q ^^^ p) g = clmul q g ^^^ clmul p g := by
  have hle : bitlen (q ^^^ p) ≤ max (bitlen q) (bitlen p) :=
    bitlen_le_iff.mpr (Nat.xor_lt_two_pow (bitlen_le_iff.mp (le_max_left ..)) (bitlen_le_iff.mp (le_max_right ..)))
  rw [clmul_eq_clmulTo g hle, clmul_eq_clmulTo g (le_max_left (bitlen q) (bitlen p)),
    clmul_eq_clmulTo g (le_max_right (bitlen q) (bitlen p)), clmulTo_xor]

theorem clmul_two_pow (k g : Nat) : clmul (2 ^ k) g = g <<< k := by
  have hlow (n : Nat) (h : n ≤ k) : clmulTo (2 ^ k) g n = 0 := by
    induction n with
    | zero => rfl
    | succ n ih =>
      rw [clmulTo_succ, ih (by omega), Nat.testBit_two_pow_of_ne (by omega), if_neg Bool.false_ne_true, Nat.xor_zero]
  have hlen : bitlen (2 ^ k) ≤ k + 1 := bitlen_le_iff.mpr (Nat.pow_lt_pow_succ (by decide))
  rw [clmul_eq_clmulTo g hlen, clmulTo_succ, hlow k le_rfl, Nat.testBit_two_pow_self, if_pos rfl, Nat.zero_xor]

/-! ### The loop (R165) -/

/-- Each pass of the loop clears the top bit. -/
theorem bitlen_bchPass_lt {d g : Nat} (hg : g ≠ 0) (h : bitlen g ≤ bitlen d) :
    bitlen (d ^^^ (g <<< (bitlen d - bitlen g))) < bitlen d := by
  have hgpos := bitlen_pos hg
  have hd : d ≠ 0 := by
    rintro rfl
    exact absurd h hgpos.not_ge
  suffices hle : bitlen (d ^^^ (g <<< (bitlen d - bitlen g))) ≤ bitlen d - 1 by omega
  refine bitlen_le_iff.mpr (Nat.lt_pow_two_of_testBit _ fun i hi => ?_)
  rw [Nat.testBit_xor, Nat.testBit_shiftLeft, decide_eq_true (by omega), Bool.true_and]
  rcases hi.eq_or_lt with rfl | hlt
  · have hidx : bitlen d - 1 - (bitlen d - bitlen g) = bitlen g - 1 := by omega
    rw [hidx, testBit_bitlen_sub_one hd, testBit_bitlen_sub_one hg]
    rfl
  · rw [testBit_of_bitlen_le (by omega), testBit_of_bitlen_le (by omega)]
    rfl

theorem bitlen_bchLoop_lt {g : Nat} (hg : g ≠ 0) (fuel d : Nat) (h : bitlen d ≤ fuel) :
    bitlen (bchLoop fuel d g) < bitlen g := by
  induction fuel generalizing d with
  | zero => exact h.trans_lt (bitlen_pos hg)
  | succ fuel ih =>
    rw [bchLoop]
    split
    · next hle => exact ih _ (Nat.le_of_lt_succ ((bitlen_bchPass_lt hg hle).trans_le h))
    · next hlt => exact not_le.mp hlt

/-- What the loop has taken from `d` is a multiple of `g`. -/
theorem exists_xor_bchLoop_eq_clmul (g fuel d : Nat) : ∃ q, d ^^^ bchLoop fuel d g = clmul q g := by
  induction fuel generalizing d with
  | zero => exact ⟨0, Nat.xor_self d⟩
  | succ fuel ih =>
    rw [bchLoop]
    split
    · obtain ⟨q, hq⟩ := ih (d ^^^ (g <<< (bitlen d - bitlen g)))
      refine ⟨q ^^^ 2 ^ (bitlen d - bitlen g), ?_⟩
      rw [clmul_xor, clmul_two_pow, ← hq, Nat.xor_right_comm, Nat.xor_assoc d, Nat.xor_self, Nat.xor_zero]
    · exact ⟨0, Nat.xor_self d⟩

/-! ### The metadata words (R166, R168, R174) -/

theorem bchreduce_bchfmt : ∀ ecl < 4, ∀ k < 8, bchreduce (bchfmt ecl k ^^^ 0x5412) 0x537 = 0 ∧
    (bchfmt ecl k ^^^ 0x5412) >>> 10 = (ecl <<< 3) ||| k := by
  decide

theorem bchreduce_bchver : ∀ v < 64, bchreduce (bchver v) 0x1F25 = 0 ∧ bchver v >>> 12 = v := by
  decide

/-- Settles O30: each pass of the loop takes a shift of `g` away and clears the top bit; the 32 format words and the
64 version words are checked one by one. -/
theorem bchReduceIsRemainder : Obligations.BchReduceIsRemainder :=
  ⟨fun d g hg => ⟨bitlen_bchLoop_lt hg.ne' _ d le_rfl, exists_xor_bchLoop_eq_clmul g _ d⟩,
    fun ecl k hecl hk => bchreduce_bchfmt ecl (by omega) k (by omega),
    fun v hv => bchreduce_bchver v (by omega)⟩

end Sys2Proof.Machine
end

section
/-! The penalty rules by counting: each recursive count of a line or of a grid is a sum over its positions; the
obligation O33 (R185 to R188). -/

namespace Sys2Proof.Machine

/-- A list read index by index. -/
theorem map_range_getD {α β : Type} (f : α → β) (l : List α) (d : α) :
    (List.range l.length).map (fun i => f (l.getD i d)) = l.map f := by
  refine List.ext_getElem (by simp) fun i hi _ => ?_
  rw [List.length_map, List.length_range] at hi
  simp [hi]

/-! ### Runs (R185) -/

theorem runScore_eq (n : Nat) : runScore n = if 5 ≤ n then 3 + (n - 5) else 0 := by
  rw [runScore]
  split <;> omega

/-- The length of the rest, from `i` on, of the run that element `i` of a line lies in. -/
def runLength (l : List Bool) (i : Nat) : Nat := ((l.drop i).takeWhile fun b => some b = l[i]?).length

/-- The scores of the runs that start in `l`, when the element before `l` is `p`. -/
def runStarts (p : Option Bool) (l : List Bool) : Nat :=
  ((List.range l.length).map fun i =>
    if (if i = 0 then p else l[i - 1]?) ≠ l[i]? then runScore (runLength l i) else 0).sum

theorem runLength_cons_zero (b : Bool) (l : List Bool) :
    runLength (b :: l) 0 = (l.takeWhile (· = b)).length + 1 := by
  simp [runLength]

theorem runStarts_cons (p : Option Bool) (b : Bool) (l : List Bool) :
    runStarts p (b :: l) =
      (if p ≠ some b then runScore ((l.takeWhile (· = b)).length + 1) else 0) + runStarts (some b) l := by
  have hprev (i : Nat) : (b :: l)[i]? = if i = 0 then some b else l[i - 1]? := by cases i <;> rfl
  rw [runStarts, List.length_cons, List.sum_range_succ', if_pos rfl, runLength_cons_zero]
  refine congrArg _ (congrArg _ (List.map_congr_left fun i _ => ?_))
  rw [if_neg i.succ_ne_zero, Nat.succ_sub_one, hprev, List.getElem?_cons_succ]
  rfl

theorem runsFrom_eq (l : List Bool) (cur : Bool) (n : Nat) :
    runsFrom cur n l = runScore ((l.takeWhile (· = cur)).length + n) + runStarts (some cur) l := by
  induction l generalizing cur n with
  | nil => simp [runsFrom, runStarts]
  | cons b l ih =>
    rw [runsFrom, runStarts_cons]
    by_cases hb : b = cur
    · subst hb
      rw [if_pos rfl, if_neg (not_not_intro rfl), ih, Nat.zero_add, List.takeWhile_cons_of_pos (by simp),
        List.length_cons, Nat.add_right_comm, Nat.add_assoc]
    · rw [if_neg hb, if_pos fun h => hb (Option.some.inj h).symm, ih, List.takeWhile_cons_of_neg (by simpa using hb),
        List.length_nil, Nat.zero_add]

/-- The score of a line is that of its runs, each counted at its start. -/
theorem lineRuns_eq_runStarts (l : List Bool) : lineRuns l = runStarts none l := by
  cases l with
  | nil => rfl
  | cons b l => rw [lineRuns, runsFrom_eq, runStarts_cons, if_pos (Option.some_ne_none b).symm]

/-! ### Blocks (R186) -/

/-- 1 when the 2x2 block at index `i` of two adjacent rows has one colour, else 0. -/
def squareAt (up down : List Bool) (i : Nat) : Nat :=
  if up.getD i false = up.getD (i + 1) false ∧ up.getD i false = down.getD i false ∧
    up.getD i false = down.getD (i + 1) false then 1 else 0

theorem blocksIn_eq_sum {up down : List Bool} (h : up.length = down.length) :
    blocksIn up down = ((List.range (up.length - 1)).map (squareAt up down)).sum := by
  induction up generalizing down with
  | nil => rfl
  | cons a up ih =>
    obtain ⟨c, down, rfl⟩ := List.exists_cons_of_length_eq_add_one h.symm
    have hlen : up.length = down.length := Nat.succ.inj h
    cases up with
    | nil => rfl
    | cons b up =>
      obtain ⟨d, down, rfl⟩ := List.exists_cons_of_length_eq_add_one hlen.symm
      rw [blocksIn, ih hlen]
      exact (List.sum_range_succ' (squareAt (a :: b :: up) (c :: d :: down)) up.length).symm

theorem blockCount_eq_sum (g : List (List Bool)) :
    blockCount g = ((List.range (g.length - 1)).map fun r => blocksIn (g.getD r []) (g.getD (r + 1) [])).sum := by
  induction g using blockCount.induct with
  | case1 up down g ih =>
    rw [blockCount, ih]
    exact (List.sum_range_succ' (fun r => blocksIn ((up :: down :: g).getD r []) ((up :: down :: g).getD (r + 1) []))
      g.length).symm
  | case2 g hshort =>
    rcases g with _ | ⟨up, _ | ⟨down, g⟩⟩
    · rfl
    · rfl
    · exact (hshort up down g rfl).elim

/-! ### Windows (R187) -/

theorem isPrefixOf_iff_take {pat l : List Bool} : pat.isPrefixOf l = true ↔ l.take pat.length = pat := by
  rw [List.isPrefixOf_iff_prefix, List.prefix_iff_eq_take, eq_comm]

theorem windowsOf_eq_sum {pat : List Bool} (hpat : pat ≠ []) (l : List Bool) :
    windowsOf pat l = ((List.range (l.length - (pat.length - 1))).map fun i =>
      if (l.drop i).take pat.length = pat then 1 else 0).sum := by
  have hpos := List.length_pos_iff.mpr hpat
  induction l with
  | nil => simp [windowsOf]
  | cons b l ih =>
    rw [windowsOf, ih]
    simp only [isPrefixOf_iff_take]
    by_cases hlong : pat.length ≤ l.length + 1
    · have hlen : (b :: l).length - (pat.length - 1) = l.length - (pat.length - 1) + 1 := by
        rw [List.length_cons]; omega
      rw [hlen, List.sum_range_succ']
      rfl
    · have hne : (b :: l).take pat.length ≠ pat := by
        intro h
        have hle := congrArg List.length h
        rw [List.length_take, List.length_cons] at hle
        omega
      have hnone : l.length - (pat.length - 1) = 0 := by omega
      have hnone' : (b :: l).length - (pat.length - 1) = 0 := by rw [List.length_cons]; omega
      rw [if_neg hne, hnone, hnone']
      rfl

/-! ### Dark cells (R188) -/

theorem countP_id_eq_sum (row : List Bool) : row.countP id = (row.map fun b => if b then 1 else 0).sum := by
  induction row with
  | nil => rfl
  | cons b row ih => rw [List.countP_cons, ih, List.map_cons, List.sum_cons, Nat.add_comm]; rfl

/-- The integer quotient of `pen_d` is the floor of the rational one. -/
theorem floor_darkPercent {d n : Nat} (hn : 0 < n) :
    ⌊|(100 * (d : ℚ)) / ((n : ℚ) * n) - 50| / 5⌋ =
      (((20 * (d : Int) - 10 * ((n : Int) * n)).natAbs / ((n : Int) * n).natAbs : Nat) : Int) := by
  have hpos : (0 : ℚ) < (n : ℚ) * n := by positivity
  have hquot : |(100 * (d : ℚ)) / ((n : ℚ) * n) - 50| / 5 =
      ((20 * (d : Int) - 10 * ((n : Int) * n)).natAbs : ℚ) / (((n : Int) * n).natAbs : ℚ) := by
    have hsub : (100 * (d : ℚ)) / ((n : ℚ) * n) - 50 = 5 * (20 * d - 10 * (n * n)) / ((n : ℚ) * n) := by
      field_simp
      ring
    rw [hsub, abs_div, abs_mul, abs_of_pos hpos, Nat.cast_natAbs, Nat.cast_natAbs]
    push_cast
    rw [abs_of_pos hpos, abs_of_pos (by norm_num : (0 : ℚ) < 5)]
    field_simp
  rw [hquot, Rat.floor_natCast_div_natCast, Int.natCast_div]

/-! ### The rules -/

/-- The cell of a grid at row `r` and column `c`. -/
def gridAt (g : List (List Bool)) (r c : Nat) : Bool := (g.getD r []).getD c false

theorem columns_eq (g : List (List Bool)) :
    columns g = (List.range g.length).map fun c => (List.range g.length).map fun r => gridAt g r c :=
  List.map_congr_left fun c _ => (map_range_getD (fun row => row.getD c false) g []).symm

section
variable {g : List (List Bool)} (hsq : ∀ row ∈ g, row.length = g.length)
include hsq

theorem length_getD_of_square {r : Nat} (hr : r < g.length) : (g.getD r []).length = g.length := by
  rw [List.getD_eq_getElem _ _ hr]
  exact hsq _ (List.getElem_mem hr)

theorem length_of_mem_gridLines {l : List Bool} (h : l ∈ gridLines g) : l.length = g.length := by
  rcases List.mem_append.mp h with hrow | hcol
  · exact hsq l hrow
  · obtain ⟨c, -, rfl⟩ := List.mem_map.mp hcol
    exact List.length_map _

theorem penA_eq_sum : penA g = ((gridLines g).map fun l => ((List.range g.length).map fun i =>
    if i = 0 ∨ l[i - 1]? ≠ l[i]? then
      if 5 ≤ runLength l i then 3 + (runLength l i - 5) else 0
    else 0).sum).sum := by
  refine congrArg List.sum (List.map_congr_left fun l hl => ?_)
  have hlen := length_of_mem_gridLines hsq hl
  rw [lineRuns_eq_runStarts, runStarts, hlen]
  refine congrArg List.sum (List.map_congr_left fun i hi => ?_)
  rw [List.mem_range, ← hlen] at hi
  have hstart : (if i = 0 then none else l[i - 1]?) ≠ l[i]? ↔ i = 0 ∨ l[i - 1]? ≠ l[i]? := by
    by_cases h0 : i = 0
    · simp [h0, List.getElem?_eq_getElem (h0 ▸ hi)]
    · rw [if_neg h0, or_iff_right h0]
  rw [if_congr hstart rfl rfl, runScore_eq]

theorem penB_eq_sum : penB g = ((List.range (g.length - 1)).map fun r => ((List.range (g.length - 1)).map fun c =>
    if gridAt g r c = gridAt g r (c + 1) ∧ gridAt g r c = gridAt g (r + 1) c ∧
      gridAt g r c = gridAt g (r + 1) (c + 1) then 3 else 0).sum).sum := by
  rw [penB, blockCount_eq_sum, ← List.sum_map_mul_left]
  refine congrArg List.sum (List.map_congr_left fun r hr => ?_)
  rw [List.mem_range] at hr
  have hup : (g.getD r []).length = g.length := length_getD_of_square hsq (by omega)
  have hdown : (g.getD (r + 1) []).length = g.length := length_getD_of_square hsq (by omega)
  rw [blocksIn_eq_sum (hup.trans hdown.symm), hup, ← List.sum_map_mul_left]
  refine congrArg List.sum (List.map_congr_left fun c _ => ?_)
  exact (mul_ite _ 3 1 0).trans rfl

theorem penC_eq_sum : penC g = ((gridLines g).map fun l => ((List.range (g.length - 10)).map fun i =>
    (if (l.drop i).take 11 = finderLight then 40 else 0) +
      if (l.drop i).take 11 = lightFinder then 40 else 0).sum).sum := by
  rw [penC, penCMode, penCWith, ← List.sum_map_mul_left]
  refine congrArg List.sum (List.map_congr_left fun l hl => ?_)
  have hscore (pat : List Bool) (hpat : pat.length = 11) :
      40 * windowsOf pat l = ((List.range (g.length - 10)).map fun i =>
        if (l.drop i).take 11 = pat then 40 else 0).sum := by
    have hne : pat ≠ [] := List.ne_nil_of_length_pos (by omega)
    rw [windowsOf_eq_sum hne, length_of_mem_gridLines hsq hl, hpat, ← List.sum_map_mul_left]
    simp only [mul_ite, mul_one, mul_zero]
  rw [mul_add, hscore finderLight rfl, hscore lightFinder rfl, ← List.sum_map_add]

theorem darkCount_eq_sum : darkCount g = ((List.range g.length).map fun r => ((List.range g.length).map fun c =>
    if gridAt g r c then 1 else 0).sum).sum := by
  rw [darkCount, ← map_range_getD _ g []]
  refine congrArg List.sum (List.map_congr_left fun r hr => ?_)
  have hrow := length_getD_of_square hsq (List.mem_range.mp hr)
  rw [countP_id_eq_sum, ← map_range_getD _ (g.getD r []) false, hrow]
  rfl

end

/-- Settles O33: each rule's recursive count is a sum over the positions, and `pen_d` is the floor of a rational. -/
theorem penaltyRules : Obligations.PenaltyRules := by
  intro g hsq
  refine ⟨?_, penB_eq_sum hsq, ?_, fun hn => ?_, darkCount_eq_sum hsq⟩
  · rw [penA_eq_sum hsq, gridLines, columns_eq]
    rfl
  · rw [penC_eq_sum hsq, gridLines, columns_eq]
    rfl
  · rw [floor_darkPercent hn]
    rfl

end Sys2Proof.Machine
end

section
/-! The grid that is scored, the bounds of the four penalties on it, and the obligation O34 (R184, R189). -/

namespace Sys2Proof.Machine

theorem sum_map_le {α : Type} {l : List α} {f : α → Nat} {b : Nat} (h : ∀ x ∈ l, f x ≤ b) :
    (l.map f).sum ≤ l.length * b := by
  simpa using List.sum_le_card_nsmul (l.map f) b (by simpa using h)

/-! ### The bounds for one line -/

theorem runScore_le (n : Nat) : runScore n ≤ n := by
  rw [runScore]
  split <;> omega

theorem runsFrom_le (l : List Bool) (cur : Bool) (n : Nat) : runsFrom cur n l ≤ n + l.length := by
  induction l generalizing cur n with
  | nil => exact runScore_le n
  | cons b l ih =>
    rw [runsFrom, List.length_cons]
    split
    · exact (ih cur (n + 1)).trans (by omega)
    · exact (Nat.add_le_add (runScore_le n) (ih b 1)).trans (by omega)

theorem lineRuns_le (l : List Bool) : lineRuns l ≤ l.length := by
  cases l with
  | nil => exact le_rfl
  | cons b l => exact (runsFrom_le l b 1).trans (by rw [List.length_cons]; omega)

/-- A window is not both patterns of R187, so each start counts at most once. -/
theorem windowScore_le (w : List Bool) :
    (if w = finderLight then 40 else 0) + (if w = lightFinder then 40 else 0) ≤ 40 := by
  by_cases h : w = finderLight
  · have hne : finderLight ≠ lightFinder := by decide
    rw [h, if_pos rfl, if_neg hne]
  · rw [if_neg h]
    split <;> omega

/-! ### The bounds for a square grid -/

section
variable {g : List (List Bool)} (hsq : ∀ row ∈ g, row.length = g.length)

theorem length_gridLines (g : List (List Bool)) : (gridLines g).length = 2 * g.length := by
  rw [gridLines, List.length_append, columns, List.length_map, List.length_range, Nat.two_mul]

theorem penD_le_of_darkCount_le (h : darkCount g ≤ g.length * g.length) : penD g ≤ 100 := by
  have hdark : (darkCount g : Int) ≤ (g.length : Int) * g.length := by exact_mod_cast h
  have hquot : (20 * (darkCount g : Int) - 10 * ((g.length : Int) * g.length)).natAbs /
      ((g.length : Int) * g.length).natAbs ≤ 10 :=
    Nat.div_le_of_le_mul (by omega)
  exact Nat.mul_le_mul_left 10 hquot

include hsq

theorem penA_le : penA g ≤ 2 * g.length * g.length := by
  rw [← length_gridLines]
  exact sum_map_le fun l hl => (lineRuns_le l).trans (length_of_mem_gridLines hsq hl).le

theorem penB_le : penB g ≤ (g.length - 1) * ((g.length - 1) * 3) := by
  rw [penB_eq_sum hsq]
  refine (sum_map_le fun r _ => ?_).trans (by rw [List.length_range])
  refine (sum_map_le fun c _ => ?_).trans (by rw [List.length_range])
  split <;> omega

theorem penC_le : penC g ≤ 2 * g.length * ((g.length - 10) * 40) := by
  rw [penC_eq_sum hsq, ← length_gridLines]
  exact sum_map_le fun l _ => (sum_map_le fun i _ => windowScore_le _).trans (by rw [List.length_range])

theorem penD_le : penD g ≤ 100 :=
  penD_le_of_darkCount_le (sum_map_le fun row hrow => List.countP_le_length.trans (hsq row hrow).le)

theorem penaltyGrid_bounds (hn : g.length ≤ 177) :
    penA g ≤ 62658 ∧ penB g ≤ 92928 ∧ penC g ≤ 2364720 ∧ penD g ≤ 100 := by
  have h1 : g.length - 1 ≤ 176 := by omega
  have h10 : g.length - 10 ≤ 167 := by omega
  have h2 : 2 * g.length ≤ 354 := by omega
  exact ⟨(penA_le hsq).trans (Nat.mul_le_mul h2 hn),
    (penB_le hsq).trans (Nat.mul_le_mul h1 (Nat.mul_le_mul_right 3 h1)),
    (penC_le hsq).trans (Nat.mul_le_mul h2 (Nat.mul_le_mul_right 40 h10)), penD_le hsq⟩

end

/-! ### The grid of a matrix (R184) -/

theorem length_scoreGrid {m : Mat} (h : m.shaped) : (scoreGrid m).length = m.side := by
  obtain ⟨-, -, hlen, -⟩ := h
  rw [scoreGrid, Mat.grid, List.length_map, hlen]

theorem scoreGrid_square {m : Mat} (h : m.shaped) : ∀ row ∈ scoreGrid m, row.length = (scoreGrid m).length := by
  intro row hrow
  obtain ⟨cells, hcells, rfl⟩ := List.mem_map.mp hrow
  obtain ⟨-, -, -, hrows⟩ := id h
  rw [List.length_map, hrows cells hcells, length_scoreGrid h]

theorem scoreGrid_getElem? {m : Mat} (h : m.shaped) {r c : Nat} (hr : r < m.side) (hc : c < m.side) :
    ∃ row : List Bool, (scoreGrid m)[r]? = some row ∧ row.length = m.side ∧
      row[c]? = some (decide ((m.cell r c).val = .dark)) := by
  obtain ⟨-, -, hlen, hrows⟩ := h
  have hr' : r < m.cells.length := hlen ▸ hr
  have hrow := hrows _ (List.getElem_mem hr')
  have hc' : c < m.cells[r].length := hrow ▸ hc
  refine ⟨m.cells[r].map fun e => e.val == .dark, ?_, by rw [List.length_map, hrow], ?_⟩
  · rw [scoreGrid, Mat.grid, List.getElem?_map, List.getElem?_eq_getElem hr']
    rfl
  · rw [List.getElem?_map, List.getElem?_eq_getElem hc', Mat.cell, List.getD_eq_getElem _ _ hr',
      List.getD_eq_getElem _ _ hc']
    rfl

/-- Settles O34: a run scores at most its length, a block 3, a window 40, and at most all cells are dark; the side is
at most 177. -/
theorem penaltyBounds : Obligations.PenaltyBounds := by
  intro m hm
  have hside : (scoreGrid m).length ≤ 177 := by
    obtain ⟨-, hv, -, -⟩ := id hm
    rw [length_scoreGrid hm, Mat.side]
    exact Nat.add_le_add_left (Nat.mul_le_mul_left 4 hv) 17
  obtain ⟨hA, hB, hC, hD⟩ := penaltyGrid_bounds (scoreGrid_square hm) hside
  refine ⟨length_scoreGrid hm, fun r c hr hc => scoreGrid_getElem? hm hr hc, hA, hB, hC, hD, ?_, rfl⟩
  rw [penalty, penaltyGrid]
  omega

end Sys2Proof.Machine
end

section
/-! `ENCODE` from start to end: what a state must hold for it to succeed, the state it then answers, and the
obligation O40 (R213, R214, R257, R299). -/

namespace Sys2Proof.Machine

/-! ### Reads that do not meet a store -/

theorem Memory.bytes_congr {m m' : Memory} {a a' n : Nat}
    (h : ∀ i < n, Memory.byteAt m (a + i) = Memory.byteAt m' (a' + i)) :
    Memory.bytes m a n = Memory.bytes m' a' n :=
  Option.ext fun bs => by
    rw [Memory.bytes_eq_some, Memory.bytes_eq_some]
    exact and_congr_right fun _ => forall₂_congr fun i hi => by rw [h i hi]

theorem State.memRead_congr {s t : State} {a n : Nat}
    (h : ∀ i < n, Memory.byteAt t.mem (a + i) = Memory.byteAt s.mem (a + i)) : t.memRead a n = s.memRead a n := by
  rw [State.memRead, State.memRead, Int.toNat_natCast, Memory.bytes_congr h]

/-- A read apart from the bytes last stored. -/
theorem State.memRead_putBytes_apart {s t : State} {a n b : Nat} {bs : List Byte}
    (hmem : t.mem = Memory.putBytes s.mem b bs) (hapart : b + bs.length ≤ a ∨ a + n ≤ b) :
    t.memRead a n = s.memRead a n :=
  State.memRead_congr fun i hi => by
    rw [hmem, Memory.byteAt_putBytes_outside bs s.mem b (a + i) (by omega)]

/-- A read of the bytes last stored. -/
theorem State.memRead_putBytes_same {t : State} {m : Memory} {a n : Nat} {bs : List Byte}
    (hmem : t.mem = Memory.putBytes m a bs) (hlen : bs.length = n) (hin : a + n ≤ 8192) : t.memRead a n = .ok bs :=
  State.memRead_natCast_eq_ok hin (Memory.bytes_eq_some.mpr
    ⟨hlen, fun i hi => by rw [hmem, Memory.byteAt_putBytes_inside bs m a i (hlen ▸ hi)]⟩)

theorem State.blocks_congr {s t : State} (hdlen : t.dlen = s.dlen) (hnblk : t.nblk = s.nblk)
    (hread : t.memRead t.baddr.toNat (2 * s.nblk.toNat) = s.memRead s.baddr.toNat (2 * s.nblk.toNat)) :
    t.blocks = s.blocks := by
  rw [State.blocks, State.blocks, hdlen, hnblk, hread]

/-! ### The pieces of what `RSGEN` stored -/

theorem cut_map_length_flatten (ls : List (List Byte)) : cut (ls.map List.length) ls.flatten = ls := by
  induction ls with
  | nil => rfl
  | cons l ls ih => rw [List.map_cons, List.flatten_cons, cut, List.take_left, List.drop_left, ih]

theorem AreEcs.cut_flatten {bl : List Block} {d : List Byte} {ecs : List (List Byte)} (h : AreEcs bl d ecs) :
    cut (bl.map Block.ec) ecs.flatten = ecs := by
  rw [← h.map_length, cut_map_length_flatten]

/-! ### The state that `ENCODE` answers -/

/-- The final stream of the data `d` and the EC codewords `c` of the blocks `bl` (R211). -/
def streamOf (bl : List Block) (d c : List Byte) : List Byte :=
  interleave (cut (bl.map Block.data) d) (cut (bl.map Block.ec) c)

/-- The pattern that `MMASK` chooses for the stream `f`. -/
def patternOf (s : State) (f : List Byte) : Nat := maskChoice s (place (layout s.typenum) f)

/-- The matrix that `MMASK` leaves for the stream `f`. -/
def maskedMat (s : State) (f : List Byte) : Mat := applymask (place (layout s.typenum) f) (patternOf s f)

/-- The state after `RSGEN` with the EC codewords `c`. -/
def ecStored (s : State) (bl : List Block) (c : List Byte) : State :=
  { s with
    mem := Memory.putBytes s.mem s.eaddr.toNat c
    elen := BitVec.ofNat 14 (ecTotal bl)
    stage := .ecDone }

/-- The state after `ILV` with the stream `f`. -/
def streamStored (s : State) (bl : List Block) (c f : List Byte) : State :=
  { s with
    mem := Memory.putBytes (Memory.putBytes s.mem s.eaddr.toNat c) s.faddr.toNat f
    elen := BitVec.ofNat 14 (ecTotal bl)
    flen := BitVec.ofNat 14 (s.dlen.toNat + ecTotal bl)
    stage := .ilvDone }

/-- The state after `ENCODE` with the EC codewords `c` and the stream `f`. -/
def encoded (s : State) (bl : List Block) (c f : List Byte) : State :=
  { streamStored s bl c f with
    resmask := BitVec.ofNat 4 (8 ||| patternOf s f)
    score := BitVec.ofNat 31 (penalty (maskedMat s f))
    mat := some (writemeta (maskedMat s f) s.ecl ((BitVec.ofNat 4 (8 ||| patternOf s f)).toNat % 8))
    stage := .done }

/-- What `ENCODE` needs of its state (R299): the block list, the data and their EC codewords, room for what it stores,
a type number, and a matrix that the stream fits into. -/
structure Encodable (s : State) (bl : List Block) (d c : List Byte) : Prop where
  idle : s.stage = .idle
  blocks : s.blocks = .ok bl
  data : s.memRead s.daddr.toNat s.dlen.toNat = .ok d
  ecs : rsecAll bl d = .ok c
  ec_inside : s.eaddr.toNat + ecTotal bl ≤ 8192
  stream_inside : s.faddr.toNat + (s.dlen.toNat + ecTotal bl) ≤ 8192
  one_le_typenum : 1 ≤ s.typenum
  typenum_le : s.typenum ≤ 40
  fits : 8 * (s.dlen.toNat + ecTotal bl) ≤ freecells s.typenum

section
variable {s : State} {bl : List Block} {d c : List Byte}

theorem length_of_rsecAll_eq_ok (hbl : s.blocks = .ok bl) (h : rsecAll bl d = .ok c) : c.length = ecTotal bl := by
  obtain ⟨hec, -⟩ := State.blocks_eq_ok hbl
  obtain ⟨ecs, hecs, hall⟩ := exists_rsecAll_eq_ok_flatten hec d
  rw [Except.ok.inj (h.symm.trans hall), hecs.length_flatten]

theorem length_streamOf (hbl : s.blocks = .ok bl) (hd : d.length = s.dlen.toNat) (hc : c.length = ecTotal bl) :
    (streamOf bl d c).length = s.dlen.toNat + ecTotal bl := by
  obtain ⟨-, hsum⟩ := State.blocks_eq_ok hbl
  rw [streamOf, length_interleave_cut (hd.trans hsum.symm) hc, hsum]

/-! ### What `ILV` reads after `RSGEN` (R68, R302) -/

section
variable (hapart : EcAreaApart s bl) (hc : c.length = ecTotal bl)
include hapart hc

theorem ecStored_blocks : (ecStored s bl c).blocks = s.blocks := by
  obtain ⟨-, hbaddr⟩ := hapart
  exact State.blocks_congr rfl rfl (State.memRead_putBytes_apart rfl (hc ▸ hbaddr))

theorem ecStored_data :
    (ecStored s bl c).memRead s.daddr.toNat s.dlen.toNat = s.memRead s.daddr.toNat s.dlen.toNat := by
  obtain ⟨hdaddr, -⟩ := hapart
  exact State.memRead_putBytes_apart rfl (hc ▸ hdaddr)

end

/-! ### The stages in sequence (R257) -/

theorem encodeRule_of_stages {s s1 s2 s3 s4 s5 t : State} (h1 : rsgenRule s = .ok s1) (h2 : ilvRule s1 = .ok s2)
    (h3 : minitRule s2 = .ok s3) (h4 : mplaceRule s3 = .ok s4) (h5 : mmaskRule s4 = .ok s5)
    (h6 : mmetaRule s5 = .ok t) : encodeRule s = .ok t := by
  rw [encodeRule, h1, Act.ok_bind, h2, Act.ok_bind, h3, Act.ok_bind, h4, Act.ok_bind, h5, Act.ok_bind, h6]

theorem Encodable.length_ecs (h : Encodable s bl d c) : c.length = ecTotal bl := length_of_rsecAll_eq_ok h.blocks h.ecs

theorem Encodable.length_stream (h : Encodable s bl d c) : (streamOf bl d c).length = s.dlen.toNat + ecTotal bl :=
  length_streamOf h.blocks (State.length_of_memRead_eq_ok h.data) h.length_ecs

theorem Encodable.rsgenRule_eq (h : Encodable s bl d c) : rsgenRule s = .ok (ecStored s bl c) := by
  obtain ⟨hec, -⟩ := State.blocks_eq_ok h.blocks
  obtain ⟨ecs, hecs, hall⟩ := exists_rsecAll_eq_ok_flatten hec d
  obtain rfl : c = ecs.flatten := Except.ok.inj (h.ecs.symm.trans hall)
  exact rsgenRule_of_ecs h.idle h.blocks h.data h.ec_inside hecs hall

theorem Encodable.ilvRule_eq (h : Encodable s bl d c) (hapart : EcAreaApart s bl) :
    ilvRule (ecStored s bl c) = .ok (streamStored s bl c (streamOf bl d c)) := by
  have hblocks := (ecStored_blocks hapart h.length_ecs).trans h.blocks
  have hdata := (ecStored_data hapart h.length_ecs).trans h.data
  have hec : (ecStored s bl c).memRead s.eaddr.toNat (ecTotal bl) = .ok c :=
    State.memRead_putBytes_same rfl h.length_ecs h.ec_inside
  have helen : ecTotal bl = (ecStored s bl c).elen.toNat :=
    (ecTotal_toNat_ofNat ((Nat.le_add_left ..).trans h.ec_inside)).symm
  exact ilvRule_of_stream rfl hblocks helen hdata hec h.stream_inside

/-- `ENCODE` of a state that holds what it needs. -/
theorem Encodable.encodeRule_eq (h : Encodable s bl d c) (hapart : EcAreaApart s bl) :
    encodeRule s = .ok (encoded s bl c (streamOf bl d c)) := by
  have hflen : (BitVec.ofNat 14 (s.dlen.toNat + ecTotal bl)).toNat = s.dlen.toNat + ecTotal bl :=
    ecTotal_toNat_ofNat ((Nat.le_add_left ..).trans h.stream_inside)
  have hminit := minitRule_of_typenum (s := streamStored s bl c (streamOf bl d c)) rfl h.one_le_typenum h.typenum_le
  have hstream : ({ streamStored s bl c (streamOf bl d c) with
      mat := some (layout s.typenum), stage := .layout } : State).memRead s.faddr.toNat
        (BitVec.ofNat 14 (s.dlen.toNat + ecTotal bl)).toNat = .ok (streamOf bl d c) := by
    rw [hflen]
    exact State.memRead_putBytes_same rfl h.length_stream h.stream_inside
  have hmplace := mplaceRule_of_stream rfl hstream rfl
  rw [raiseIf_neg (not_lt.mpr (hflen.symm ▸ h.fits)), Act.ok_bind] at hmplace
  exact encodeRule_of_stages h.rsgenRule_eq (h.ilvRule_eq hapart) hminit hmplace (mmaskRule_of_mat rfl rfl)
    (mmetaRule_of_mat rfl rfl)

/-- A state from which `ENCODE` succeeds holds what it needs. -/
theorem exists_encodable_of_encodeRule_eq_ok {t : State} (h : encodeRule s = .ok t)
    (hapart : ∀ bl, s.blocks = .ok bl → EcAreaApart s bl) : ∃ bl d c, Encodable s bl d c := by
  obtain ⟨s1, s2, s3, s4, s5, h1, h2, h3, h4, -, -⟩ := encodeRule_eq_ok h
  obtain ⟨bl, d, c, hidle, hbl, hd, hec, hecs, -, rfl⟩ := rsgenRule_eq_ok h1
  obtain ⟨bl', f, -, hbl', -, -, hstream, rfl⟩ := exists_stream_of_ilvRule_eq_ok h2
  obtain ⟨-, hone, hforty, rfl⟩ := minitRule_eq_ok h3
  obtain ⟨f, m, -, -, hm, hcap, -⟩ := mplaceRule_eq_ok h4
  have hsame := ecStored_blocks (hapart bl hbl) (length_of_rsecAll_eq_ok hbl hecs)
  obtain rfl : bl' = bl := Except.ok.inj (hbl'.symm.trans (hsame.trans hbl))
  obtain rfl : layout s.typenum = m := Option.some.inj hm
  have hflen : (BitVec.ofNat 14 (s.dlen.toNat + ecTotal bl')).toNat = s.dlen.toNat + ecTotal bl' :=
    ecTotal_toNat_ofNat ((Nat.le_add_left ..).trans hstream)
  exact ⟨bl', d, c, hidle, hbl, hd, hecs, hec, hstream, hone, hforty, hflen ▸ hcap⟩

end

/-! ### The pattern (R42, R190) -/

theorem resmask_toNat_mod : ∀ k < 8, (BitVec.ofNat 4 (8 ||| k)).toNat % 8 = k := by decide

theorem patternOf_le {s : State} (h : s.masksel ≤ 8) (f : List Byte) : patternOf s f ≤ 7 := by
  rw [patternOf, maskChoice]
  split
  · exact (choosemaskLeast _).1
  · omega

/-- Settles O40: the EC area is apart from what `ILV` reads, so the six stages run one after another and each leaves
what the next one needs. -/
theorem encodeCompletes : Obligations.EncodeCompletes := by
  intro s bl d hidle hbl hdin hd hec hstream hapart hone hforty hmask hfits
  obtain ⟨hblec, -⟩ := State.blocks_eq_ok hbl
  obtain ⟨ecs, hecs, hall⟩ := exists_rsecAll_eq_ok_flatten hblec d
  have henc : Encodable s bl d ecs.flatten :=
    ⟨hidle, hbl, State.memRead_natCast_eq_ok hdin hd, hall, hec, hstream, hone, hforty, hfits⟩
  have hcut : streamOf bl d ecs.flatten = interleave (cut (bl.map Block.data) d) ecs := by
    rw [streamOf, hecs.cut_flatten]
  have hlen := henc.length_stream
  have hrule := exec_of_ruleOf (i := .encode) (henc.encodeRule_eq hapart)
  rw [hcut] at hlen hrule
  have ⟨hlenecs, hslices⟩ := hecs
  refine ⟨cut (bl.map Block.data) d, ecs,
    ⟨by rw [length_cut, List.length_map], hlenecs, fun b x hx => ⟨getElem?_cut_data d hx, hslices b x hx⟩⟩, hlen, ?_⟩
  rw [hrule, encoded, resmask_toNat_mod _ (Nat.lt_succ_of_le (patternOf_le hmask _))]
  rfl

end Sys2Proof.Machine
end

section
/-! `ENCODE` depends on the configuration, the data codewords and the block list alone, and the obligation O41 (R260,
R302). -/

namespace Sys2Proof.Machine

/-! ### The inputs of two runs agree -/

/-- Two reads of the same bytes, wherever they lie. -/
theorem State.eq_of_memRead_eq_ok {s t : State} {a a' n : Nat} {bs bs' : List Byte} (hs : s.memRead a n = .ok bs)
    (ht : t.memRead a' n = .ok bs') (h : ∀ i < n, Memory.byteAt s.mem (a + i) = Memory.byteAt t.mem (a' + i)) :
    bs = bs' := by
  obtain ⟨-, hbytes⟩ := State.memRead_eq_ok.mp hs
  obtain ⟨-, hbytes'⟩ := State.memRead_eq_ok.mp ht
  rw [Int.toNat_natCast] at hbytes hbytes'
  exact Option.some.inj (hbytes.symm.trans ((Memory.bytes_congr h).trans hbytes'))

/-- A good block list is what the descriptors in memory spell. -/
theorem State.exists_raw_of_blocks_eq_ok {s : State} {bl : List Block} (h : s.blocks = .ok bl) :
    ∃ raw, s.memRead s.baddr.toNat (2 * s.nblk.toNat) = .ok raw ∧ bl = parseBlocks raw := by
  obtain ⟨_, -, h⟩ := Act.bind_eq_ok.mp h
  obtain ⟨raw, hraw, h⟩ := Act.bind_eq_ok.mp h
  obtain ⟨_, -, h⟩ := Act.bind_eq_ok.mp h
  obtain ⟨_, -, h⟩ := Act.bind_eq_ok.mp h
  exact ⟨raw, hraw, (Except.ok.inj h).symm⟩

/-- Two states hold the same configuration, data codewords and block list (R260). -/
structure SameInput (s1 s2 : State) : Prop where
  cfg : s1.cfg = s2.cfg
  dlen : s1.dlen = s2.dlen
  nblk : s1.nblk = s2.nblk
  data : ∀ i, i < s1.dlen.toNat →
    Memory.byteAt s1.mem (s1.daddr.toNat + i) = Memory.byteAt s2.mem (s2.daddr.toNat + i)
  descriptors : ∀ i, i < 2 * s1.nblk.toNat →
    Memory.byteAt s1.mem (s1.baddr.toNat + i) = Memory.byteAt s2.mem (s2.baddr.toNat + i)

section
variable {s1 s2 : State} {bl1 bl2 : List Block} {d1 d2 c1 c2 : List Byte} (h : SameInput s1 s2)
  (h1 : Encodable s1 bl1 d1 c1) (h2 : Encodable s2 bl2 d2 c2)
include h h1 h2

theorem SameInput.blocks_eq : bl1 = bl2 := by
  obtain ⟨raw1, hraw1, rfl⟩ := State.exists_raw_of_blocks_eq_ok h1.blocks
  obtain ⟨raw2, hraw2, rfl⟩ := State.exists_raw_of_blocks_eq_ok h2.blocks
  rw [← h.nblk] at hraw2
  rw [State.eq_of_memRead_eq_ok hraw1 hraw2 h.descriptors]

theorem SameInput.data_eq : d1 = d2 := by
  have hd2 := h2.data
  rw [← h.dlen] at hd2
  exact State.eq_of_memRead_eq_ok h1.data hd2 h.data

theorem SameInput.ecs_eq : c1 = c2 := by
  obtain rfl := h.blocks_eq h1 h2
  obtain rfl := h.data_eq h1 h2
  exact Except.ok.inj (h1.ecs.symm.trans h2.ecs)

end

section
variable {s1 s2 : State} (h : SameInput s1 s2)
include h

theorem SameInput.patternOf_eq (f : List Byte) : patternOf s1 f = patternOf s2 f := by
  rw [patternOf, patternOf, maskChoice, maskChoice, State.typenum, State.typenum, State.masksel, State.masksel, h.cfg]

theorem SameInput.maskedMat_eq (f : List Byte) : maskedMat s1 f = maskedMat s2 f := by
  rw [maskedMat, maskedMat, h.patternOf_eq, State.typenum, State.typenum, h.cfg]

theorem SameInput.mat_encoded_eq (bl : List Block) (c f : List Byte) :
    (encoded s1 bl c f).mat = (encoded s2 bl c f).mat := by
  rw [encoded, encoded, h.patternOf_eq, h.maskedMat_eq, State.ecl, State.ecl, h.cfg]

theorem SameInput.resmask_encoded_eq (bl : List Block) (c f : List Byte) :
    (encoded s1 bl c f).resmask = (encoded s2 bl c f).resmask := by rw [encoded, encoded, h.patternOf_eq]

theorem SameInput.score_encoded_eq (bl : List Block) (c f : List Byte) :
    (encoded s1 bl c f).score = (encoded s2 bl c f).score := by rw [encoded, encoded, h.maskedMat_eq]

theorem SameInput.flen_encoded_eq (bl : List Block) (c f : List Byte) :
    (encoded s1 bl c f).flen = (encoded s2 bl c f).flen := by
  show BitVec.ofNat 14 (s1.dlen.toNat + _) = BitVec.ofNat 14 (s2.dlen.toNat + _)
  rw [h.dlen]

end

/-! ### What the state after `ENCODE` holds -/

section
variable {s : State} {bl : List Block} {d c : List Byte} (h : Encodable s bl d c)
include h

theorem Encodable.toNat_flen : (encoded s bl c (streamOf bl d c)).flen.toNat = (streamOf bl d c).length := by
  rw [h.length_stream]
  exact ecTotal_toNat_ofNat ((Nat.le_add_left ..).trans h.stream_inside)

theorem Encodable.toNat_elen : (encoded s bl c (streamOf bl d c)).elen.toNat = c.length := by
  rw [h.length_ecs]
  exact ecTotal_toNat_ofNat ((Nat.le_add_left ..).trans h.ec_inside)

omit h in
theorem byteAt_encoded_stream {f : List Byte} {i : Nat} (hi : i < f.length) :
    Memory.byteAt (encoded s bl c f).mem (s.faddr.toNat + i) = f[i]? :=
  Memory.byteAt_putBytes_inside f _ _ i hi

theorem Encodable.byteAt_ec (hapart : s.eaddr.toNat + ecTotal bl ≤ s.faddr.toNat ∨
      s.faddr.toNat + (s.dlen.toNat + ecTotal bl) ≤ s.eaddr.toNat) {i : Nat} (hi : i < c.length) :
    Memory.byteAt (encoded s bl c (streamOf bl d c)).mem (s.eaddr.toNat + i) = (c)[i]? := by
  have hlen := h.length_stream
  have hec := h.length_ecs
  exact (Memory.byteAt_putBytes_outside (streamOf bl d c) _ _ _ (by omega)).trans
    (Memory.byteAt_putBytes_inside c _ _ i hi)

/-- The symbol is a finished matrix (R245). -/
theorem Encodable.cellsOk (f : List Byte) (k : Nat) : (writemeta (maskedMat s f) s.ecl k).cellsOk .done := by
  have hlayout := shaped_layout h.one_le_typenum h.typenum_le
  have hmasked := cellsOk_masked (cellsOk_applymask (cellsOk_place hlayout (cellsOk_layout _) f) (patternOf s f))
  exact cellsOk_writemeta (shaped_applymask (shaped_place hlayout f) _) hmasked _ _

end

theorem Mat.cellsOk.cell_of_pattern {g : Stage} {m : Mat} (h : m.cellsOk g) {r c : Nat} {x : CellVal} (hr : r < m.side)
    (hc : c < m.side) (hx : patternVal m.v r c = some x) : m.cell r c = ⟨x, true⟩ := by
  obtain ⟨hfn, hval, -⟩ := h r c hr hc
  rw [layoutCell_of_pattern hx] at hfn
  exact congrArg₂ Cell.mk (hval x hx) hfn

/-- Settles O41: both runs end in the state that their inputs give, and what R260 names depends on equal inputs. -/
theorem encodeIsPure : Obligations.EncodeIsPure := by
  intro s1 s2 t1 t2 _ _ hexec1 hok1 hexec2 hok2 hcfg hdlen hnblk hdata hdesc hreg1 hreg2
  have hsame : SameInput s1 s2 := ⟨hcfg, hdlen, hnblk, hdata, hdesc⟩
  have hrule1 := ruleOf_of_exec_noError hexec1 hok1
  have hrule2 := ruleOf_of_exec_noError hexec2 hok2
  obtain ⟨bl, d, c, h1⟩ := exists_encodable_of_encodeRule_eq_ok hrule1 fun bl hbl => (hreg1 bl hbl).1
  obtain ⟨bl', d', c', h2⟩ := exists_encodable_of_encodeRule_eq_ok hrule2 fun bl hbl => (hreg2 bl hbl).1
  obtain rfl := hsame.ecs_eq h1 h2
  obtain rfl := hsame.data_eq h1 h2
  obtain rfl := hsame.blocks_eq h1 h2
  obtain ⟨hapart1, hstream1⟩ := hreg1 bl h1.blocks
  obtain ⟨hapart2, hstream2⟩ := hreg2 bl h2.blocks
  obtain rfl : encoded s1 bl c (streamOf bl d c) = t1 := Except.ok.inj ((h1.encodeRule_eq hapart1).symm.trans hrule1)
  obtain rfl : encoded s2 bl c (streamOf bl d c) = t2 := Except.ok.inj ((h2.encodeRule_eq hapart2).symm.trans hrule2)
  refine ⟨hsame.mat_encoded_eq .., hsame.resmask_encoded_eq .., hsame.score_encoded_eq .., hsame.flen_encoded_eq ..,
    rfl, fun i hi => ?_, fun i hi => ?_, _, rfl, fun r k x hr hk hx => (h1.cellsOk _ _).cell_of_pattern hr hk hx⟩
  · rw [h1.toNat_flen] at hi
    exact (byteAt_encoded_stream hi).trans (byteAt_encoded_stream hi).symm
  · rw [h1.toNat_elen] at hi
    exact (h1.byteAt_ec hstream1 hi).trans (h2.byteAt_ec hstream2 hi).symm

end Sys2Proof.Machine
end
